-- ==== Sys2Proof/Word.lean ====
section
/-! DEFINITION. The words of the block's ports and registers (00_scope.md R7, R10). Every quantity is
unsigned and bit 0 is the least significant bit. -/

namespace Sys2Proof

/-- A byte of a serialised word (20_memory.md R51). -/
abbrev Byte := BitVec 8

/-- A command word (30_encoding.md R61). -/
abbrev CmdWord := BitVec 72

/-- A sample index. The register is `SAMPLE_W` bits wide; it is held zero-extended to 64 bits, as the
records carry it (30_encoding.md R75). -/
abbrev Sample := BitVec 64

/-- A control register and the accumulator (00_scope.md R7, 10_state.md R28). -/
abbrev Word32 := BitVec 32

end Sys2Proof
end

