-- ==== Sys2Proof/Syntax.lean ====
section
/-! DEFINITION. The commands: one constructor per row of spec/opcode_table.json. Every constructor
carries the bits its opcode leaves over, because "a decoder reads `op` and knows the command"
(30_encoding.md R72) and legality is a check of the prologue (44_commands.md R192; log 15). -/

namespace Sys2Proof

/-- A command (30_encoding.md R62). `sub` is bits 67:64 of the word and `payload` bits 63:0 (R61). -/
inductive Instr where
  /-- `NOP`, op 0x0 (R63) -/
  | nop (sub : BitVec 4) (payload : BitVec 64)
  /-- `RESET`, op 0x1; `sub` and `payload` are ignored (R64) -/
  | reset (sub : BitVec 4) (payload : BitVec 64)
  /-- `CFGW`, op 0x2; `sub` is the CSR address (R65) -/
  | cfgw (sub : BitVec 4) (payload : BitVec 64)
  /-- `START`, op 0x3 (R66) -/
  | start (sub : BitVec 4) (payload : BitVec 64)
  /-- `EDGE`, op 0x4; `sub[0]` is the polarity, `payload` the sample index (R67) -/
  | edge (sub : BitVec 4) (payload : BitVec 64)
  /-- `END`, op 0x5 (R68) -/
  | endSession (sub : BitVec 4) (payload : BitVec 64)
  /-- reserved opcodes 0x6 and 0x7; `op0` is `op[0]` (R69) -/
  | reserved67 (op0 : BitVec 1) (sub : BitVec 4) (payload : BitVec 64)
  /-- reserved opcodes 0x8 to 0xF; `op20` is `op[2:0]` (R69) -/
  | reserved8F (op20 : BitVec 3) (sub : BitVec 4) (payload : BitVec 64)
  deriving DecidableEq, Repr

end Sys2Proof
end

