-- ==== Sys2Proof/Decode.lean ====
section
/-! DEFINITION. From bits to commands and back (30_encoding.md R61 to R72). Every 72-bit word is a
command (R72: a decoder reads `op` and knows the command); a list of bytes shorter than a word is
refused by name. -/

namespace Sys2Proof

/-- Bits `8k+7` down to `8k` of a word (20_memory.md R51). -/
def byteOf {w : Nat} (v : BitVec w) (k : Nat) : Byte := v.extractLsb' (8 * k) 8

/-- The `n` bytes of a word in little-endian order (20_memory.md R51). -/
def bytesLE {w : Nat} (n : Nat) (v : BitVec w) : List Byte := (List.range n).map (byteOf v)

/-- The number that a list of bytes is in little-endian order (20_memory.md R51). -/
def natOfBytesLE : List Byte → Nat
  | [] => 0
  | b :: bs => b.toNat + 256 * natOfBytesLE bs

/-- Why a list of bytes is no command. -/
inductive DecodeError where
  /-- fewer than the 9 bytes of a command word (20_memory.md R51) -/
  | truncated (have' : Nat)
  deriving DecidableEq, Repr

/-- The command of a 72-bit word: `op` is bits 71:68, `sub` 67:64 and `payload` 63:0
(30_encoding.md R61, R62). -/
def decodeWord (w : CmdWord) : Instr :=
  let op := w.extractLsb' 68 4
  let sub := w.extractLsb' 64 4
  let payload := w.extractLsb' 0 64
  if op = 0x0#4 then .nop sub payload
  else if op = 0x1#4 then .reset sub payload
  else if op = 0x2#4 then .cfgw sub payload
  else if op = 0x3#4 then .start sub payload
  else if op = 0x4#4 then .edge sub payload
  else if op = 0x5#4 then .endSession sub payload
  else if op.extractLsb' 3 1 = 0#1 then .reserved67 (op.extractLsb' 0 1) sub payload
  else .reserved8F (op.extractLsb' 0 3) sub payload

/-- The first command of a list of bytes, with the bytes after it (20_memory.md R51, 30_encoding.md R72). -/
def decode (bs : List Byte) : Except DecodeError (Instr × List Byte) :=
  if 9 ≤ bs.length then
    .ok (decodeWord (BitVec.ofNat 72 (natOfBytesLE (bs.take 9))), bs.drop 9)
  else .error (.truncated bs.length)

/-- The opcode of a command (30_encoding.md R62). -/
def Instr.op : Instr → BitVec 4
  | .nop _ _ => 0x0#4
  | .reset _ _ => 0x1#4
  | .cfgw _ _ => 0x2#4
  | .start _ _ => 0x3#4
  | .edge _ _ => 0x4#4
  | .endSession _ _ => 0x5#4
  | .reserved67 op0 _ _ => 0b011#3 ++ op0
  | .reserved8F op20 _ _ => 0b1#1 ++ op20

/-- Bits 67:64 of a command (30_encoding.md R61). -/
def Instr.sub : Instr → BitVec 4
  | .nop sub _ => sub
  | .reset sub _ => sub
  | .cfgw sub _ => sub
  | .start sub _ => sub
  | .edge sub _ => sub
  | .endSession sub _ => sub
  | .reserved67 _ sub _ => sub
  | .reserved8F _ sub _ => sub

/-- Bits 63:0 of a command (30_encoding.md R61). -/
def Instr.payload : Instr → BitVec 64
  | .nop _ payload => payload
  | .reset _ payload => payload
  | .cfgw _ payload => payload
  | .start _ payload => payload
  | .edge _ payload => payload
  | .endSession _ payload => payload
  | .reserved67 _ _ payload => payload
  | .reserved8F _ _ payload => payload

/-- The 72-bit word of a command: `op`, `sub` and `payload` from the top (30_encoding.md R61). -/
def encodeWord (i : Instr) : CmdWord := i.op ++ i.sub ++ i.payload

/-- The 9 bytes of a command (20_memory.md R51). -/
def encode (i : Instr) : List Byte := bytesLE 9 (encodeWord i)

/-- What the decoder reads from a word of the opcode table given as a number of `nbits` bits: its bytes,
in the order a host sends them, go through `decode`. -/
def decodeTableWord (nbits w : Nat) : Option Instr :=
  match decode (bytesLE 9 (BitVec.ofNat 72 (w % 2 ^ nbits))) with
  | .ok (i, _) => some i
  | .error _ => none

end Sys2Proof
end

