-- ==== Sys2Proof/Config.lean ====
section
/-! DEFINITION. What an implementation fixes: the parameters of 00_scope.md R4 to R9. "A model takes
these as arguments." A state carries one value of `Params`, and no step writes it. -/

namespace Sys2Proof

/-- A closed interval of real time in microseconds (00_scope.md R4). -/
structure Window where
  loUs : Nat
  hiUs : Nat
  deriving DecidableEq, Repr

/-- `P_OVERLAP` (00_scope.md R8). -/
inductive OverlapPolicy where
  | union
  | shortFirst
  | stdFirst
  deriving DecidableEq, Repr

/-- The parameters (00_scope.md R4 to R8). -/
structure Params where
  /-- `W_BIT1`: half-bit of logical 1, and the standard preamble pulse -/
  wBit1 : Window
  /-- `W_BIT0`: half-bit of logical 0 -/
  wBit0 : Window
  /-- `W_HEADER`: header gap -/
  wHeader : Window
  /-- `W_PRE_SHORT`: short-variant preamble pulse -/
  wPreShort : Window
  /-- `N_STD` -/
  nStd : Nat
  /-- `N_SHORT` -/
  nShort : Nat
  /-- `PAD_DEFAULT`, the reset value of `LAST_BIT_PAD` -/
  padDefault : Word32
  /-- `SAMPLE_W` -/
  sampleW : Nat
  /-- `P_OVERLAP` -/
  overlap : OverlapPolicy
  deriving DecidableEq, Repr

/-- The defaults of 00_scope.md R4 to R8. UNVERIFIED literals (91_not_in_source.md N3, log 13). -/
def Params.default : Params where
  wBit1 := ⟨280, 580⟩
  wBit0 := ⟨700, 1000⟩
  wHeader := ⟨3000, 6000⟩
  wPreShort := ⟨140, 290⟩
  nStd := 23
  nShort := 45
  padDefault := 8#32
  sampleW := 64
  overlap := .union

/-- A window whose scaled bounds fit the 64 bits of a LUT row at every rate (10_state.md R32). -/
abbrev Window.wf (w : Window) : Prop := w.loUs < 2 ^ 32 ∧ w.hiUs < 2 ^ 32

/-- The range in which the parameters make sense. `SAMPLE_W` is 8 to 64 (00_scope.md R7); the thresholds
differ (41_preamble_header.md R123) and fit the 6 bits of `te_count` with one to spare (00_scope.md R7);
the scaled windows fit a LUT row. DESIGN CHOICE for the bounds the spec does not state (log 3). -/
abbrev Params.wf (p : Params) : Prop :=
  8 ≤ p.sampleW ∧ p.sampleW ≤ 64 ∧
  1 ≤ p.nStd ∧ 1 ≤ p.nShort ∧ p.nStd ≠ p.nShort ∧ p.nStd ≤ 62 ∧ p.nShort ≤ 62 ∧
  p.wBit1.wf ∧ p.wBit0.wf ∧ p.wHeader.wf ∧ p.wPreShort.wf

/-- `N_BITS`: the length of a code word (00_scope.md R5). -/
def Config.nBits : Nat := 66

/-- `LATENCY`, in clock cycles: OPEN, and no rule reads it (00_scope.md R9, 70_reset_and_hazards.md
R260). It has no body, and nothing of the model depends on it (log 12). -/
opaque Config.latency : Nat

end Sys2Proof
end

