-- ==== Sys2Proof/Machine/State.lean ====
section
/-! DEFINITION. The state of the block as plain data: every register of 10_state.md, the ports' levels,
the records on their way out, and what the host will send. -/

namespace Sys2Proof.Machine

/-- Why a step stops with a fault. It has no constructor: the block's faults are sticky registers and
the machine goes on (60_exceptions.md R221, R222; log 17), so no step ever ends in one. -/
inductive Fault where
  deriving DecidableEq, Repr

/-- Why a step is refused. -/
inductive Refusal where
  /-- An arm of `exec` for an instruction that has no meaning yet; no arm raises it in this model.
  Safe: it stops where the block would go on. -/
  | notModelled (mnemonic : String)
  deriving DecidableEq, Repr

/-- `phase` (10_state.md R21). Codes 6 and 7 are no phase (93_implementation_defined.md I5; log 6). -/
inductive Phase where
  | idle
  | anchor
  | preamble
  | header
  | data
  | dataEnd
  deriving DecidableEq, Repr

/-- `variant` (10_state.md R23). -/
inductive Variant where
  | std
  | short
  deriving DecidableEq, Repr

/-- `fault_code` (60_exceptions.md R220). Codes 5 to 15 are never raised (I8; log 6). -/
inductive FaultCode where
  | noFault
  | noSampleRate
  | illegalCmd
  | order
  | cfgBusy
  deriving DecidableEq, Repr

/-- One row of the window LUT (10_state.md R32). -/
structure LutRow where
  lo : BitVec 64
  hi : BitVec 64
  deriving DecidableEq, Repr

/-- The window LUT (10_state.md R32). -/
structure Lut where
  preShort : LutRow
  bit1 : LutRow
  bit0 : LutRow
  header : LutRow
  deriving DecidableEq, Repr

/-- The code-word register `cw` with its populated flags (10_state.md R29). `btn` bit 0 is S3, bit 1 S0,
bit 2 S1, bit 3 S2. -/
structure CodeWord where
  enc : BitVec 32
  ser : BitVec 28
  btn : BitVec 4
  lowbat : Bool
  rpt : Bool
  popEnc : Bool
  popSer : Bool
  popS3 : Bool
  popS0 : Bool
  popS1 : Bool
  popS2 : Bool
  popLowbat : Bool
  popRpt : Bool
  deriving DecidableEq, Repr

/-- Annotation kinds (30_encoding.md R76). Kinds 15 to 31 are never emitted (I9; log 6). -/
inductive Kind where
  | teIndex
  | preamble
  | header
  | logicalBit
  | invalidBit
  | encBlock
  | encValue
  | serBlock
  | serValue
  | buttonBit
  | buttonCode
  | vlowBlock
  | vlowValue
  | rptBlock
  | rptValue
  deriving DecidableEq, Repr

/-- An annotation: kind, first and last sample of the span, value (30_encoding.md R75). Its category
follows from its kind (R76). -/
structure Annotation where
  kind : Kind
  first : Sample
  last : Sample
  value : Word32
  deriving DecidableEq, Repr

/-- An output record: an annotation for port `ann` (30_encoding.md R75) or a code word for port `cwo`
(R79). The two streams share one order (20_memory.md R53). -/
inductive OutRecord where
  | ann (a : Annotation)
  | cw (r : BitVec 72)
  deriving DecidableEq, Repr

/-- The levels the host drives: the reset pin (70_reset_and_hazards.md R250) and ready on `ann` and `cwo`
(R262). -/
structure Pins where
  rst : Bool
  annReady : Bool
  cwoReady : Bool
  deriving DecidableEq, Repr

/-- The whole state. -/
structure State where
  /-- the parameters of 00_scope.md R4 to R8 (log 2) -/
  cfg : Params
  /-- `phase` (10_state.md R21) -/
  phase : Phase
  /-- `te_count` (R22) -/
  teCount : BitVec 6
  /-- `variant` (R23) -/
  variant : Variant
  /-- `bit_count` (R24) -/
  bitCount : BitVec 7
  /-- `block_start` and `block_start_v` (R25); `none` is NONE -/
  blockStart : Option Sample
  /-- `prev` and `prev_v` (R26); `none` is NONE -/
  prev : Option Sample
  /-- `bit_start` (R27) -/
  bitStart : Sample
  /-- `pend_bit` (R27) -/
  pendBit : Bool
  /-- `acc` (R28) -/
  acc : Word32
  /-- `cw_*` and `pop_*` (R29) -/
  cw : CodeWord
  /-- `SAMPLE_RATE` (R30) -/
  sampleRate : Word32
  /-- `LAST_BIT_PAD` (R31) -/
  lastBitPad : Word32
  /-- `lut` (R32) -/
  lut : Lut
  /-- `fault_code` (R33) -/
  faultCode : FaultCode
  /-- `fault_info` (R33) -/
  faultInfo : BitVec 8
  /-- the host's levels, as the next step sees them (log 9) -/
  pins : Pins
  /-- the levels of the steps after it; when the list is empty the levels hold (log 9) -/
  pinsAhead : List Pins
  /-- the words the host will offer on `cmd`, the next one first (30_encoding.md R60; log 1) -/
  cmdIn : List CmdWord
  /-- the records produced and not yet delivered, oldest first (70_reset_and_hazards.md R262; log 8) -/
  pending : List OutRecord
  /-- the records delivered, oldest first (44_commands.md R201; log 8) -/
  delivered : List OutRecord
  deriving DecidableEq, Repr

/-- A row that matches no interval of 1 sample or more (10_state.md R32). -/
def LutRow.zero : LutRow := ⟨0#64, 0#64⟩

/-- The reset value of the LUT (10_state.md R36). -/
def Lut.zero : Lut := ⟨.zero, .zero, .zero, .zero⟩

/-- The empty code word (10_state.md R29, R36). -/
def CodeWord.empty : CodeWord :=
  ⟨0#32, 0#28, 0#4, false, false, false, false, false, false, false, false, false, false⟩

/-- Right after power-on reset (10_state.md R36, 70_reset_and_hazards.md R250), with the default parameters.
The host's levels and lists are the model's own choice (log 1, 8, 9, 11). -/
def State.reset : State where
  cfg := Params.default
  phase := .idle
  teCount := 0#6
  variant := .std
  bitCount := 0#7
  blockStart := none
  prev := none
  bitStart := 0#64
  pendBit := false
  acc := 0#32
  cw := .empty
  sampleRate := 0#32
  lastBitPad := 8#32
  lut := .zero
  faultCode := .noFault
  faultInfo := 0#8
  pins := ⟨false, true, true⟩
  pinsAhead := []
  cmdIn := []
  pending := []
  delivered := []

end Sys2Proof.Machine
end

