-- ==== Sys2Proof/Machine/Flags.lean ====
section
/-! DEFINITION. The block has no condition codes (10_state.md R35). Its flags are 1-bit registers and levels
that follow from other registers; the codes of the named registers stand here too. -/

namespace Sys2Proof.Machine

/-- The code of a phase (10_state.md R21). -/
def Phase.code : Phase → BitVec 3
  | .idle => 0#3
  | .anchor => 1#3
  | .preamble => 2#3
  | .header => 3#3
  | .data => 4#3
  | .dataEnd => 5#3

/-- The phase of a code; codes 6 and 7 are refused (93_implementation_defined.md I5). -/
def Phase.ofCode (c : BitVec 3) : Option Phase :=
  if c = 0#3 then some .idle
  else if c = 1#3 then some .anchor
  else if c = 2#3 then some .preamble
  else if c = 3#3 then some .header
  else if c = 4#3 then some .data
  else if c = 5#3 then some .dataEnd
  else none

/-- The code of a variant (10_state.md R23). -/
def Variant.code : Variant → BitVec 1
  | .std => 0#1
  | .short => 1#1

/-- The code of a fault (60_exceptions.md R220). -/
def FaultCode.code : FaultCode → BitVec 4
  | .noFault => 0#4
  | .noSampleRate => 1#4
  | .illegalCmd => 2#4
  | .order => 3#4
  | .cfgBusy => 4#4

/-- The fault of a code; codes 5 to 15 are refused (93_implementation_defined.md I8). -/
def FaultCode.ofCode (c : BitVec 4) : Option FaultCode :=
  if c = 0#4 then some .noFault
  else if c = 1#4 then some .noSampleRate
  else if c = 2#4 then some .illegalCmd
  else if c = 3#4 then some .order
  else if c = 4#4 then some .cfgBusy
  else none

/-- Halted exactly when `fault_code != 0` (10_state.md R34). -/
def State.halted (s : State) : Bool := s.faultCode != .noFault

/-- The document's header-completed flag (10_state.md R21, R35). -/
def State.headerCompleted (s : State) : Bool := s.phase == .data || s.phase == .dataEnd

/-- `block_start_v` (10_state.md R25). -/
def State.blockStartV (s : State) : Bool := s.blockStart.isSome

/-- `prev_v` (10_state.md R26). -/
def State.prevV (s : State) : Bool := s.prev.isSome

/-- The value bits of `block_start`: 0 when NONE (10_state.md R25). -/
def State.blockStartBits (s : State) : Sample := s.blockStart.getD 0#64

/-- The value bits of `prev`: 0 when NONE (10_state.md R36; log 5). -/
def State.prevBits (s : State) : Sample := s.prev.getD 0#64

/-- The eight populated flags all have the value `b` (10_state.md R29). -/
def CodeWord.popAll (c : CodeWord) (b : Bool) : Bool :=
  c.popEnc == b && c.popSer == b && c.popS3 == b && c.popS0 == b && c.popS1 == b &&
  c.popS2 == b && c.popLowbat == b && c.popRpt == b

/-- The populated flag of button `k` set: 0 is S3, 1 S0, 2 S1, 3 S2 (43_field_assembler.md R166). -/
def CodeWord.setPopBtn (c : CodeWord) (k : Nat) : CodeWord :=
  if k = 0 then { c with popS3 := true }
  else if k = 1 then { c with popS0 := true }
  else if k = 2 then { c with popS1 := true }
  else { c with popS2 := true }

end Sys2Proof.Machine
end

