-- ==== Sys2Proof/Machine/Operands.lean ====
section
/-! DEFINITION. Operand assembly (30_encoding.md R71) and which command words are legal (R69,
44_commands.md R192). -/

namespace Sys2Proof.Machine

/-- `pol = sub[0]`: 1 is a rising edge (30_encoding.md R67). -/
def polOf (sub : BitVec 4) : Bool := sub.getLsbD 0

/-- `payload[SAMPLE_W-1:0]`, zero-extended (30_encoding.md R67, R71). -/
def sampleOf (sampleW : Nat) (payload : BitVec 64) : Sample :=
  BitVec.ofNat 64 (payload.toNat % 2 ^ sampleW)

/-- `payload[31:0]` (30_encoding.md R65, R71). -/
def dataOf (payload : BitVec 64) : Word32 := payload.extractLsb' 0 32

/-- The two defined CSRs (30_encoding.md R70). -/
inductive Csr where
  | sampleRate
  | lastBitPad
  deriving DecidableEq, Repr

/-- The CSR at an address; 0x2 to 0xF are reserved (30_encoding.md R70). -/
def csrAt (addr : BitVec 4) : Option Csr :=
  if addr = 0x0#4 then some .sampleRate
  else if addr = 0x1#4 then some .lastBitPad
  else none

/-- The ways a command word can be illegal (30_encoding.md R69). -/
inductive IllegalForm where
  /-- `op` from 0x6 to 0xF -/
  | reservedOpcode
  /-- a NOP, START or END with a nonzero `sub` or `payload` -/
  | nonzeroField
  /-- a CFGW to a reserved CSR address -/
  | reservedCsr
  /-- a CFGW with payload bits above the CSR's width -/
  | dataTooWide
  /-- an EDGE with `sub[3:1] != 0` -/
  | edgeSub
  /-- an EDGE with payload bits at or above `SAMPLE_W` -/
  | sampleTooWide
  deriving DecidableEq, Repr

/-- `sub` and `payload` must be 0 (30_encoding.md R63, R66, R68). -/
def zeroFields (sub : BitVec 4) (payload : BitVec 64) : Option IllegalForm :=
  if sub = 0#4 ∧ payload = 0#64 then none else some .nonzeroField

/-- What is illegal about a command, if anything; RESET never is (30_encoding.md R64, R69). -/
def illegalForm (sampleW : Nat) : Instr → Option IllegalForm
  | .nop sub payload => zeroFields sub payload
  | .reset _ _ => none
  | .cfgw sub payload =>
    if csrAt sub = none then some .reservedCsr
    else if payload.extractLsb' 32 32 = 0#32 then none
    else some .dataTooWide
  | .start sub payload => zeroFields sub payload
  | .edge sub payload =>
    if sub.extractLsb' 1 3 = 0#3 then
      if payload >>> sampleW = 0#64 then none else some .sampleTooWide
    else some .edgeSub
  | .endSession sub payload => zeroFields sub payload
  | .reserved67 _ _ _ => some .reservedOpcode
  | .reserved8F _ _ _ => some .reservedOpcode

/-- `LEGAL(cmd)` (44_commands.md R192). -/
def legal (sampleW : Nat) (i : Instr) : Bool := (illegalForm sampleW i).isNone

/-- `{op, sub}` of a command, what `fault_info` records (10_state.md R33). -/
def opSub (i : Instr) : BitVec 8 := i.op ++ i.sub

end Sys2Proof.Machine
end

