-- ==== Sys2Proof/Machine/Ops.lean ====
section
/-! DEFINITION. The operations the meanings share: emitting a record, setting and clearing the registers
that several rules write, taking a fault and leaving one, and the prologue of every command. -/

namespace Sys2Proof.Machine

/-- `Emit(kind, start, end, value)` appends one annotation record (00_scope.md R11). -/
def State.emit (s : State) (kind : Kind) (first last : Sample) (value : Word32) : State :=
  { s with pending := s.pending ++ [.ann ⟨kind, first, last, value⟩] }

/-- `EmitCW(rec)` appends one code-word record (00_scope.md R11). -/
def State.emitCW (s : State) (r : BitVec 72) : State :=
  { s with pending := s.pending ++ [.cw r] }

/-- `block_start <- prev` when it is NONE; otherwise it stays (41_preamble_header.md R122,
42_bit_resolver.md R141). -/
def State.openBlock (s : State) : State :=
  if s.blockStartV then s else { s with blockStart := some s.prevBits }

/-- `block_start <- NONE` (10_state.md R25). -/
def State.closeBlock (s : State) : State := { s with blockStart := none }

/-- `acc <- 0`, `cw_* <- 0` and `pop_* <- 0`: the in-progress code word is discarded, or a fresh one
begins (10_state.md R29). -/
def State.clearWord (s : State) : State := { s with acc := 0#32, cw := .empty }

/-- `v` with bit `k` set to `b` (43_field_assembler.md R160). -/
def setBit {w : Nat} (v : BitVec w) (k : Nat) (b : Bool) : BitVec w :=
  if b then v ||| (1#w <<< k) else v &&& ~~~(1#w <<< k)

/-- One bit as a record's 32-bit value (30_encoding.md R77). -/
def bitValue (b : Bool) : Word32 := if b then 1#32 else 0#32

/-- The decoder registers of 10_state.md R21 to R29 at their reset values (R36). -/
def State.clearDecoder (s : State) : State :=
  { s with
    phase := .idle
    teCount := 0#6
    variant := .std
    bitCount := 0#7
    blockStart := none
    prev := none
    bitStart := 0#64
    pendBit := false
    acc := 0#32
    cw := .empty }

/-- Fault entry, `raise Fault(code, info)`: the first fault is recorded and nothing else changes
(60_exceptions.md R221). -/
def State.raise (s : State) (code : FaultCode) (info : BitVec 8) : State :=
  if s.faultCode = .noFault then { s with faultCode := code, faultInfo := info } else s

/-- The soft reset, the way out of a fault (44_commands.md R191, 60_exceptions.md R224): every register but
`SAMPLE_RATE` and `LAST_BIT_PAD` takes its reset value. -/
def State.softReset (s : State) : State :=
  { s.clearDecoder with lut := .zero, faultCode := .noFault, faultInfo := 0#8 }

/-- The reset pin: every register takes its reset value and the records not yet delivered are dropped
(70_reset_and_hazards.md R250, R251). -/
def State.hardReset (s : State) : State :=
  { s.softReset with sampleRate := 0#32, lastBitPad := s.cfg.padDefault, pending := [] }

/-- `PROLOGUE(cmd)` for every command but RESET, then the command's own effect (44_commands.md R192): a
halted block does nothing, and an illegal command raises ILLEGAL_CMD. -/
def prologue (i : Instr) (body : State → State) (s : State) : State :=
  if s.halted then s
  else if legal s.cfg.sampleW i then body s
  else s.raise .illegalCmd (opSub i)

end Sys2Proof.Machine
end

