-- ==== Sys2Proof/Machine/Assembler.lean ====
section
/-! DEFINITION. Sub-block 4: the bit-field assembler (43_field_assembler.md). `b` is the bit, `sb` the sample
that starts its symbol and `e` its end boundary. -/

namespace Sys2Proof.Machine

/-- `ENC_CLOSE(e)` (43_field_assembler.md R163). -/
def encClose (e : Sample) (s : State) : State :=
  let s1 := { s with cw := { s.cw with enc := s.acc, popEnc := true } }
  let s2 := s1.emit .encBlock s1.blockStartBits e 0#32
  let s3 := s2.emit .encValue s2.blockStartBits e s2.cw.enc
  { s3.closeBlock with acc := 0#32 }

/-- `ENC_BIT(p, b, e)`: bits 0 to 31 (43_field_assembler.md R162). -/
def encBit (p : Nat) (b : Bool) (e : Sample) (s : State) : State :=
  let s1 := { s with acc := setBit s.acc p b }
  if p = 31 then encClose e s1 else s1

/-- `SER_CLOSE(e)` (43_field_assembler.md R165). -/
def serClose (e : Sample) (s : State) : State :=
  let s1 := { s with cw := { s.cw with ser := s.acc.extractLsb' 0 28, popSer := true } }
  let s2 := s1.emit .serBlock s1.blockStartBits e 0#32
  let s3 := s2.emit .serValue s2.blockStartBits e (s2.cw.ser.setWidth 32)
  { s3.closeBlock with acc := 0#32 }

/-- `SER_BIT(p, b, e)`: bits 32 to 59 (43_field_assembler.md R164). -/
def serBit (p : Nat) (b : Bool) (e : Sample) (s : State) : State :=
  let s1 := { s with acc := setBit s.acc (p - 32) b }
  if p = 59 then serClose e s1 else s1

/-- `BTN_CLOSE(e)` (43_field_assembler.md R167). -/
def btnClose (e : Sample) (s : State) : State :=
  (s.emit .buttonCode s.blockStartBits e (s.cw.btn.setWidth 32)).closeBlock

/-- The value of BUTTON_BIT: `{k[1:0], b}` in bits 2:0 (30_encoding.md R77). -/
def buttonValue (k : Nat) (b : Bool) : Word32 :=
  (BitVec.ofNat 2 k ++ BitVec.ofBool b).setWidth 32

/-- `BTN_BIT(p, b, sb, e)`: bits 60 to 63, with `k = p - 60` (43_field_assembler.md R166). -/
def btnBit (p : Nat) (b : Bool) (sb e : Sample) (s : State) : State :=
  let k := p - 60
  let s1 := { s with cw := { s.cw with btn := setBit s.cw.btn k b }.setPopBtn k }
  let s2 := s1.emit .buttonBit sb e (buttonValue k b)
  if p = 63 then btnClose e s2 else s2

/-- `VLOW_BIT(b, sb, e)`: bit 64 (43_field_assembler.md R168). -/
def vlowBit (b : Bool) (sb e : Sample) (s : State) : State :=
  let s1 := { s with cw := { s.cw with lowbat := b, popLowbat := true } }
  let s2 := s1.emit .vlowBlock s1.blockStartBits e 0#32
  (s2.emit .vlowValue sb e (bitValue b)).closeBlock

/-- The code-word record: bit `p` is the bit received at position `p`, bits 71 to 66 are 0
(30_encoding.md R79). -/
def CodeWord.record (c : CodeWord) : BitVec 72 :=
  0#6 ++ BitVec.ofBool c.rpt ++ BitVec.ofBool c.lowbat ++ c.btn ++ c.ser ++ c.enc

/-- `RPT_BIT(b, sb, e)`: bit 65, which completes the code word (43_field_assembler.md R170). -/
def rptBit (b : Bool) (sb e : Sample) (s : State) : State :=
  let s1 := { s with cw := { s.cw with rpt := b, popRpt := true } }
  let s2 := s1.emit .rptBlock s1.blockStartBits e 0#32
  let s3 := (s2.emit .rptValue sb e (bitValue b)).closeBlock
  let s4 := s3.emitCW s3.cw.record
  { s4 with bitCount := 0#7, teCount := 0#6, phase := .preamble }

/-- `ASSEMBLE(p, b, sb, e)`, the router (43_field_assembler.md R160, R161). -/
def assemble (p : Nat) (b : Bool) (sb e : Sample) (s : State) : State :=
  let s1 :=
    if p ≤ 31 then encBit p b e s
    else if p ≤ 59 then serBit p b e s
    else if p ≤ 63 then btnBit p b sb e s
    else if p = 64 then vlowBit b sb e s
    else rptBit b sb e s
  if p < 65 then { s1 with bitCount := BitVec.ofNat 7 (p + 1) } else s1

end Sys2Proof.Machine
end

