-- ==== Sys2Proof/Machine/Timing.lean ====
section
/-! DEFINITION. Sub-blocks 1 and 5: the timing classifier and the interval converter
(40_timing_classifier.md). -/

namespace Sys2Proof.Machine

/-- `ceil_div(a, b)`: the least `q` with `q*b >= a`, for `b > 0` (00_scope.md R11). -/
def ceilDiv (a b : Nat) : Nat := (a + (b - 1)) / b

/-- `floor_div(a, b)`: the greatest `q` with `q*b <= a`, for `b > 0` (00_scope.md R11). -/
def floorDiv (a b : Nat) : Nat := a / b

/-- One window scaled to whole samples (40_timing_classifier.md R101). -/
def scaleWindow (w : Window) (rate : Nat) : LutRow where
  lo := BitVec.ofNat 64 (ceilDiv (w.loUs * rate) 1000000)
  hi := BitVec.ofNat 64 (floorDiv (w.hiUs * rate) 1000000)

/-- `BUILD_LUT(rate)` (40_timing_classifier.md R101). -/
def buildLut (p : Params) (rate : Word32) : Lut where
  preShort := scaleWindow p.wPreShort rate.toNat
  bit1 := scaleWindow p.wBit1 rate.toNat
  bit0 := scaleWindow p.wBit0 rate.toNat
  header := scaleWindow p.wHeader rate.toNat

/-- `INTERVAL(s)`: a `SAMPLE_W`-bit unsigned difference; EDGE has checked `s > prev`, so it does not wrap
(40_timing_classifier.md R102). -/
def interval (prev smp : Sample) : Sample := smp - prev

/-- The match vector `m`, one flag per window (30_encoding.md R80). -/
structure MatchVec where
  preShort : Bool
  preStd : Bool
  header : Bool
  bit1 : Bool
  bit0 : Bool
  deriving DecidableEq, Repr

/-- `m` as the 5-bit signal: `m[0]` PRE_SHORT, `m[1]` PRE_STD, `m[2]` HEADER, `m[3]` BIT1, `m[4]` BIT0
(30_encoding.md R80). -/
def MatchVec.bits (m : MatchVec) : BitVec 5 :=
  BitVec.ofBool m.bit0 ++ BitVec.ofBool m.bit1 ++ BitVec.ofBool m.header ++
    BitVec.ofBool m.preStd ++ BitVec.ofBool m.preShort

/-- A row matches an interval in its closed range (40_timing_classifier.md R103). -/
def LutRow.covers (r : LutRow) (delta : Sample) : Bool :=
  decide (r.lo.toNat ≤ delta.toNat ∧ delta.toNat ≤ r.hi.toNat)

/-- `CLASSIFY(delta)` (40_timing_classifier.md R103). -/
def classify (l : Lut) (delta : Sample) : MatchVec where
  preShort := l.preShort.covers delta
  preStd := l.bit1.covers delta
  header := l.header.covers delta
  bit1 := l.bit1.covers delta
  bit0 := l.bit0.covers delta

/-- The document's categories (40_timing_classifier.md R107). -/
inductive Category where
  | preambleStd
  | preambleShort
  | headerGap
  | bit1Half
  | bit0Half
  | invalid
  deriving DecidableEq, Repr

/-- The classifier's category of a match vector alone: the categories of the windows it matches, and Invalid
exactly when `m = 0` (30_encoding.md R80). It is a list because windows overlap (90_conflicts.md C3). -/
def MatchVec.categories (m : MatchVec) : List Category :=
  if m.bits = 0#5 then [.invalid]
  else
    [(m.preShort, Category.preambleShort), (m.preStd, .preambleStd), (m.header, .headerGap),
      (m.bit1, .bit1Half), (m.bit0, .bit0Half)].filterMap fun (b, c) => if b then some c else none

/-- `CATEGORY(m)` with the phase in mind; in PREAMBLE both preamble classes may hold. The block never
stores it (40_timing_classifier.md R107). It is Invalid also in a phase that reads none of the set bits, where
`MatchVec.categories`, which knows no phase, is not: DEDUCED, safe (log 20). -/
def category (ph : Phase) (m : MatchVec) : List Category :=
  match ph with
  | .header => if m.header then [.headerGap] else [.invalid]
  | .data => if m.bit1 then [.bit1Half] else if m.bit0 then [.bit0Half] else [.invalid]
  | .preamble =>
    if m.preShort && m.preStd then [.preambleShort, .preambleStd]
    else if m.preShort then [.preambleShort]
    else if m.preStd then [.preambleStd]
    else [.invalid]
  | .idle => [.invalid]
  | .anchor => [.invalid]
  | .dataEnd => [.invalid]

end Sys2Proof.Machine
end

