-- ==== Sys2Proof/Machine/BitResolver.lean ====
section
/-! DEFINITION. Sub-block 3: the bit-slice PWM resolver (42_bit_resolver.md). -/

namespace Sys2Proof.Machine

/-- `BIT_COMPLETE(b, sb, e)`: the LOGICAL_BIT record, then the assembler (42_bit_resolver.md R147). -/
def bitComplete (b : Bool) (sb e : Sample) (s : State) : State :=
  assemble s.bitCount.toNat b sb e (s.emit .logicalBit sb e (bitValue b))

/-- `PEND_BIT(b)`: the bit waits for its end boundary (42_bit_resolver.md R143). -/
def pendBitStep (b : Bool) (s : State) : State :=
  { s with bitStart := s.prevBits, pendBit := b, phase := .dataEnd }

/-- `INVALID_BIT(s)` (42_bit_resolver.md R144). -/
def invalidBit (smp : Sample) (s : State) : State :=
  { (s.emit .invalidBit s.prevBits smp 0#32).clearWord.closeBlock with
    bitCount := 0#7, teCount := 0#6, phase := .preamble }

/-- The end boundary of bit 65: the edge plus the pad, modulo `2^SAMPLE_W` (42_bit_resolver.md R145). -/
def padEnd (sampleW : Nat) (smp : Sample) (pad : Word32) : Sample :=
  BitVec.ofNat 64 ((smp.toNat + pad.toNat) % 2 ^ sampleW)

/-- `LAST_BIT(b, s)` (42_bit_resolver.md R145). -/
def lastBit (b : Bool) (smp : Sample) (s : State) : State :=
  bitComplete b s.prevBits (padEnd s.cfg.sampleW smp s.lastBitPad) s

/-- The bit a half-bit interval resolves to, or none when it is invalid (42_bit_resolver.md R141, R142). -/
def resolveBit (m : MatchVec) : Option Bool :=
  if m.bit1 then some true else if m.bit0 then some false else none

/-- `BIT_MEASURE(m, s)`, the step of the DATA phase (42_bit_resolver.md R141). -/
def bitMeasure (m : MatchVec) (smp : Sample) (s : State) : State :=
  match resolveBit m with
  | none => invalidBit smp s
  | some b =>
    let s1 := s.openBlock
    if s.bitCount = 65#7 then lastBit b smp s1 else pendBitStep b s1

/-- `BIT_END(s)`, the step of the DATA_END phase: the interval is not classified (42_bit_resolver.md R146,
R148). -/
def bitEnd (smp : Sample) (s : State) : State :=
  bitComplete s.pendBit s.bitStart smp { s with phase := .data }

end Sys2Proof.Machine
end

