-- ==== Sys2Proof/Machine/Preamble.lean ====
section
/-! DEFINITION. Sub-block 2: the preamble/header state machine (41_preamble_header.md). `smp` is the sample
of the current EDGE; `prev` is the value it held when the command started. -/

namespace Sys2Proof.Machine

/-- `OVERLAP(m)`: the effective short and standard matches `(ms, md)` (41_preamble_header.md R121). -/
def overlap (p : OverlapPolicy) (m : MatchVec) : Bool × Bool :=
  match p with
  | .union => (m.preShort, m.preStd)
  | .shortFirst => (m.preShort, m.preStd && !m.preShort)
  | .stdFirst => (m.preShort && !m.preStd, m.preStd)

/-- `RESTART()`: no record, no fault (41_preamble_header.md R125). -/
def restart (s : State) : State :=
  { s.closeBlock with teCount := 0#6, phase := .preamble }

/-- `PULSE`, part 1: open the block on the first pulse, emit TE_INDEX with the count before the pulse, and
count it (41_preamble_header.md R122). -/
def pulseCount (smp : Sample) (s : State) : State :=
  let n0 := s.teCount.toNat
  let s1 := s.openBlock.emit .teIndex s.prevBits smp (BitVec.ofNat 32 n0)
  { s1 with teCount := BitVec.ofNat 6 (n0 + 1) }

/-- The end of a preamble of variant `v` at count `n`: the PREAMBLE record, `te_count` at `n + 1`, and the
phase to HEADER (41_preamble_header.md R123; 90_conflicts.md C2). -/
def pulseComplete (v : Variant) (n : Nat) (smp : Sample) (s : State) : State :=
  let s1 := { s with variant := v }
  let s2 := s1.emit .preamble s1.blockStartBits smp (v.code.setWidth 32)
  { s2 with teCount := BitVec.ofNat 6 (n + 1), phase := .header }

/-- `PULSE(ms, md, s)` (41_preamble_header.md R122, R123). -/
def pulse (ms md : Bool) (smp : Sample) (s : State) : State :=
  let n := s.teCount.toNat + 1
  let s1 := pulseCount smp s
  if ms ∧ n = s.cfg.nShort then pulseComplete .short n smp s1
  else if md ∧ n = s.cfg.nStd then pulseComplete .std n smp s1
  else s1

/-- `q`: the pulse qualifies (41_preamble_header.md R120). -/
def qualifies (p : Params) (te : Nat) (ms md : Bool) : Bool :=
  (ms && decide (te < p.nShort)) || (md && decide (te < p.nStd))

/-- `PRE_STEP(m, s)` (41_preamble_header.md R120). -/
def preStep (m : MatchVec) (smp : Sample) (s : State) : State :=
  let (ms, md) := overlap s.cfg.overlap m
  if qualifies s.cfg s.teCount.toNat ms md then pulse ms md smp s else restart s

/-- The threshold of a variant (41_preamble_header.md R124). -/
def threshold (p : Params) (v : Variant) : Nat :=
  match v with
  | .std => p.nStd
  | .short => p.nShort

/-- `HDR_STEP(m, s)`, the gap detector (41_preamble_header.md R124). -/
def hdrStep (m : MatchVec) (smp : Sample) (s : State) : State :=
  if m.header ∧ s.teCount.toNat = threshold s.cfg s.variant + 1 then
    { (s.emit .header s.prevBits smp 0#32).closeBlock.clearWord with
      teCount := 0#6, phase := .data, bitCount := 0#7 }
  else restart s

end Sys2Proof.Machine
end

