-- ==== Sys2Proof/Machine/Commands.lean ====
section
/-! DEFINITION. The meanings of the commands (44_commands.md). Every command completes: a fault is an entry
into the halted state, which is a next state (60_exceptions.md R221, R222). -/

namespace Sys2Proof.Machine

/-- `NOP` (44_commands.md R190). -/
def execNop (sub : BitVec 4) (payload : BitVec 64) (s : State) : Host.Outcome State Fault Refusal :=
  .next (prologue (.nop sub payload) id s)

/-- `RESET`, never refused; its operands are ignored (44_commands.md R191, R192). -/
def execReset (_sub : BitVec 4) (_payload : BitVec 64) (s : State) :
    Host.Outcome State Fault Refusal :=
  .next s.softReset

/-- The effect of CFGW after the prologue (44_commands.md R193). -/
def cfgWrite (sub : BitVec 4) (payload : BitVec 64) (s : State) : State :=
  if s.phase = .idle then
    match csrAt sub with
    | some .sampleRate => { s with sampleRate := dataOf payload }
    | some .lastBitPad => { s with lastBitPad := dataOf payload }
    | none => s
  else s.raise .cfgBusy (opSub (.cfgw sub payload))

/-- `CFGW a, v` (44_commands.md R193). -/
def execCfgw (sub : BitVec 4) (payload : BitVec 64) (s : State) :
    Host.Outcome State Fault Refusal :=
  .next (prologue (.cfgw sub payload) (cfgWrite sub payload) s)

/-- The effect of START after the prologue (44_commands.md R195). -/
def startSession (sub : BitVec 4) (payload : BitVec 64) (s : State) : State :=
  if s.sampleRate = 0#32 then s.raise .noSampleRate (opSub (.start sub payload))
  else { s.clearDecoder with lut := buildLut s.cfg s.sampleRate, phase := .anchor }

/-- `START` (44_commands.md R195). -/
def execStart (sub : BitVec 4) (payload : BitVec 64) (s : State) :
    Host.Outcome State Fault Refusal :=
  .next (prologue (.start sub payload) (startSession sub payload) s)

/-- `ANCHOR_EDGE(pol, s)` (44_commands.md R197). -/
def anchorEdge (pol : Bool) (smp : Sample) (s : State) : State :=
  if pol then { s with prev := some smp, phase := .preamble } else s

/-- The step of the phase the command started in; IDLE and ANCHOR have none (44_commands.md R198). -/
def phaseStep (m : MatchVec) (smp : Sample) (s : State) : State :=
  match s.phase with
  | .preamble => preStep m smp s
  | .header => hdrStep m smp s
  | .data => bitMeasure m smp s
  | .dataEnd => bitEnd smp s
  | .idle => s
  | .anchor => s

/-- `TIMED_EDGE(s)`; `info` is the command's `{op, sub}` (44_commands.md R198). -/
def timedEdge (info : BitVec 8) (smp : Sample) (s : State) : State :=
  if smp.toNat ≤ s.prevBits.toNat then s.raise .order info
  else
    let m := classify s.lut (interval s.prevBits smp)
    { phaseStep m smp s with prev := some smp }

/-- The effect of EDGE after the prologue (44_commands.md R196). -/
def edgeEffect (sub : BitVec 4) (payload : BitVec 64) (s : State) : State :=
  let smp := sampleOf s.cfg.sampleW payload
  match s.phase with
  | .idle => s
  | .anchor => anchorEdge (polOf sub) smp s
  | .preamble => timedEdge (opSub (.edge sub payload)) smp s
  | .header => timedEdge (opSub (.edge sub payload)) smp s
  | .data => timedEdge (opSub (.edge sub payload)) smp s
  | .dataEnd => timedEdge (opSub (.edge sub payload)) smp s

/-- `EDGE pol, s` (44_commands.md R196). -/
def execEdge (sub : BitVec 4) (payload : BitVec 64) (s : State) :
    Host.Outcome State Fault Refusal :=
  .next (prologue (.edge sub payload) (edgeEffect sub payload) s)

/-- `END` (44_commands.md R199). -/
def execEnd (sub : BitVec 4) (payload : BitVec 64) (s : State) :
    Host.Outcome State Fault Refusal :=
  .next (prologue (.endSession sub payload) (fun s => { s with phase := .idle }) s)

/-- The reserved opcodes 0x6 and 0x7: the prologue raises ILLEGAL_CMD (30_encoding.md R69). -/
def execReserved67 (op0 : BitVec 1) (sub : BitVec 4) (payload : BitVec 64) (s : State) :
    Host.Outcome State Fault Refusal :=
  .next (prologue (.reserved67 op0 sub payload) id s)

/-- The reserved opcodes 0x8 to 0xF: the prologue raises ILLEGAL_CMD (30_encoding.md R69). -/
def execReserved8F (op20 : BitVec 3) (sub : BitVec 4) (payload : BitVec 64) (s : State) :
    Host.Outcome State Fault Refusal :=
  .next (prologue (.reserved8F op20 sub payload) id s)

end Sys2Proof.Machine
end

