-- ==== Sys2Proof/Machine/Dispatch.lean ====
section
/-! DEFINITION. One arm per command. -/

namespace Sys2Proof.Machine

def exec (i : Instr) (s : State) : Host.Outcome State Fault Refusal :=
  match i with
  | .nop sub payload => Sys2Proof.Machine.execNop sub payload s
  | .reset sub payload => Sys2Proof.Machine.execReset sub payload s
  | .cfgw sub payload => Sys2Proof.Machine.execCfgw sub payload s
  | .start sub payload => Sys2Proof.Machine.execStart sub payload s
  | .edge sub payload => Sys2Proof.Machine.execEdge sub payload s
  | .endSession sub payload => Sys2Proof.Machine.execEnd sub payload s
  | .reserved67 op0 sub payload => Sys2Proof.Machine.execReserved67 op0 sub payload s
  | .reserved8F op20 sub payload => Sys2Proof.Machine.execReserved8F op20 sub payload s

end Sys2Proof.Machine
end

