-- ==== Sys2Proof/Machine/Ports.lean ====
section
/-! DEFINITION. The output ports: the packed records (30_encoding.md R75 to R79), the status port (R81), the
fault level (R82), the handshakes (70_reset_and_hazards.md R262), and the block's reaction to the host's
levels. -/

namespace Sys2Proof.Machine

/-- The code of a kind (30_encoding.md R76). -/
def Kind.code : Kind → BitVec 5
  | .teIndex => 0#5
  | .preamble => 1#5
  | .header => 2#5
  | .logicalBit => 3#5
  | .invalidBit => 4#5
  | .encBlock => 5#5
  | .encValue => 6#5
  | .serBlock => 7#5
  | .serValue => 8#5
  | .buttonBit => 9#5
  | .buttonCode => 10#5
  | .vlowBlock => 11#5
  | .vlowValue => 12#5
  | .rptBlock => 13#5
  | .rptValue => 14#5

/-- The kind of a code; kinds 15 to 31 are refused (93_implementation_defined.md I9). -/
def Kind.ofCode (c : BitVec 5) : Option Kind :=
  [Kind.teIndex, .preamble, .header, .logicalBit, .invalidBit, .encBlock, .encValue, .serBlock,
    .serValue, .buttonBit, .buttonCode, .vlowBlock, .vlowValue, .rptBlock, .rptValue][c.toNat]?

/-- The category of a kind: TE 0, LogicalBit 1, CodeWord 2, EncryptedData 3, FixedData 4
(30_encoding.md R76). -/
def Kind.cat : Kind → BitVec 3
  | .teIndex => 0#3
  | .preamble => 0#3
  | .header => 0#3
  | .logicalBit => 1#3
  | .invalidBit => 1#3
  | .encBlock => 2#3
  | .encValue => 3#3
  | .serBlock => 2#3
  | .serValue => 4#3
  | .buttonBit => 4#3
  | .buttonCode => 2#3
  | .vlowBlock => 2#3
  | .vlowValue => 4#3
  | .rptBlock => 2#3
  | .rptValue => 4#3

/-- The 168-bit record of an annotation: `cat`, `kind`, `value`, `end`, `start` from the top
(30_encoding.md R75). -/
def Annotation.record (a : Annotation) : BitVec 168 :=
  a.kind.cat ++ a.kind.code ++ a.value ++ a.last ++ a.first

/-- The annotation of a record; a reserved kind or a category that is not the kind's is refused
(30_encoding.md R75, R76; 93_implementation_defined.md I9). -/
def Annotation.ofRecord (r : BitVec 168) : Option Annotation :=
  match Kind.ofCode (r.extractLsb' 160 5) with
  | none => none
  | some k =>
    if r.extractLsb' 165 3 = k.cat then
      some ⟨k, r.extractLsb' 0 64, r.extractLsb' 64 64, r.extractLsb' 128 32⟩
    else none

/-- A record as the bytes a host stores: 21 for an annotation, 9 for a code word (20_memory.md R51). -/
def OutRecord.bytes : OutRecord → List Byte
  | .ann a => bytesLE 21 a.record
  | .cw r => bytesLE 9 r

/-- `st_rate` (30_encoding.md R81). -/
def State.stRate (s : State) : Word32 := s.sampleRate

/-- `st_pad` (30_encoding.md R81). -/
def State.stPad (s : State) : Word32 := s.lastBitPad

/-- `st_fault_info` (30_encoding.md R81). -/
def State.stFaultInfo (s : State) : BitVec 8 := s.faultInfo

/-- `st_word`, from bit 31 down to bit 0 (30_encoding.md R81). The port shows the registers as they are: a
command counts as completed once it has written them, even while its records wait for delivery.
DESIGN CHOICE, unsafe (log 19). -/
def State.stWord (s : State) : BitVec 32 :=
  BitVec.ofBool s.cw.popRpt ++ BitVec.ofBool s.cw.popLowbat ++ BitVec.ofBool s.cw.popS2 ++
    BitVec.ofBool s.cw.popS1 ++ BitVec.ofBool s.cw.popS0 ++ BitVec.ofBool s.cw.popS3 ++
    BitVec.ofBool s.cw.popSer ++ BitVec.ofBool s.cw.popEnc ++ BitVec.ofBool s.pendBit ++
    BitVec.ofBool s.prevV ++ BitVec.ofBool s.blockStartV ++ s.faultCode.code ++ s.bitCount ++
    s.teCount ++ s.variant.code ++ s.phase.code

/-- The `fault` level (30_encoding.md R82). -/
def State.faultLevel (s : State) : Bool := s.faultCode.code != 0#4

/-- The host holds neither ready level low. While it holds one low, "the block holds its outputs and deasserts
ready on `cmd`" (70_reset_and_hazards.md R262). -/
def Pins.draining (p : Pins) : Bool := p.annReady && p.cwoReady

/-- Ready on `cmd`: `rst` is inactive, every record of the last command is delivered, and the host holds
neither ready level low (70_reset_and_hazards.md R250, R262). -/
def State.cmdReady (s : State) : Bool := !s.pins.rst && s.pending.isEmpty && s.pins.draining

/-- Valid on `ann`, with the record it carries: the oldest record not delivered, when it is an annotation
(30_encoding.md R75, 20_memory.md R53). Valid is inactive under `rst` and while `cwo` is not ready, so that a
record is delivered exactly when its port has both valid and ready. DESIGN CHOICE, unsafe (log 21). -/
def State.annPort (s : State) : Option (BitVec 168) :=
  if s.pins.rst || !s.pins.cwoReady then none
  else
    match s.pending with
    | .ann a :: _ => some a.record
    | .cw _ :: _ => none
    | [] => none

/-- Valid on `cwo`, with the record it carries (30_encoding.md R79, 20_memory.md R53), inactive under `rst` and
while `ann` is not ready. DESIGN CHOICE, unsafe (log 21). -/
def State.cwoPort (s : State) : Option (BitVec 72) :=
  if s.pins.rst || !s.pins.annReady then none
  else
    match s.pending with
    | .ann _ :: _ => none
    | .cw r :: _ => some r
    | [] => none

/-- The host's levels move on by one step; they hold when the host has planned no change (log 9). -/
def State.tick (s : State) : State :=
  match s.pinsAhead with
  | [] => s
  | p :: ps => { s with pins := p, pinsAhead := ps }

/-- The oldest record `o` goes to the host, and `os` are left (70_reset_and_hazards.md R262). -/
def State.deliver (s : State) (o : OutRecord) (os : List OutRecord) : State :=
  { s with pending := os, delivered := s.delivered ++ [o] }

/-- The block accepts a command word, and `ws` are left for the host to offer (30_encoding.md R60). -/
def State.accept (s : State) (ws : List CmdWord) : State := { s with cmdIn := ws }

/-- `cmd` offers `w` first, and the block is ready to take it: `rst` is inactive, both ready levels are
active and nothing waits for delivery (log 1). -/
def State.offer (s : State) (w : CmdWord) : State :=
  { s with pins := ⟨false, true, true⟩, pending := [], cmdIn := w :: s.cmdIn }

end Sys2Proof.Machine
end

