-- ==== Sys2Proof/Machine/Step.lean ====
section
/-! DEFINITION. One step of the block. With `rst` active the registers take their reset values and no command
is accepted (70_reset_and_hazards.md R250). Otherwise, while a record is not delivered the block takes no
command: it delivers the oldest one when both ports are ready and holds it when not (R262). Otherwise, when it is
ready on `cmd` (R262), it takes the next command and runs it whole (00_scope.md R12). Without a command it
keeps its state (44_commands.md R200). -/

namespace Sys2Proof.Machine

def step (s : State) : Host.Outcome State Fault Refusal :=
  if s.pins.rst then .next s.hardReset.tick
  else
    match s.pending with
    | o :: os => if s.pins.draining then .next (s.deliver o os).tick else .next s.tick
    | [] =>
      match s.cmdIn with
      | [] => .next s.tick
      | w :: ws => if s.cmdReady then exec (decodeWord w) (s.accept ws).tick else .next s.tick

/-- The command of the opcode table's numbering is the next one `cmd` offers, to a block that is ready for it. -/
def State.withFetchWord (s : State) (nbits w : Nat) : State :=
  s.offer (BitVec.ofNat 72 (w % 2 ^ nbits))

end Sys2Proof.Machine
end

