-- ==== Sys2Proof/Machine/Asm.lean ====
section
/-! DEFINITION. The assembler of the test programs: its syntax (30_encoding.md R73) and the two
pseudo-instructions, which the host expands before it issues the words (R74). What the syntax leaves
open (spaces, numbers too wide for their field) is in log 16. -/

namespace Sys2Proof.Machine

/-- One line of a listing (30_encoding.md R73, R74). -/
inductive AsmLine where
  | nop
  | reset
  | cfgw (csr value : Nat)
  | start
  | edge (pol : Bool) (sample : Nat)
  | endSession
  | dedge (pol : Bool) (d : Nat)
  | tog (d : Nat)
  deriving DecidableEq, Repr

/-- What the expansion remembers of the EDGE just before: its polarity, if there was one, and its sample,
0 if there was none (30_encoding.md R74). -/
structure AsmLast where
  pol : Option Bool
  sample : Nat
  deriving DecidableEq, Repr

/-- At the head of a listing (30_encoding.md R74). -/
def AsmLast.start : AsmLast := ⟨none, 0⟩

/-- The word of an EDGE line, when the sample fits the payload (30_encoding.md R67, R73). -/
def asmEdge (pol : Bool) (sample : Nat) : Option (Instr × AsmLast) :=
  if sample < 2 ^ 64 then
    some (.edge (if pol then 1#4 else 0#4) (BitVec.ofNat 64 sample), ⟨some pol, sample⟩)
  else none

/-- The command of one line, and the memory for the next (30_encoding.md R73, R74). -/
def AsmLine.expand (last : AsmLast) : AsmLine → Option (Instr × AsmLast)
  | .nop => some (.nop 0#4 0#64, last)
  | .reset => some (.reset 0#4 0#64, last)
  | .cfgw csr value =>
    if csr < 16 ∧ value < 2 ^ 64 then
      some (.cfgw (BitVec.ofNat 4 csr) (BitVec.ofNat 64 value), last)
    else none
  | .start => some (.start 0#4 0#64, last)
  | .edge pol sample => asmEdge pol sample
  | .endSession => some (.endSession 0#4 0#64, last)
  | .dedge pol d => asmEdge pol (last.sample + d)
  | .tog d =>
    match last.pol with
    | none => asmEdge true (last.sample + d)
    | some p => asmEdge (!p) (last.sample + d)

/-- The commands of a listing (30_encoding.md R73, R74). -/
def expandAll (last : AsmLast) : List AsmLine → Option (List Instr)
  | [] => some []
  | l :: ls =>
    match l.expand last with
    | none => none
    | some (i, last') =>
      match expandAll last' ls with
      | none => none
      | some is => some (i :: is)

/-- A decimal digit. -/
def decDigit (c : Char) : Option Nat :=
  if 48 ≤ c.toNat ∧ c.toNat ≤ 57 then some (c.toNat - 48) else none

/-- A hexadecimal digit, of either case. -/
def hexDigit (c : Char) : Option Nat :=
  match decDigit c with
  | some d => some d
  | none =>
    if 65 ≤ c.toNat ∧ c.toNat ≤ 70 then some (c.toNat - 55)
    else if 97 ≤ c.toNat ∧ c.toNat ≤ 102 then some (c.toNat - 87)
    else none

/-- The number that digits spell, most significant first, on top of `acc`. -/
def parseDigits (digit : Char → Option Nat) (base acc : Nat) : List Char → Option Nat
  | [] => some acc
  | c :: cs =>
    match digit c with
    | none => none
    | some d => parseDigits digit base (base * acc + d) cs

/-- A number: decimal, or hexadecimal with a `0x` prefix (30_encoding.md R73). -/
def parseNumber : List Char → Option Nat
  | [] => none
  | '0' :: 'x' :: c :: cs => parseDigits hexDigit 16 0 (c :: cs)
  | c :: cs => parseDigits decDigit 10 0 (c :: cs)

/-- `R` or `F` (30_encoding.md R73). -/
def parsePol (cs : List Char) : Option Bool :=
  if cs = ['R'] then some true else if cs = ['F'] then some false else none

/-- A CSR: its name, or a number 0 to 15 (30_encoding.md R73). -/
def parseCsr (cs : List Char) : Option Nat :=
  if cs = "SAMPLE_RATE".toList then some 0
  else if cs = "LAST_BIT_PAD".toList then some 1
  else (parseNumber cs).filter (· < 16)

/-- A line without its comment (30_encoding.md R73). -/
def stripComment (cs : List Char) : List Char := cs.takeWhile (· != ';')

/-- A word of a line, when it has a character, before the words after it. -/
def pushWord (word : List Char) (ws : List (List Char)) : List (List Char) :=
  if word = [] then ws else word :: ws

/-- The words of a line: runs of characters between spaces, with a comma a word of its own. -/
def words (cur : List Char) : List Char → List (List Char)
  | [] => pushWord cur []
  | c :: cs =>
    if c = ' ' ∨ c = '\t' ∨ c = '\r' then pushWord cur (words [] cs)
    else if c = ',' then pushWord cur ([','] :: words [] cs)
    else words (cur ++ [c]) cs

/-- A line with an EDGE-like pair of operands. -/
def parsePair (f : Bool → Nat → AsmLine) (p n : List Char) : Option AsmLine :=
  match parsePol p, parseNumber n with
  | some pol, some v => some (f pol v)
  | _, _ => none

/-- The words of one command (30_encoding.md R73, R74). -/
def parseWords : List (List Char) → Option AsmLine
  | [m] =>
    if m = "NOP".toList then some .nop
    else if m = "RESET".toList then some .reset
    else if m = "START".toList then some .start
    else if m = "END".toList then some .endSession
    else none
  | [m, d] => if m = "TOG".toList then (parseNumber d).map .tog else none
  | [m, a, [','], n] =>
    if m = "CFGW".toList then
      match parseCsr a, parseNumber n with
      | some csr, some v => some (.cfgw csr v)
      | _, _ => none
    else if m = "EDGE".toList then parsePair .edge a n
    else if m = "DEDGE".toList then parsePair .dedge a n
    else none
  | _ => none

/-- The lines of a text. -/
def lines (cur : List Char) : List Char → List (List Char)
  | [] => [cur]
  | c :: cs => if c = '\n' then cur :: lines [] cs else lines (cur ++ [c]) cs

/-- The commands of the lines, skipping lines with no word. -/
def parseLines : List (List Char) → Option (List AsmLine)
  | [] => some []
  | l :: ls =>
    match words [] (stripComment l) with
    | [] => parseLines ls
    | w :: ws =>
      match parseWords (w :: ws), parseLines ls with
      | some a, some as => some (a :: as)
      | _, _ => none

/-- The commands a listing assembles to (30_encoding.md R73, R74). -/
def assembleText (text : List Char) : Option (List Instr) :=
  match parseLines (lines [] text) with
  | none => none
  | some ls => expandAll .start ls

end Sys2Proof.Machine
end

