-- ==== Sys2Proof/Machine/Render.lean ====
section
/-! DEFINITION. The text of an annotation. The host builds it; the table is non-normative for the block
(30_encoding.md R78, 43_field_assembler.md R169). Texts are lists of characters. -/

namespace Sys2Proof.Machine

/-- One digit in base 10 or uppercase base 16 (43_field_assembler.md R169). -/
def digitChar (n : Nat) : Char := if n < 10 then Char.ofNat (48 + n) else Char.ofNat (55 + n)

/-- The digits of a number in a base, most significant first; none for 0. `fuel` bounds their count. -/
def digits (base : Nat) : Nat → Nat → List Char
  | 0, _ => []
  | fuel + 1, v =>
    if v = 0 then [] else digits base fuel (v / base) ++ [digitChar (v % base)]

/-- A text padded with zeros on the left to at least `n` characters (43_field_assembler.md R169). -/
def padZeros (n : Nat) (cs : List Char) : List Char := List.replicate (n - cs.length) '0' ++ cs

/-- `HEX7(v)` (43_field_assembler.md R169). -/
def hex7 (v : Word32) : List Char := '0' :: 'x' :: padZeros 7 (digits 16 8 v.toNat)

/-- A number in decimal; 32 bits have at most 10 digits (30_encoding.md R78). -/
def decimal (v : Word32) : List Char := padZeros 1 (digits 10 10 v.toNat)

/-- The name of button `k` (43_field_assembler.md R166). -/
def buttonName (k : Nat) : List Char :=
  if k = 0 then "S3".toList else if k = 1 then "S0".toList else if k = 2 then "S1".toList
  else "S2".toList

/-- The text of an annotation (30_encoding.md R78). -/
def Annotation.text (a : Annotation) : List Char :=
  match a.kind with
  | .teIndex => "TE ".toList ++ decimal a.value
  | .preamble => "Preamble".toList
  | .header => "Header".toList
  | .logicalBit => "Bit ".toList ++ decimal a.value
  | .invalidBit => "Invalid Bit".toList
  | .encBlock => "Encrypted Portion".toList
  | .encValue => hex7 a.value
  | .serBlock => "Serial Number".toList
  | .serValue => hex7 a.value
  | .buttonBit =>
    buttonName (a.value.extractLsb' 1 2).toNat ++ " = ".toList ++
      decimal ((a.value.extractLsb' 0 1).setWidth 32)
  | .buttonCode => "Button Code".toList
  | .vlowBlock => "V-Low".toList
  | .vlowValue => if a.value = 0#32 then "Battery High".toList else "Battery Low".toList
  | .rptBlock => "RPT".toList
  | .rptValue => if a.value = 0#32 then "RPT=No".toList else "RPT=Yes".toList

end Sys2Proof.Machine
end

