-- ==== Sys2Proof/WellFormed.lean ====
section
/-! DEFINITION. Which terms have the form their row of spec/opcode_table.json gives: the zero fields are
zero and the CSR address exists (30_encoding.md R63 to R70). A reserved row has no condition. A term
that is not well formed still decodes and still runs: it raises ILLEGAL_CMD (log 15). -/

namespace Sys2Proof

/-- Bits `SAMPLE_W` and above of a sample are zero (30_encoding.md R67). -/
abbrev fitsSample (sampleW : Nat) (payload : BitVec 64) : Prop := payload.toNat < 2 ^ sampleW

/-- The row's fixed bits, for a block whose sample indices have `sampleW` bits. -/
abbrev Instr.wellFormed (sampleW : Nat) (i : Instr) : Prop :=
  match i with
  | .nop sub payload => sub = 0#4 ∧ payload = 0#64
  | .reset _ _ => True
  | .cfgw sub payload => sub.toNat < 2 ∧ payload.toNat < 2 ^ 32
  | .start sub payload => sub = 0#4 ∧ payload = 0#64
  | .edge sub payload => sub.toNat < 2 ∧ fitsSample sampleW payload
  | .endSession sub payload => sub = 0#4 ∧ payload = 0#64
  | .reserved67 _ _ _ => True
  | .reserved8F _ _ _ => True

/-- The reserved and illegal encodings (30_encoding.md R69). -/
abbrev Instr.illegal (sampleW : Nat) (i : Instr) : Prop :=
  match i with
  | .nop sub payload => sub ≠ 0#4 ∨ payload ≠ 0#64
  | .reset _ _ => False
  | .cfgw sub payload => 2 ≤ sub.toNat ∨ 2 ^ 32 ≤ payload.toNat
  | .start sub payload => sub ≠ 0#4 ∨ payload ≠ 0#64
  | .edge sub payload => 2 ≤ sub.toNat ∨ 2 ^ sampleW ≤ payload.toNat
  | .endSession sub payload => sub ≠ 0#4 ∨ payload ≠ 0#64
  | .reserved67 _ _ _ => True
  | .reserved8F _ _ _ => True

end Sys2Proof
end

