-- ==== Sys2Proof/Safety.lean ====
section
/-! DEFINITION. The words the statements use: runs, sessions of edges, what an instruction reads, and the
invariants of the block. -/

namespace Sys2Proof.Machine

/-- A run of the model: commands applied in order (44_commands.md R201). Its outputs are the records it adds
to `pending`. -/
def execAll : List Instr → State → Host.Outcome State Fault Refusal
  | [], s => .next s
  | i :: is, s =>
    match exec i s with
    | .next t => execAll is t
    | .fault r => .fault r
    | .refused r => .refused r

/-- A run is faulted when `fault_code != 0` in its end state (44_commands.md R201). -/
abbrev State.faulted (s : State) : Prop := s.faultCode ≠ .noFault

/-- An edge of polarity `pol` at sample `smp` (30_encoding.md R67). -/
def edgeAt (pol : Bool) (smp : Nat) : Instr :=
  .edge (if pol then 1#4 else 0#4) (BitVec.ofNat 64 smp)

/-- The edges a host sends after sample `from'`, each given by its polarity and its interval from the edge
before it (30_encoding.md R74). -/
def edgesAfter (from' : Nat) : List (Bool × Nat) → List Instr
  | [] => []
  | (pol, d) :: rest => edgeAt pol (from' + d) :: edgesAfter (from' + d) rest

/-- The sample of the last of those edges. -/
def lastSample (from' : Nat) : List (Bool × Nat) → Nat
  | [] => from'
  | (_, d) :: rest => lastSample (from' + d) rest

/-- The host's duties 1 and 2: samples increase strictly and stay below `2^SAMPLE_W`
(70_reset_and_hazards.md R254). -/
abbrev hostDuties (sampleW from' : Nat) (ds : List (Bool × Nat)) : Prop :=
  (∀ d ∈ ds, 1 ≤ d.2) ∧ lastSample from' ds < 2 ^ sampleW

/-- An interval of `d` samples lies in a row's closed range (40_timing_classifier.md R103). -/
abbrev LutRow.has (r : LutRow) (d : Nat) : Prop := r.lo.toNat ≤ d ∧ d ≤ r.hi.toNat

/-- One bit as a value of a record (30_encoding.md R77). -/
abbrev valueOfBit (b : Bool) : Word32 := BitVec.ofNat 32 b.toNat

/-- The pulse qualifies: short with the count below `N_SHORT`, or standard with the count below `N_STD`
(41_preamble_header.md R120). -/
abbrev pulseQualifies (p : Params) (te : Nat) (ms md : Prop) : Prop :=
  (ms ∧ te < p.nShort) ∨ (md ∧ te < p.nStd)

/-- The effective short match of a pulse: under STD_FIRST a pulse in both windows is not short
(41_preamble_header.md R121). -/
abbrev shortCounts (p : OverlapPolicy) (inShort inStd : Prop) : Prop :=
  inShort ∧ (p = .stdFirst → ¬ inStd)

/-- The effective standard match of a pulse: under SHORT_FIRST a pulse in both windows is not standard
(41_preamble_header.md R121). -/
abbrev stdCounts (p : OverlapPolicy) (inShort inStd : Prop) : Prop :=
  inStd ∧ (p = .shortFirst → ¬ inShort)

/-- An interval of `d` samples is an effective short pulse in a state (41_preamble_header.md R121). -/
abbrev isShort (s : State) (d : Nat) : Prop :=
  shortCounts s.cfg.overlap (s.lut.preShort.has d) (s.lut.bit1.has d)

/-- An interval of `d` samples is an effective standard pulse in a state (41_preamble_header.md R121). -/
abbrev isStd (s : State) (d : Nat) : Prop :=
  stdCounts s.cfg.overlap (s.lut.preShort.has d) (s.lut.bit1.has d)

/-- A half-bit of `d` samples resolves to `b` (42_bit_resolver.md R141, R142). -/
abbrev halfBit (s : State) (d : Nat) (b : Bool) : Prop :=
  if b then s.lut.bit1.has d else ¬ s.lut.bit1.has d ∧ s.lut.bit0.has d

/-- `a` is `v` with bit `k` set to `b`. -/
abbrev bitSet {w : Nat} (v a : BitVec w) (k : Nat) (b : Bool) : Prop :=
  ∀ j < w, a.getLsbD j = if j = k then b else v.getLsbD j

/-- The kinds of the annotations that the bit at position `p` yields (43_field_assembler.md R171). -/
def kindsOfBit (p : Nat) : List Kind :=
  .logicalBit ::
    (if p = 31 then [.encBlock, .encValue]
     else if p = 59 then [.serBlock, .serValue]
     else if p = 60 ∨ p = 61 ∨ p = 62 then [.buttonBit]
     else if p = 63 then [.buttonBit, .buttonCode]
     else if p = 64 then [.vlowBlock, .vlowValue]
     else if p = 65 then [.rptBlock, .rptValue]
     else [])

/-- The kind of a record for port `ann`. -/
def OutRecord.kind? : OutRecord → Option Kind
  | .ann a => some a.kind
  | .cw _ => none

/-- A record with its end sample left out. -/
def OutRecord.eraseEnd : OutRecord → OutRecord
  | .ann a => .ann { a with last := 0#64 }
  | .cw r => .cw r

/-- A word the block runs in a state without a fault: `sub` and `payload` are those of a legal EDGE
(30_encoding.md R67, R69). -/
abbrev edgeLegal (s : State) (sub : BitVec 4) (smp : Sample) : Prop :=
  s.faultCode = .noFault ∧ sub.toNat < 2 ∧ smp.toNat < 2 ^ s.cfg.sampleW

/-- A legal EDGE at `smp` after an edge at `p`, with a strictly greater sample (44_commands.md R198). -/
abbrev edgeTimed (s : State) (sub : BitVec 4) (p smp : Sample) : Prop :=
  edgeLegal s sub smp ∧ s.prev = some p ∧ p.toNat < smp.toNat

/-- The phases after the anchor (44_commands.md R196). -/
abbrev Phase.timed (p : Phase) : Prop :=
  p = .preamble ∨ p = .header ∨ p = .data ∨ p = .dataEnd

/-- The positions at which a subfield begins, and the position after the last one that is not a field of one
bit (43_field_assembler.md R160). -/
abbrev fieldStart (p : Nat) : Prop := p = 0 ∨ p = 32 ∨ p = 60 ∨ p = 64 ∨ p = 65

/-- The counters keep to what the phase allows (10_state.md R22, R24; 41_preamble_header.md R124). -/
abbrev CounterInv (s : State) : Prop :=
  s.cfg.wf ∧
  s.bitCount.toNat ≤ 65 ∧
  s.teCount.toNat ≤ max s.cfg.nStd s.cfg.nShort + 1 ∧
  (s.phase = .anchor → s.teCount = 0#6 ∧ s.bitCount = 0#7) ∧
  (s.phase = .preamble →
    s.teCount.toNat ≤ max s.cfg.nStd s.cfg.nShort ∧ s.bitCount = 0#7) ∧
  (s.phase = .header →
    s.teCount.toNat = threshold s.cfg s.variant + 1 ∧ s.bitCount = 0#7) ∧
  (s.phase = .data → s.teCount = 0#6) ∧
  (s.phase = .dataEnd → s.teCount = 0#6 ∧ s.bitCount.toNat < 65)

/-- `prev` and `block_start` hold a value exactly when they should (10_state.md R25, R26). -/
abbrev BlockInv (s : State) : Prop :=
  (s.phase = .anchor → s.prev = none ∧ s.blockStart = none) ∧
  (s.phase = .preamble → s.prev ≠ none ∧ (s.blockStart = none ↔ s.teCount = 0#6)) ∧
  (s.phase = .header → s.prev ≠ none ∧ s.blockStart ≠ none) ∧
  (s.phase = .data → s.prev ≠ none ∧ (s.blockStart = none ↔ fieldStart s.bitCount.toNat)) ∧
  (s.phase = .dataEnd → s.prev ≠ none ∧ s.blockStart ≠ none)

/-- The state machine's invariant. -/
abbrev PhaseInv (s : State) : Prop := CounterInv s ∧ BlockInv s

/-- Sample registers have `SAMPLE_W` bits, and the starts held lie before the last edge (10_state.md R25 to
R27). -/
abbrev SpanInv (s : State) : Prop :=
  s.cfg.sampleW ≤ 64 ∧
  s.prevBits.toNat < 2 ^ s.cfg.sampleW ∧
  s.blockStartBits.toNat < 2 ^ s.cfg.sampleW ∧
  s.bitStart.toNat < 2 ^ s.cfg.sampleW ∧
  (s.prev = none → s.blockStart = none ∧ s.bitStart = 0#64) ∧
  s.bitStart.toNat ≤ s.prevBits.toNat ∧
  (s.blockStart ≠ none → s.blockStartBits.toNat < s.prevBits.toNat) ∧
  (s.phase = .anchor → s.prev = none) ∧
  (s.phase = .dataEnd → s.blockStartBits.toNat ≤ s.bitStart.toNat)

/-- The number of bits `acc` holds at position `p` (43_field_assembler.md R162, R164). -/
abbrev accWidth (p : Nat) : Nat := if p ≤ 31 then p else if p ≤ 59 then p - 32 else 0

/-- The populated flags are those of the positions below `p` (10_state.md R29; 43_field_assembler.md R160). -/
abbrev popsBelow (c : CodeWord) (p : Nat) : Prop :=
  c.popEnc = decide (32 ≤ p) ∧ c.popSer = decide (60 ≤ p) ∧ c.popS3 = decide (61 ≤ p) ∧
  c.popS0 = decide (62 ≤ p) ∧ c.popS1 = decide (63 ≤ p) ∧ c.popS2 = decide (64 ≤ p) ∧
  c.popLowbat = decide (65 ≤ p) ∧ c.popRpt = false

/-- The accumulator holds the bits of the subfield under way and nothing else, and the populated flags are
those of the positions passed (10_state.md R28, R29). -/
abbrev WordInv (s : State) : Prop :=
  (s.phase = .anchor → s.acc = 0#32 ∧ s.cw = .empty) ∧
  (s.phase = .preamble ∨ s.phase = .header →
    s.acc = 0#32 ∧ (s.cw = .empty ∨ s.cw.popAll true = true)) ∧
  (s.phase = .data ∨ s.phase = .dataEnd →
    s.acc.toNat < 2 ^ accWidth s.bitCount.toNat ∧ popsBelow s.cw s.bitCount.toNat)

/-- The LUT is the scaled window table of a known rate throughout a session (10_state.md R32). -/
abbrev LutInv (s : State) : Prop :=
  s.phase ≠ .idle → s.sampleRate ≠ 0#32 ∧ s.lut = buildLut s.cfg s.sampleRate

/-- `fault_info` is `{op, sub}` of a command that can raise `fault_code` (60_exceptions.md R220). -/
abbrev FaultInv (s : State) : Prop :=
  (s.faultCode = .noFault → s.faultInfo = 0x00#8) ∧
  (s.faultCode = .noSampleRate → s.faultInfo = 0x30#8) ∧
  (s.faultCode = .illegalCmd → s.faultInfo.extractLsb' 4 4 ≠ 0x1#4) ∧
  (s.faultCode = .order → s.faultInfo = 0x40#8 ∨ s.faultInfo = 0x41#8) ∧
  (s.faultCode = .cfgBusy → s.faultInfo = 0x20#8 ∨ s.faultInfo = 0x21#8)

/-- A record for port `ann`. -/
abbrev OutRecord.isAnn : OutRecord → Bool
  | .ann _ => true
  | .cw _ => false

/-- At most three annotations and then at most one code-word record wait for delivery
(70_reset_and_hazards.md R261). -/
abbrev fitsBuffer (rs : List OutRecord) : Prop :=
  (rs.filter OutRecord.isAnn).length ≤ 3 ∧ (rs.dropWhile OutRecord.isAnn).length ≤ 1

end Sys2Proof.Machine
end

