-- ==== Sys2Proof/Certificates/Slice0/Obligations.lean ====
section
/-! DEFINITION. The statements about the block, for the provers. -/

open Sys2Proof
open Sys2Proof.Machine

/-- Words written out in the spec decode to their commands. Derived from 30_encoding.md section 1,
95_test_vectors.md section 2.1. -/
def Obligations.DecodesTheSpecsWords : Prop :=
  decodeWord 0x000000000000000000#72 = .nop 0x0#4 0x0#64 ∧
  decodeWord 0x1F0123456789ABCDEF#72 = .reset 0xF#4 0x0123456789ABCDEF#64 ∧
  decodeWord 0x2000000000000F4240#72 = .cfgw 0x0#4 1000000#64 ∧
  decodeWord 0x210000000000000008#72 = .cfgw 0x1#4 8#64 ∧
  decodeWord 0x300000000000000000#72 = .start 0x0#4 0x0#64 ∧
  decodeWord 0x4100000000000003E8#72 = .edge 0x1#4 1000#64 ∧
  decodeWord 0x400000000000000578#72 = .edge 0x0#4 1400#64 ∧
  decodeWord 0x500000000000000000#72 = .endSession 0x0#4 0x0#64 ∧
  decodeWord 0x600000000000000000#72 = .reserved67 0#1 0x0#4 0x0#64 ∧
  decodeWord 0xF00000000000000000#72 = .reserved8F 7#3 0x0#4 0x0#64 ∧
  decode [0xE8#8, 0x03#8, 0#8, 0#8, 0#8, 0#8, 0#8, 0#8, 0x41#8] = .ok (.edge 0x1#4 1000#64, [])

/-- Decoding the bytes of any command gives the command back, and the bytes after it. Derived from
30_encoding.md section 1, 20_memory.md section 2. -/
def Obligations.DecodeInvertsEncode : Prop :=
  ∀ (i : Instr) (rest : List Byte), decode (encode i ++ rest) = .ok (i, rest)

/-- Every nine bytes are the encoding of exactly the command they decode to. Derived from 30_encoding.md
section 1, 20_memory.md section 2. -/
def Obligations.EncodeInvertsDecode : Prop :=
  ∀ bs : List Byte, bs.length = 9 → ∃ i, decode bs = .ok (i, []) ∧ encode i = bs

/-- Fewer than nine bytes are refused by name. Derived from 20_memory.md section 2, 30_encoding.md section
1. -/
def Obligations.DecodeRefusesTruncatedWords : Prop :=
  ∀ bs : List Byte, bs.length < 9 → decode bs = .error (.truncated bs.length)

/-- A word raises ILLEGAL_CMD exactly when it matches none of the six command rows. Derived from
opcode_table.json, 30_encoding.md section 1, 44_commands.md section 1. -/
def Obligations.IllegalExactlyOutsideTheRows : Prop :=
  ∀ (s : State) (w : CmdWord), s.faultCode = .noFault → s.cfg.sampleW ≤ 64 →
    ((∃ t, exec (decodeWord w) s = .next t ∧ t.faultCode = .illegalCmd) ↔
      ¬ (w &&& 0xFFFFFFFFFFFFFFFFFF#72 = 0x000000000000000000#72 ∨
         w &&& 0xF00000000000000000#72 = 0x100000000000000000#72 ∨
         w &&& 0xFEFFFFFFFF00000000#72 = 0x200000000000000000#72 ∨
         w &&& 0xFFFFFFFFFFFFFFFFFF#72 = 0x300000000000000000#72 ∨
         (w &&& 0xFE0000000000000000#72 = 0x400000000000000000#72 ∧
           w.toNat % 2 ^ 64 < 2 ^ s.cfg.sampleW) ∨
         w &&& 0xFFFFFFFFFFFFFFFFFF#72 = 0x500000000000000000#72))

/-- Every illegal encoding raises ILLEGAL_CMD and does nothing else; RESET is never illegal. Formalises R69. -/
def Obligations.IllegalCommandsFault : Prop :=
  (∀ (i : Instr) (s : State), s.faultCode = .noFault → i.illegal s.cfg.sampleW →
    exec i s = .next { s with faultCode := .illegalCmd, faultInfo := i.op ++ i.sub }) ∧
  (∀ (sub : BitVec 4) (payload : BitVec 64) (s t : State),
    exec (.reset sub payload) s = .next t → t.faultCode = .noFault)

/-- A step runs the command that the offered word decodes to. Derived from 00_scope.md section 4,
30_encoding.md section 1, 20_memory.md section 3. That the host's words and levels stand in State is the
model's choice (log 1, 9). -/
def Obligations.StepRunsTheDecodedCommand : Prop :=
  ∀ (s : State) (w : CmdWord) (ws : List CmdWord) (i : Instr),
    s.pins = ⟨false, true, true⟩ → s.pending = [] → s.cmdIn = w :: ws →
    decode (bytesLE 9 w) = .ok (i, []) →
    (s.pinsAhead = [] → step s = exec i { s with cmdIn := ws }) ∧
    (∀ p ps, s.pinsAhead = p :: ps →
      step s = exec i { s with cmdIn := ws, pins := p, pinsAhead := ps })

/-- Without a command the block keeps its state for any number of steps, whatever the ready levels do.
Derived from 60_exceptions.md section 4, 44_commands.md section 3. That the levels hold when no change
is planned is the model's choice (log 9). -/
def Obligations.NoCommandMeansNoChange : Prop :=
  ∀ (n : Nat) (s : State), s.pins.rst = false → s.pending = [] → s.cmdIn = [] →
    (∀ p ∈ s.pinsAhead, p.rst = false) →
    ∃ t : State, Host.Core.run Sys2Proof.core n s = .next t ∧
      t = { s with pins := t.pins, pinsAhead := t.pinsAhead } ∧
      (s.pinsAhead = [] → t = s)

/-- The oldest waiting record is delivered when both ports are ready, and held when one is not. Derived from
70_reset_and_hazards.md section 3, 20_memory.md section 3. One record a step is the model's choice (log
8); so is that the levels hold (log 9). -/
def Obligations.StepDeliversTheOldestRecord : Prop :=
  ∀ (s : State) (o : OutRecord) (os : List OutRecord), s.pins.rst = false → s.pinsAhead = [] →
    s.pending = o :: os →
    (s.pins.annReady = true → s.pins.cwoReady = true →
      step s = .next { s with pending := os, delivered := s.delivered ++ [o] }) ∧
    (s.pins.annReady = false ∨ s.pins.cwoReady = false → step s = .next s)

/-- No output is dropped or reordered; a low ready level holds all outputs; no command is taken while one
waits or a level is low. Formalises R262. -/
def Obligations.OutputsAreKeptInOrder : Prop :=
  ∀ s t : State, s.pins.rst = false → step s = .next t →
    (s.delivered ++ s.pending) <+: (t.delivered ++ t.pending) ∧
    (s.pending ≠ [] ∨ s.pins.annReady = false ∨ s.pins.cwoReady = false →
      s.cmdReady = false ∧
      t = { s with pins := t.pins, pinsAhead := t.pinsAhead,
                   pending := t.pending, delivered := t.delivered } ∧
      t.delivered ++ t.pending = s.delivered ++ s.pending) ∧
    (s.pending = [] → s.pins.annReady = true → s.pins.cwoReady = true → s.cmdReady = true) ∧
    (s.pins.annReady = false ∨ s.pins.cwoReady = false →
      t.pending = s.pending ∧ t.delivered = s.delivered)

/-- Rst sets every register to its reset value, drops undelivered records and takes no command. Derived from
70_reset_and_hazards.md section 1, 10_state.md section 5, 00_scope.md section 3. That the host's levels
move on by one is the model's choice (log 9). -/
def Obligations.ResetPinResetsEverything : Prop :=
  ∀ s : State, s.pins.rst = true →
    ∃ t, step s = .next t ∧ t.phase = .idle ∧ t.halted = false ∧
      (s.cfg = Params.default → t.lastBitPad = 8#32) ∧
      t = { cfg := s.cfg, phase := .idle, teCount := 0#6, variant := .std, bitCount := 0#7,
            blockStart := none, prev := none, bitStart := 0#64, pendBit := false, acc := 0#32,
            cw := .empty, sampleRate := 0#32, lastBitPad := s.cfg.padDefault,
            lut := .zero, faultCode := .noFault, faultInfo := 0#8,
            pins := t.pins, pinsAhead := t.pinsAhead, cmdIn := s.cmdIn,
            pending := [], delivered := s.delivered } ∧
      (s.pinsAhead = [] → t.pins = s.pins ∧ t.pinsAhead = []) ∧
      (∀ p ps, s.pinsAhead = p :: ps → t.pins = p ∧ t.pinsAhead = ps)

/-- Every register has its power-on value in the reset state. Formalises R36. -/
def Obligations.RegistersAtReset : Prop :=
  State.reset.phase.code = 0#3 ∧ State.reset.teCount = 0#6 ∧ State.reset.variant.code = 0#1 ∧
  State.reset.bitCount = 0#7 ∧ State.reset.blockStart = none ∧ State.reset.prev = none ∧
  State.reset.bitStart = 0#64 ∧ State.reset.pendBit = false ∧ State.reset.acc = 0#32 ∧
  State.reset.cw = ⟨0#32, 0#28, 0#4, false, false, false, false, false, false, false, false,
    false, false⟩ ∧
  State.reset.sampleRate = 0#32 ∧ State.reset.lastBitPad = 8#32 ∧
  State.reset.lut = ⟨⟨0#64, 0#64⟩, ⟨0#64, 0#64⟩, ⟨0#64, 0#64⟩, ⟨0#64, 0#64⟩⟩ ∧
  State.reset.faultCode.code = 0#4 ∧ State.reset.faultInfo = 0#8

/-- NOP changes nothing; with a nonzero field it raises ILLEGAL_CMD; halted, it is ignored. Formalises R190. -/
def Obligations.NopLeavesTheState : Prop :=
  ∀ s : State, exec (.nop 0#4 0#64) s = .next s ∧
    ∀ (sub : BitVec 4) (payload : BitVec 64),
      (sub ≠ 0#4 ∨ payload ≠ 0#64 → s.faultCode = .noFault →
        exec (.nop sub payload) s =
          .next { s with faultCode := .illegalCmd, faultInfo := 0x0#4 ++ sub }) ∧
      (s.faulted → exec (.nop sub payload) s = .next s)

/-- RESET resets every register but the two control registers, in every state. Formalises R191. -/
def Obligations.ResetCommandClears : Prop :=
  ∀ (sub : BitVec 4) (payload : BitVec 64) (s : State),
    exec (.reset sub payload) s =
      .next { s with phase := .idle, teCount := 0#6, variant := .std, bitCount := 0#7,
                     blockStart := none, prev := none, bitStart := 0#64, pendBit := false,
                     acc := 0#32, cw := .empty, lut := .zero,
                     faultCode := .noFault, faultInfo := 0#8 }

/-- CFGW writes its register in IDLE, and raises CFG_BUSY in a session. Formalises R193. -/
def Obligations.CfgwWritesOneRegister : Prop :=
  ∀ (sub : BitVec 4) (payload : BitVec 64) (s : State),
    (s.faultCode = .noFault → payload.toNat < 2 ^ 32 → s.phase = .idle →
      exec (.cfgw 0x0#4 payload) s = .next { s with sampleRate := BitVec.ofNat 32 payload.toNat } ∧
      exec (.cfgw 0x1#4 payload) s = .next { s with lastBitPad := BitVec.ofNat 32 payload.toNat }) ∧
    (s.faultCode = .noFault → sub = 0x0#4 ∨ sub = 0x1#4 → payload.toNat < 2 ^ 32 → s.phase ≠ .idle →
      exec (.cfgw sub payload) s =
        .next { s with faultCode := .cfgBusy, faultInfo := 0x2#4 ++ sub }) ∧
    (s.faultCode = .noFault → (sub ≠ 0x0#4 ∧ sub ≠ 0x1#4) ∨ 2 ^ 32 ≤ payload.toNat →
      exec (.cfgw sub payload) s =
        .next { s with faultCode := .illegalCmd, faultInfo := 0x2#4 ++ sub }) ∧
    (s.faulted → exec (.cfgw sub payload) s = .next s)

/-- START scales the LUT, clears the decoder and waits for the anchor; without a rate it faults. Formalises
R195. -/
def Obligations.StartBeginsASession : Prop :=
  ∀ (sub : BitVec 4) (payload : BitVec 64) (s : State),
    (s.faultCode = .noFault → s.sampleRate ≠ 0#32 →
      exec (.start 0#4 0#64) s =
        .next { s with phase := .anchor, teCount := 0#6, variant := .std, bitCount := 0#7,
                       blockStart := none, prev := none, bitStart := 0#64, pendBit := false,
                       acc := 0#32, cw := .empty, lut := buildLut s.cfg s.sampleRate }) ∧
    (s.faultCode = .noFault → s.sampleRate = 0#32 →
      exec (.start 0#4 0#64) s =
        .next { s with faultCode := .noSampleRate, faultInfo := 0x30#8 }) ∧
    (s.faultCode = .noFault → sub ≠ 0#4 ∨ payload ≠ 0#64 →
      exec (.start sub payload) s =
        .next { s with faultCode := .illegalCmd, faultInfo := 0x3#4 ++ sub }) ∧
    (s.faulted → exec (.start sub payload) s = .next s)

/-- START scales each window to the least and greatest whole sample counts inside it. Formalises R101. -/
def Obligations.LutBoundsAreCeilAndFloor : Prop :=
  ∀ s : State, s.faultCode = .noFault → s.sampleRate ≠ 0#32 → s.cfg.wf →
    ∃ t, exec (.start 0#4 0#64) s = .next t ∧
      ∀ row ∈ [(t.lut.preShort, s.cfg.wPreShort), (t.lut.bit1, s.cfg.wBit1),
               (t.lut.bit0, s.cfg.wBit0), (t.lut.header, s.cfg.wHeader)],
        (row.2.loUs * s.sampleRate.toNat ≤ row.1.lo.toNat * 1000000 ∧
          ∀ q, row.2.loUs * s.sampleRate.toNat ≤ q * 1000000 → row.1.lo.toNat ≤ q) ∧
        (row.1.hi.toNat * 1000000 ≤ row.2.hiUs * s.sampleRate.toNat ∧
          ∀ q, q * 1000000 ≤ row.2.hiUs * s.sampleRate.toNat → q ≤ row.1.hi.toNat)

/-- A scaled LUT row matches an interval exactly when its real duration lies in the window. Formalises R104. -/
def Obligations.LutMatchesRealDurations : Prop :=
  ∀ s : State, s.faultCode = .noFault → s.sampleRate ≠ 0#32 → s.cfg.wf →
    ∃ t, exec (.start 0#4 0#64) s = .next t ∧
      ∀ row ∈ [(t.lut.preShort, s.cfg.wPreShort), (t.lut.bit1, s.cfg.wBit1),
               (t.lut.bit0, s.cfg.wBit0), (t.lut.header, s.cfg.wHeader)],
        ∀ delta : Nat, 1 ≤ delta →
          (row.1.has delta ↔
            ((row.2.loUs : ℚ) / 1000000 ≤ (delta : ℚ) / (s.sampleRate.toNat : ℚ) ∧
              (delta : ℚ) / (s.sampleRate.toNat : ℚ) ≤ (row.2.hiUs : ℚ) / 1000000))

/-- A legal EDGE in IDLE has no effect and no output. Derived from 44_commands.md section 2. -/
def Obligations.EdgeIgnoredWithoutSession : Prop :=
  ∀ (sub : BitVec 4) (smp : Sample) (s : State), edgeLegal s sub smp → s.phase = .idle →
    exec (.edge sub smp) s = .next s

/-- In ANCHOR a rising edge sets prev and starts the search; a falling edge changes nothing. Formalises
R197. -/
def Obligations.FirstRisingEdgeAnchors : Prop :=
  ∀ (smp : Sample) (s : State), s.phase = .anchor →
    (edgeLegal s 0x1#4 smp →
      exec (.edge 0x1#4 smp) s = .next { s with prev := some smp, phase := .preamble }) ∧
    (edgeLegal s 0x0#4 smp → exec (.edge 0x0#4 smp) s = .next s)

/-- After the anchor an edge whose sample does not increase raises ORDER. Derived from 44_commands.md
section 2, 60_exceptions.md section 1. -/
def Obligations.EdgeOutOfOrderFaults : Prop :=
  ∀ (sub : BitVec 4) (smp p : Sample) (s : State), edgeLegal s sub smp → s.phase.timed →
    s.prev = some p → smp.toNat ≤ p.toNat →
    exec (.edge sub smp) s = .next { s with faultCode := .order, faultInfo := 0x4#4 ++ sub }

/-- END sets the phase to IDLE and nothing else, with no output. Formalises R199. -/
def Obligations.EndClosesTheSession : Prop :=
  ∀ (sub : BitVec 4) (payload : BitVec 64) (s : State),
    (s.faultCode = .noFault → exec (.endSession 0#4 0#64) s = .next { s with phase := .idle }) ∧
    (s.faultCode = .noFault → sub ≠ 0#4 ∨ payload ≠ 0#64 →
      exec (.endSession sub payload) s =
        .next { s with faultCode := .illegalCmd, faultInfo := 0x5#4 ++ sub }) ∧
    (s.faulted → exec (.endSession sub payload) s = .next s)

/-- The reserved opcodes 0x6 to 0xF record ILLEGAL_CMD with {op, sub}. Derived from 30_encoding.md section
1, 60_exceptions.md section 1. -/
def Obligations.ReservedOpcodesFault : Prop :=
  ∀ (op0 : BitVec 1) (op20 : BitVec 3) (sub : BitVec 4) (payload : BitVec 64) (s : State),
    (s.faultCode = .noFault →
      exec (.reserved67 op0 sub payload) s =
        .next { s with faultCode := .illegalCmd, faultInfo := 0b011#3 ++ op0 ++ sub } ∧
      exec (.reserved8F op20 sub payload) s =
        .next { s with faultCode := .illegalCmd, faultInfo := 0b1#1 ++ op20 ++ sub }) ∧
    (s.faulted →
      exec (.reserved67 op0 sub payload) s = .next s ∧
      exec (.reserved8F op20 sub payload) s = .next s)

/-- The fault level is 1 exactly while a fault is recorded, and then every command but RESET does nothing.
Formalises R222. -/
def Obligations.HaltedBlockIgnoresCommands : Prop :=
  ∀ (i : Instr) (s : State),
    (s.faultCode = .noFault → s.faultLevel = false) ∧
    (s.faulted →
      s.faultLevel = true ∧ ((∀ sub payload, i ≠ .reset sub payload) → exec i s = .next s))

/-- A command that faults changes nothing but the fault record. Formalises R221. -/
def Obligations.FaultEntryIsPrecise : Prop :=
  ∀ (i : Instr) (s t : State), s.faultCode = .noFault → exec i s = .next t → t.faulted →
    t = { s with faultCode := t.faultCode, faultInfo := i.op ++ i.sub }

/-- Each fault is raised exactly on its cause, and ILLEGAL_CMD comes first. Formalises R220, R223. -/
def Obligations.FaultsHaveTheirCauses : Prop :=
  [FaultCode.noFault, .noSampleRate, .illegalCmd, .order, .cfgBusy].map FaultCode.code =
    [0#4, 1#4, 2#4, 3#4, 4#4] ∧
  ∀ (i : Instr) (s t : State), exec i s = .next t →
    (s.faulted → (∀ sub payload, i ≠ .reset sub payload) →
      t.faultCode = s.faultCode ∧ t.faultInfo = s.faultInfo) ∧
    (s.faultCode = .noFault →
      (t.faultCode = .illegalCmd ↔ i.illegal s.cfg.sampleW) ∧
      (t.faultCode = .noSampleRate ↔ i = .start 0#4 0#64 ∧ s.sampleRate = 0#32) ∧
      (t.faultCode = .cfgBusy ↔
        ∃ sub payload, i = .cfgw sub payload ∧ ¬ i.illegal s.cfg.sampleW ∧ s.phase ≠ .idle) ∧
      (t.faultCode = .order ↔
        ∃ sub smp, i = .edge sub smp ∧ ¬ i.illegal s.cfg.sampleW ∧ s.phase.timed ∧
          smp.toNat ≤ s.prevBits.toNat) ∧
      (t.faulted → t.faultInfo = i.op ++ i.sub))

/-- Only RESET and the reset pin leave the halted state, and both clear the record. Formalises R224. -/
def Obligations.OnlyResetLeavesTheFault : Prop :=
  ∀ s t : State, step s = .next t →
    (s.faulted → t.faultCode = .noFault →
      s.pins.rst = true ∨
        ∃ w ws sub payload, s.pending = [] ∧ s.cmdIn = w :: ws ∧
          decodeWord w = .reset sub payload) ∧
    (s.pins.rst = true → t.faultCode = .noFault ∧ t.faultInfo = 0#8) ∧
    (∀ w ws sub payload, s.pins = ⟨false, true, true⟩ → s.pending = [] → s.cmdIn = w :: ws →
      decodeWord w = .reset sub payload → t.faultCode = .noFault ∧ t.faultInfo = 0#8)

/-- Each register is written only by the commands the table gives it. Formalises R37. -/
def Obligations.RegistersHaveTheirWriters : Prop :=
  ∀ (i : Instr) (s t : State), exec i s = .next t →
    (t.phase ≠ s.phase → i.op = 0x1#4 ∨ i.op = 0x3#4 ∨ i.op = 0x4#4 ∨ i.op = 0x5#4) ∧
    ((t.teCount, t.variant, t.bitCount) ≠ (s.teCount, s.variant, s.bitCount) →
      i.op = 0x1#4 ∨ i.op = 0x3#4 ∨ i.op = 0x4#4) ∧
    ((t.blockStart, t.prev, t.bitStart, t.pendBit) ≠
        (s.blockStart, s.prev, s.bitStart, s.pendBit) →
      i.op = 0x1#4 ∨ i.op = 0x3#4 ∨ i.op = 0x4#4) ∧
    ((t.acc, t.cw) ≠ (s.acc, s.cw) → i.op = 0x1#4 ∨ i.op = 0x3#4 ∨ i.op = 0x4#4) ∧
    ((t.sampleRate, t.lastBitPad) ≠ (s.sampleRate, s.lastBitPad) → i.op = 0x2#4) ∧
    (t.lut ≠ s.lut → i.op = 0x1#4 ∨ i.op = 0x3#4) ∧
    (i.op = 0x1#4 → t.faultCode = .noFault ∧ t.faultInfo = 0#8) ∧
    (i.op = 0x0#4 → t = { s with faultCode := t.faultCode, faultInfo := t.faultInfo }) ∧
    (i.op = 0x5#4 →
      t = { s with phase := t.phase, faultCode := t.faultCode, faultInfo := t.faultInfo }) ∧
    (t.cfg, t.pins, t.pinsAhead, t.cmdIn, t.delivered) =
      (s.cfg, s.pins, s.pinsAhead, s.cmdIn, s.delivered) ∧
    (t.pending ≠ s.pending → i.op = 0x4#4)

/-- The match vector has one bit per window, set exactly on the closed range of its row; Invalid means m =
0. Formalises R103, R80. -/
def Obligations.MatchVectorFollowsTheRows : Prop :=
  ∀ (l : Lut) (delta : Sample),
    ((classify l delta).bits.getLsbD 0 = true ↔ l.preShort.has delta.toNat) ∧
    ((classify l delta).bits.getLsbD 1 = true ↔ l.bit1.has delta.toNat) ∧
    ((classify l delta).bits.getLsbD 2 = true ↔ l.header.has delta.toNat) ∧
    ((classify l delta).bits.getLsbD 3 = true ↔ l.bit1.has delta.toNat) ∧
    ((classify l delta).bits.getLsbD 4 = true ↔ l.bit0.has delta.toNat) ∧
    ((classify l delta).bits = 0#5 ↔
      ¬ l.preShort.has delta.toNat ∧ ¬ l.bit1.has delta.toNat ∧ ¬ l.header.has delta.toNat ∧
        ¬ l.bit0.has delta.toNat) ∧
    (.invalid ∈ (classify l delta).categories ↔ (classify l delta).bits = 0#5)

/-- With the default windows only PRE_SHORT and BIT1 overlap, over 280 to 290 microseconds. Derived from
40_timing_classifier.md section 3. -/
def Obligations.DefaultWindowsOverlapOnlyInPreamble : Prop :=
  ∀ s : State, s.faultCode = .noFault → s.sampleRate ≠ 0#32 →
    s.cfg.wPreShort = ⟨140, 290⟩ → s.cfg.wBit1 = ⟨280, 580⟩ → s.cfg.wBit0 = ⟨700, 1000⟩ →
    s.cfg.wHeader = ⟨3000, 6000⟩ →
    ∃ t, exec (.start 0#4 0#64) s = .next t ∧
      ∀ delta : Nat,
        ¬ (t.lut.bit1.has delta ∧ t.lut.bit0.has delta) ∧
        ¬ (t.lut.bit1.has delta ∧ t.lut.header.has delta) ∧
        ¬ (t.lut.bit0.has delta ∧ t.lut.header.has delta) ∧
        ¬ (t.lut.preShort.has delta ∧ t.lut.bit0.has delta) ∧
        ¬ (t.lut.preShort.has delta ∧ t.lut.header.has delta) ∧
        (t.lut.preShort.has delta ∧ t.lut.bit1.has delta ↔
          280 * s.sampleRate.toNat ≤ delta * 1000000 ∧
            delta * 1000000 ≤ 290 * s.sampleRate.toNat)

/-- A qualifying pulse opens the block, emits TE_INDEX and is counted. Formalises R122. -/
def Obligations.QualifyingPulseIsCounted : Prop :=
  ∀ (sub : BitVec 4) (p smp : Sample) (s : State), edgeTimed s sub p smp → s.phase = .preamble →
    pulseQualifies s.cfg s.teCount.toNat (isShort s (smp.toNat - p.toNat))
      (isStd s (smp.toNat - p.toNat)) →
    (∃ t rest, exec (.edge sub smp) s = .next t ∧
      t.pending =
        s.pending ++ (.ann ⟨.teIndex, p, smp, BitVec.ofNat 32 s.teCount.toNat⟩ :: rest) ∧
      t.blockStart = some (s.blockStart.getD p) ∧ t.prev = some smp) ∧
    (¬ (isShort s (smp.toNat - p.toNat) ∧ s.teCount.toNat + 1 = s.cfg.nShort) →
     ¬ (isStd s (smp.toNat - p.toNat) ∧ s.teCount.toNat + 1 = s.cfg.nStd) →
      exec (.edge sub smp) s =
        .next { s with
          blockStart := some (s.blockStart.getD p)
          teCount := BitVec.ofNat 6 (s.teCount.toNat + 1)
          prev := some smp
          pending := s.pending ++
            [.ann ⟨.teIndex, p, smp, BitVec.ofNat 32 s.teCount.toNat⟩] })

/-- The pulse that reaches a threshold emits PREAMBLE, leaves te_count at threshold + 1 and goes to HEADER.
Formalises R123. -/
def Obligations.LastPulseCompletesThePreamble : Prop :=
  ∀ (sub : BitVec 4) (p smp : Sample) (s : State), edgeTimed s sub p smp → s.phase = .preamble →
    s.cfg.nStd ≠ s.cfg.nShort →
    (isShort s (smp.toNat - p.toNat) → s.teCount.toNat + 1 = s.cfg.nShort →
      exec (.edge sub smp) s =
        .next { s with
          blockStart := some (s.blockStart.getD p)
          teCount := BitVec.ofNat 6 (s.cfg.nShort + 1)
          variant := .short
          phase := .header
          prev := some smp
          pending := s.pending ++
            [.ann ⟨.teIndex, p, smp, BitVec.ofNat 32 s.teCount.toNat⟩,
             .ann ⟨.preamble, s.blockStart.getD p, smp, 1#32⟩] }) ∧
    (isStd s (smp.toNat - p.toNat) → s.teCount.toNat + 1 = s.cfg.nStd →
      exec (.edge sub smp) s =
        .next { s with
          blockStart := some (s.blockStart.getD p)
          teCount := BitVec.ofNat 6 (s.cfg.nStd + 1)
          variant := .std
          phase := .header
          prev := some smp
          pending := s.pending ++
            [.ann ⟨.teIndex, p, smp, BitVec.ofNat 32 s.teCount.toNat⟩,
             .ann ⟨.preamble, s.blockStart.getD p, smp, 0#32⟩] })

/-- An edge that fails in PREAMBLE or HEADER restarts the search with no record and no fault. Formalises
R125. -/
def Obligations.FailingEdgeRestartsTheSearch : Prop :=
  ∀ (sub : BitVec 4) (p smp : Sample) (s : State), edgeTimed s sub p smp →
    (s.phase = .preamble ∧
        ¬ pulseQualifies s.cfg s.teCount.toNat (isShort s (smp.toNat - p.toNat))
          (isStd s (smp.toNat - p.toNat))) ∨
      (s.phase = .header ∧
        ¬ (s.lut.header.has (smp.toNat - p.toNat) ∧
          s.teCount.toNat = (if s.variant = .short then s.cfg.nShort else s.cfg.nStd) + 1)) →
    exec (.edge sub smp) s =
      .next { s with teCount := 0#6, blockStart := none, phase := .preamble, prev := some smp }

/-- A header gap at threshold + 1 emits HEADER and starts a fresh data portion; anything else restarts.
Formalises R124. -/
def Obligations.HeaderGapStartsTheData : Prop :=
  ∀ (sub : BitVec 4) (p smp : Sample) (s : State), edgeTimed s sub p smp → s.phase = .header →
    (s.lut.header.has (smp.toNat - p.toNat) ∧
        s.teCount.toNat = (if s.variant = .short then s.cfg.nShort else s.cfg.nStd) + 1 →
      exec (.edge sub smp) s =
        .next { s with
          teCount := 0#6, blockStart := none, phase := .data, bitCount := 0#7, acc := 0#32
          cw := .empty, prev := some smp
          pending := s.pending ++ [.ann ⟨.header, p, smp, 0#32⟩] }) ∧
    (¬ (s.lut.header.has (smp.toNat - p.toNat) ∧
        s.teCount.toNat = (if s.variant = .short then s.cfg.nShort else s.cfg.nStd) + 1) →
      exec (.edge sub smp) s =
        .next { s with
          teCount := 0#6, blockStart := none, phase := .preamble, prev := some smp })

/-- A valid half-bit below position 65 waits in DATA_END and emits nothing. Formalises R143. -/
def Obligations.HalfBitWaitsForItsEnd : Prop :=
  ∀ (sub : BitVec 4) (p smp : Sample) (s : State) (b : Bool), edgeTimed s sub p smp →
    s.phase = .data → s.bitCount ≠ 65#7 → halfBit s (smp.toNat - p.toNat) b →
    exec (.edge sub smp) s =
      .next { s with
        blockStart := some (s.blockStart.getD p), bitStart := p, pendBit := b
        phase := .dataEnd, prev := some smp }

/-- An invalid half-bit emits INVALID_BIT, discards the code word and restarts the search. Formalises R144. -/
def Obligations.InvalidHalfBitDiscardsTheWord : Prop :=
  ∀ (sub : BitVec 4) (p smp : Sample) (s : State), edgeTimed s sub p smp → s.phase = .data →
    ¬ s.lut.bit1.has (smp.toNat - p.toNat) → ¬ s.lut.bit0.has (smp.toNat - p.toNat) →
    exec (.edge sub smp) s =
      .next { s with
        acc := 0#32, cw := .empty, blockStart := none, bitCount := 0#7, teCount := 0#6
        phase := .preamble, prev := some smp
        pending := s.pending ++ [.ann ⟨.invalidBit, p, smp, 0#32⟩] }

/-- Bit 65 ends at its edge plus the pad and completes the code word at once. Formalises R145, R170. -/
def Obligations.LastBitCompletesTheWord : Prop :=
  ∀ (sub : BitVec 4) (p smp : Sample) (s : State) (b : Bool), edgeTimed s sub p smp →
    s.phase = .data → s.bitCount = 65#7 → halfBit s (smp.toNat - p.toNat) b →
    ∃ (e : Sample) (r : BitVec 72),
      (s.cfg.sampleW ≤ 64 →
        e.toNat = (smp.toNat + s.lastBitPad.toNat) % 2 ^ s.cfg.sampleW) ∧
      r.extractLsb' 0 32 = s.cw.enc ∧ r.extractLsb' 32 28 = s.cw.ser ∧
      r.extractLsb' 60 4 = s.cw.btn ∧ r.getLsbD 64 = s.cw.lowbat ∧ r.getLsbD 65 = b ∧
      r.extractLsb' 66 6 = 0#6 ∧
      exec (.edge sub smp) s =
        .next { s with
          cw := { s.cw with rpt := b, popRpt := true }
          blockStart := none, bitCount := 0#7, teCount := 0#6, phase := .preamble
          prev := some smp
          pending := s.pending ++
            [.ann ⟨.logicalBit, p, e, valueOfBit b⟩,
             .ann ⟨.rptBlock, s.blockStart.getD p, e, 0#32⟩,
             .ann ⟨.rptValue, p, e, valueOfBit b⟩,
             .cw r] }

/-- Bits 0 to 31 go to acc by weight, and bit 31 closes the Encrypted field. Formalises R162, R163. -/
def Obligations.EncryptedBitsAccumulate : Prop :=
  ∀ (sub : BitVec 4) (p smp bs : Sample) (s : State), edgeTimed s sub p smp →
    s.phase = .dataEnd → s.bitCount.toNat ≤ 31 → s.blockStart = some bs →
    ∃ a : Word32, bitSet s.acc a s.bitCount.toNat s.pendBit ∧
      (s.bitCount.toNat < 31 →
        exec (.edge sub smp) s =
          .next { s with
            acc := a, bitCount := BitVec.ofNat 7 (s.bitCount.toNat + 1), phase := .data
            prev := some smp
            pending := s.pending ++
              [.ann ⟨.logicalBit, s.bitStart, smp, valueOfBit s.pendBit⟩] }) ∧
      (s.bitCount.toNat = 31 →
        exec (.edge sub smp) s =
          .next { s with
            acc := 0#32, cw := { s.cw with enc := a, popEnc := true }, blockStart := none
            bitCount := 32#7, phase := .data, prev := some smp
            pending := s.pending ++
              [.ann ⟨.logicalBit, s.bitStart, smp, valueOfBit s.pendBit⟩,
               .ann ⟨.encBlock, bs, smp, 0#32⟩,
               .ann ⟨.encValue, bs, smp, a⟩] })

/-- Bits 32 to 59 go to acc from weight 0, and bit 59 closes the SerialNumber field. Formalises R164, R165. -/
def Obligations.SerialBitsAccumulate : Prop :=
  ∀ (sub : BitVec 4) (p smp bs : Sample) (s : State), edgeTimed s sub p smp →
    s.phase = .dataEnd → 32 ≤ s.bitCount.toNat → s.bitCount.toNat ≤ 59 →
    s.blockStart = some bs →
    ∃ a : Word32, bitSet s.acc a (s.bitCount.toNat - 32) s.pendBit ∧
      (s.bitCount.toNat < 59 →
        exec (.edge sub smp) s =
          .next { s with
            acc := a, bitCount := BitVec.ofNat 7 (s.bitCount.toNat + 1), phase := .data
            prev := some smp
            pending := s.pending ++
              [.ann ⟨.logicalBit, s.bitStart, smp, valueOfBit s.pendBit⟩] }) ∧
      (s.bitCount.toNat = 59 →
        exec (.edge sub smp) s =
          .next { s with
            acc := 0#32, cw := { s.cw with ser := BitVec.ofNat 28 a.toNat, popSer := true }
            blockStart := none, bitCount := 60#7, phase := .data, prev := some smp
            pending := s.pending ++
              [.ann ⟨.logicalBit, s.bitStart, smp, valueOfBit s.pendBit⟩,
               .ann ⟨.serBlock, bs, smp, 0#32⟩,
               .ann ⟨.serValue, bs, smp, BitVec.ofNat 32 (a.toNat % 2 ^ 28)⟩] })

/-- Bits 60 to 63 set S3, S0, S1, S2 in that order, each with its record; bit 63 closes the group.
Formalises R166, R167. -/
def Obligations.ButtonBitsInOrder : Prop :=
  ∀ (sub : BitVec 4) (p smp bs : Sample) (s : State) (k : Nat), edgeTimed s sub p smp →
    s.phase = .dataEnd → k ≤ 3 → s.bitCount.toNat = 60 + k → s.blockStart = some bs →
    ∃ a : BitVec 4, bitSet s.cw.btn a k s.pendBit ∧
      exec (.edge sub smp) s =
        .next { s with
          cw := { s.cw with
            btn := a
            popS3 := s.cw.popS3 || k == 0
            popS0 := s.cw.popS0 || k == 1
            popS1 := s.cw.popS1 || k == 2
            popS2 := s.cw.popS2 || k == 3 }
          blockStart := if k = 3 then none else some bs
          bitCount := BitVec.ofNat 7 (61 + k), phase := .data, prev := some smp
          pending := s.pending ++
            (.ann ⟨.logicalBit, s.bitStart, smp, valueOfBit s.pendBit⟩ ::
             .ann ⟨.buttonBit, s.bitStart, smp, BitVec.ofNat 32 (2 * k + s.pendBit.toNat)⟩ ::
             (if k = 3 then [.ann ⟨.buttonCode, bs, smp, BitVec.ofNat 32 a.toNat⟩] else [])) }

/-- Bit 64 sets LowBattery with its two records and closes its block. Formalises R168. -/
def Obligations.LowBatteryBitAtOnce : Prop :=
  ∀ (sub : BitVec 4) (p smp bs : Sample) (s : State), edgeTimed s sub p smp →
    s.phase = .dataEnd → s.bitCount = 64#7 → s.blockStart = some bs →
    exec (.edge sub smp) s =
      .next { s with
        cw := { s.cw with lowbat := s.pendBit, popLowbat := true }
        blockStart := none, bitCount := 65#7, phase := .data, prev := some smp
        pending := s.pending ++
          [.ann ⟨.logicalBit, s.bitStart, smp, valueOfBit s.pendBit⟩,
           .ann ⟨.vlowBlock, bs, smp, 0#32⟩,
           .ann ⟨.vlowValue, s.bitStart, smp, valueOfBit s.pendBit⟩] }

/-- The length of the second half of a symbol changes nothing but the samples recorded. Formalises R148. -/
def Obligations.SecondHalfIsNotChecked : Prop :=
  ∀ (sub1 sub2 : BitVec 4) (p smp1 smp2 : Sample) (s : State),
    edgeTimed s sub1 p smp1 → edgeTimed s sub2 p smp2 → s.phase = .dataEnd →
    s.bitCount.toNat < 65 →
    ∃ t1 t2 outs1 outs2,
      exec (.edge sub1 smp1) s = .next t1 ∧ exec (.edge sub2 smp2) s = .next t2 ∧
      t1.pending = s.pending ++ outs1 ∧ t2.pending = s.pending ++ outs2 ∧
      t1.phase = .data ∧ some .invalidBit ∉ outs1.map OutRecord.kind? ∧
      outs1.map OutRecord.eraseEnd = outs2.map OutRecord.eraseEnd ∧
      { t1 with prev := none, pending := [] } = { t2 with prev := none, pending := [] }

/-- After the anchor the polarity of an edge changes nothing but the fault record of ORDER. Derived from
44_commands.md section 2. -/
def Obligations.PolarityIgnoredAfterTheAnchor : Prop :=
  ∀ (smp : Sample) (s : State), edgeLegal s 0#4 smp → s.phase ≠ .anchor →
    ∃ t1 t0, exec (.edge 0x1#4 smp) s = .next t1 ∧ exec (.edge 0x0#4 smp) s = .next t0 ∧
      (t0.faultCode = .noFault → t1 = t0) ∧
      (t0.faulted → t1.faulted ∧ t0.faultInfo = 0x40#8 ∧ t1.faultInfo = 0x41#8 ∧
        t1 = { t0 with faultInfo := 0x41#8 })

/-- N_STD standard pulses and a header gap bring the block to DATA. Derived from 41_preamble_header.md
section 4. -/
def Obligations.StandardPreambleIsAcquired : Prop :=
  ∀ (s : State) (p : Sample) (ds : List (Bool × Nat)) (last gap : Bool × Nat),
    s.faultCode = .noFault → s.phase = .preamble → s.teCount = 0#6 → s.prev = some p →
    s.cfg.wf → s.cfg.nStd < s.cfg.nShort → ds.length + 1 = s.cfg.nStd →
    hostDuties s.cfg.sampleW p.toNat (ds ++ [last, gap]) →
    (∀ d ∈ ds, s.lut.bit1.has d.2) → s.lut.bit1.has last.2 → s.lut.header.has gap.2 →
    (s.cfg.overlap = .shortFirst → ¬ s.lut.preShort.has last.2) →
    ∃ t u,
      execAll (edgesAfter p.toNat (ds ++ [last])) s = .next t ∧
      t.phase = .header ∧ t.teCount.toNat = s.cfg.nStd + 1 ∧ t.variant = .std ∧
      execAll (edgesAfter p.toNat (ds ++ [last, gap])) s = .next u ∧
      u.phase = .data ∧ u.teCount = 0#6 ∧ u.bitCount = 0#7 ∧ u.faultCode = .noFault

/-- N_SHORT short pulses and a header gap bring the block to DATA, given the policy’s condition. Derived
from 41_preamble_header.md section 1, 41_preamble_header.md section 4, 90_conflicts.md C3. -/
def Obligations.ShortPreambleIsAcquired : Prop :=
  ∀ (s : State) (p : Sample) (pre post : List (Bool × Nat)) (mid gap : Bool × Nat),
    s.faultCode = .noFault → s.phase = .preamble → s.teCount = 0#6 → s.prev = some p →
    s.cfg.wf → s.cfg.nStd < s.cfg.nShort → pre.length + 1 = s.cfg.nStd →
    pre.length + 1 + post.length = s.cfg.nShort →
    hostDuties s.cfg.sampleW p.toNat (pre ++ mid :: post ++ [gap]) →
    (∀ d ∈ pre ++ mid :: post, s.lut.preShort.has d.2) → s.lut.header.has gap.2 →
    (s.cfg.overlap = .union → ¬ s.lut.bit1.has mid.2) →
    (s.cfg.overlap = .stdFirst → ∀ d ∈ mid :: post, ¬ s.lut.bit1.has d.2) →
    ∃ t u,
      execAll (edgesAfter p.toNat (pre ++ mid :: post)) s = .next t ∧
      t.phase = .header ∧ t.teCount.toNat = s.cfg.nShort + 1 ∧ t.variant = .short ∧
      execAll (edgesAfter p.toNat (pre ++ mid :: post ++ [gap])) s = .next u ∧
      u.phase = .data ∧ u.teCount = 0#6 ∧ u.bitCount = 0#7 ∧ u.faultCode = .noFault

/-- The 131 edges of a data portion yield its annotations in order and one code word with the bits received.
Derived from 43_field_assembler.md section 6, 42_bit_resolver.md section 3, 30_encoding.md section 3. -/
def Obligations.DataPortionYieldsTheCodeWord : Prop :=
  ∀ (s : State) (p : Sample) (ds : List (Bool × Nat)) (b : Nat → Bool),
    s.faultCode = .noFault → s.phase = .data → s.bitCount = 0#7 → s.acc = 0#32 →
    s.blockStart = none → s.prev = some p → s.cfg.sampleW ≤ 64 → ds.length = 131 →
    hostDuties s.cfg.sampleW p.toNat ds →
    (∀ q < 66, ∀ d, ds[2 * q]? = some d → halfBit s d.2 (b q)) →
    ∃ t anns r,
      execAll (edgesAfter p.toNat ds) s = .next t ∧
      t.phase = .preamble ∧ t.bitCount = 0#7 ∧ t.teCount = 0#6 ∧ t.blockStart = none ∧
      t.acc = 0#32 ∧ t.faultCode = .noFault ∧ t.cw.popAll true = true ∧
      t.pending = s.pending ++ anns ++ [.cw r] ∧
      anns.map OutRecord.kind? = ((List.range 66).flatMap kindsOfBit).map some ∧
      anns.length = 79 ∧
      (∀ q < 66, r.getLsbD q = b q) ∧ (∀ q, 66 ≤ q → r.getLsbD q = false)

/-- A command adds at most three annotations and one code word, and only EDGE adds any. Derived from
70_reset_and_hazards.md section 3. -/
def Obligations.OutputsPerCommandAreBounded : Prop :=
  ∀ (i : Instr) (s t : State), exec i s = .next t →
    ∃ anns cws, t.pending = s.pending ++ anns ++ cws ∧
      (∀ o ∈ anns, ∃ a, o = .ann a) ∧ (∀ o ∈ cws, ∃ r, o = .cw r) ∧
      anns.length ≤ 3 ∧ cws.length ≤ 1 ∧
      (i.op ≠ 0x4#4 → anns = [] ∧ cws = []) ∧
      (cws ≠ [] → anns.length = 3 ∧ 65 ≤ s.bitCount.toNat ∧
        (s.phase = .data ∨ s.phase = .dataEnd))

/-- Each annotation of an edge starts before that edge and ends at it, but for the pad of a valid bit 65.
Derived from 20_memory.md section 3. -/
def Obligations.EndSamplesFollowTheEdge : Prop :=
  ∀ (sub : BitVec 4) (p smp : Sample) (s : State), edgeTimed s sub p smp → s.phase.timed →
    SpanInv s →
    ∃ t outs, exec (.edge sub smp) s = .next t ∧ t.pending = s.pending ++ outs ∧
      ∀ a : Annotation, OutRecord.ann a ∈ outs →
        a.first.toNat < smp.toNat ∧
        if s.phase = .data ∧ s.bitCount = 65#7 ∧
            (s.lut.bit1.has (smp.toNat - p.toNat) ∨ s.lut.bit0.has (smp.toNat - p.toNat)) then
          a.last.toNat = (smp.toNat + s.lastBitPad.toNat) % 2 ^ s.cfg.sampleW
        else a.last = smp

/-- When a code word is emitted every populated flag is 1 and the record is the code-word register. Derived
from 43_field_assembler.md section 5. -/
def Obligations.CodeWordIsFullyPopulated : Prop :=
  ∀ (i : Instr) (s t : State) (outs : List OutRecord) (r : BitVec 72),
    PhaseInv s → WordInv s → exec i s = .next t → t.pending = s.pending ++ outs →
    OutRecord.cw r ∈ outs →
    t.cw.popAll true = true ∧ r.extractLsb' 0 32 = t.cw.enc ∧ r.extractLsb' 32 28 = t.cw.ser ∧
      r.extractLsb' 60 4 = t.cw.btn ∧ r.getLsbD 64 = t.cw.lowbat ∧ r.getLsbD 65 = t.cw.rpt

/-- Every step keeps the counters, prev and block_start consistent with the phase. Derived from 10_state.md
section 2, 41_preamble_header.md section 2. -/
def Obligations.PhaseInvariantIsKept : Prop :=
  ∀ s t : State, PhaseInv s → step s = .next t → PhaseInv t

/-- Every step keeps the sample registers within SAMPLE_W bits and before the last edge. Derived from
10_state.md section 2, 44_commands.md section 2. -/
def Obligations.SpanInvariantIsKept : Prop :=
  ∀ s t : State, SpanInv s → step s = .next t → SpanInv t

/-- Every step keeps acc to the bits of the field under way and the populated flags to the positions passed.
Derived from 10_state.md section 2, 43_field_assembler.md section 1. -/
def Obligations.WordInvariantIsKept : Prop :=
  ∀ s t : State, PhaseInv s → WordInv s → step s = .next t → WordInv t

/-- Every step keeps the LUT scaled to a known rate in a session, and the fault record consistent. Derived
from 10_state.md section 3, 60_exceptions.md section 1. -/
def Obligations.SessionInvariantIsKept : Prop :=
  ∀ s t : State, LutInv s → FaultInv s → step s = .next t → LutInv t ∧ FaultInv t

/-- A buffer of three annotations and one code word suffices in every step. Derived from
70_reset_and_hazards.md section 3. -/
def Obligations.OutputBufferSuffices : Prop :=
  ∀ s t : State, fitsBuffer s.pending → step s = .next t → fitsBuffer t.pending

/-- The reset state meets every invariant. Derived from 10_state.md section 5. -/
def Obligations.InvariantsHoldAtReset : Prop :=
  PhaseInv State.reset ∧ SpanInv State.reset ∧ WordInv State.reset ∧ LutInv State.reset ∧
  FaultInv State.reset ∧ fitsBuffer State.reset.pending

/-- The status port shows the registers at their places, and the six phases have the codes 0 to 5. Derived
from 30_encoding.md section 3, 10_state.md section 2. That the port shows the registers as they are
while records still wait is the model's choice (log 19). -/
def Obligations.StatusWordShowsTheState : Prop :=
  [Phase.idle, .anchor, .preamble, .header, .data, .dataEnd].map Phase.code =
    [0#3, 1#3, 2#3, 3#3, 4#3, 5#3] ∧
  [Variant.std, .short].map Variant.code = [0#1, 1#1] ∧
  ∀ s : State,
    s.stRate = s.sampleRate ∧ s.stPad = s.lastBitPad ∧ s.stFaultInfo = s.faultInfo ∧
    s.stWord.extractLsb' 0 3 = s.phase.code ∧ s.stWord.getLsbD 3 = (s.variant == .short) ∧
    s.stWord.extractLsb' 4 6 = s.teCount ∧ s.stWord.extractLsb' 10 7 = s.bitCount ∧
    s.stWord.extractLsb' 17 4 = s.faultCode.code ∧
    s.stWord.getLsbD 21 = s.blockStart.isSome ∧ s.stWord.getLsbD 22 = s.prev.isSome ∧
    s.stWord.getLsbD 23 = s.pendBit ∧ s.stWord.getLsbD 24 = s.cw.popEnc ∧
    s.stWord.getLsbD 25 = s.cw.popSer ∧ s.stWord.getLsbD 26 = s.cw.popS3 ∧
    s.stWord.getLsbD 27 = s.cw.popS0 ∧ s.stWord.getLsbD 28 = s.cw.popS1 ∧
    s.stWord.getLsbD 29 = s.cw.popS2 ∧ s.stWord.getLsbD 30 = s.cw.popLowbat ∧
    s.stWord.getLsbD 31 = s.cw.popRpt

/-- The records carry their fields at their places, kinds have the codes and categories of the table, and
the ports show the oldest record. Derived from 30_encoding.md section 3, 20_memory.md section 3. That a
record which no annotation has does not read, that only the oldest record is on its port, and when valid
is inactive, are the model's choice (log 6, 8, 21). -/
def Obligations.AnnotationRecordLayout : Prop :=
  ([Kind.teIndex, .preamble, .header, .logicalBit, .invalidBit, .encBlock, .encValue, .serBlock,
      .serValue, .buttonBit, .buttonCode, .vlowBlock, .vlowValue, .rptBlock, .rptValue].map
      fun k => (k.code, k.cat)) =
    [(0#5, 0#3), (1#5, 0#3), (2#5, 0#3), (3#5, 1#3), (4#5, 1#3), (5#5, 2#3), (6#5, 3#3),
      (7#5, 2#3), (8#5, 4#3), (9#5, 4#3), (10#5, 2#3), (11#5, 2#3), (12#5, 4#3), (13#5, 2#3),
      (14#5, 4#3)] ∧
  (∀ k : Kind, k.code.toNat ≤ 14 ∧ k.cat.toNat ≤ 4) ∧
  (∀ a : Annotation,
    a.record.extractLsb' 0 64 = a.first ∧ a.record.extractLsb' 64 64 = a.last ∧
    a.record.extractLsb' 128 32 = a.value ∧ a.record.extractLsb' 160 5 = a.kind.code ∧
    a.record.extractLsb' 165 3 = a.kind.cat ∧ Annotation.ofRecord a.record = some a ∧
    (∀ r : BitVec 168, Annotation.ofRecord r = some a → r = a.record) ∧
    ∀ (s : State) (os : List OutRecord), s.pending = .ann a :: os →
      s.annPort = (if s.pins.rst = false ∧ s.pins.cwoReady = true then some a.record else none) ∧
      s.cwoPort = none) ∧
  (∀ c : CodeWord,
    c.record.extractLsb' 0 32 = c.enc ∧ c.record.extractLsb' 32 28 = c.ser ∧
    c.record.getLsbD 60 = c.btn.getLsbD 0 ∧ c.record.getLsbD 61 = c.btn.getLsbD 1 ∧
    c.record.getLsbD 62 = c.btn.getLsbD 2 ∧ c.record.getLsbD 63 = c.btn.getLsbD 3 ∧
    c.record.getLsbD 64 = c.lowbat ∧ c.record.getLsbD 65 = c.rpt ∧
    c.record.extractLsb' 66 6 = 0#6) ∧
  (∀ (s : State) (r : BitVec 72) (os : List OutRecord), s.pending = .cw r :: os →
    s.cwoPort = (if s.pins.rst = false ∧ s.pins.annReady = true then some r else none) ∧
    s.annPort = none) ∧
  (∀ s : State, s.pending = [] → s.annPort = none ∧ s.cwoPort = none)

/-- Words are stored as bytes with byte k holding bits 8k+7 down to 8k. Formalises R51. -/
def Obligations.BytesAreLittleEndian : Prop :=
  (∀ w : CmdWord, (bytesLE 9 w).length = 9 ∧
    ∀ k < 9, (bytesLE 9 w)[k]? = some (BitVec.ofNat 8 (w.toNat / 2 ^ (8 * k)))) ∧
  (∀ a : Annotation, (OutRecord.ann a).bytes.length = 21 ∧
    ∀ k < 21, (OutRecord.ann a).bytes[k]? = some (BitVec.ofNat 8 (a.record.toNat / 2 ^ (8 * k)))) ∧
  (∀ r : BitVec 72, (OutRecord.cw r).bytes.length = 9 ∧
    ∀ k < 9, (OutRecord.cw r).bytes[k]? = some (BitVec.ofNat 8 (r.toNat / 2 ^ (8 * k)))) ∧
  (∀ (i : Instr) (s t : State) (outs : List OutRecord) (r : BitVec 72),
    exec i s = .next t → t.pending = s.pending ++ outs → OutRecord.cw r ∈ outs →
    r.toNat < 2 ^ 66)

/-- HEX7 is 0x and the digits of the value, padded to seven and never truncated. Formalises R169. -/
def Obligations.HexTextIsExact : Prop :=
  ∀ v : Word32, ∃ ds, hex7 v = '0' :: 'x' :: ds ∧
    ds.length = (if v.toNat < 2 ^ 28 then 7 else 8) ∧
    (∀ c ∈ ds, (48 ≤ c.toNat ∧ c.toNat ≤ 57) ∨ (65 ≤ c.toNat ∧ c.toNat ≤ 70)) ∧
    parseDigits hexDigit 16 0 ds = some v.toNat

/-- DEDGE and TOG expand to one EDGE relative to the EDGE before. Formalises R74. -/
def Obligations.PseudoInstructionsExpand : Prop :=
  ∀ (p q : Bool) (x d : Nat), x + d < 2 ^ 64 →
    AsmLine.expand ⟨some p, x⟩ (.dedge q d) = AsmLine.expand ⟨some p, x⟩ (.edge q (x + d)) ∧
    AsmLine.expand ⟨some p, x⟩ (.tog d) = AsmLine.expand ⟨some p, x⟩ (.edge (!p) (x + d)) ∧
    AsmLine.expand .start (.dedge q d) = AsmLine.expand .start (.edge q d) ∧
    AsmLine.expand .start (.tog d) = AsmLine.expand .start (.edge true d) ∧
    AsmLine.expand ⟨some p, x⟩ (.edge q (x + d)) =
      some (.edge (BitVec.ofNat 4 q.toNat) (BitVec.ofNat 64 (x + d)), ⟨some q, x + d⟩)
end

