-- ==== Sys2Proof/Laws/Decode.lean ====
section
/-! SUPPORT. What the decoder's helpers do (30_encoding.md R61, 20_memory.md R51). -/

namespace Sys2Proof

@[simp] theorem bytesLE_length {w : Nat} (n : Nat) (v : BitVec w) : (bytesLE n v).length = n := by
  simp [bytesLE]

/-- Byte `k` of a word is its bits from `8k` up (20_memory.md R51). -/
theorem byteOf_toNat {w : Nat} (v : BitVec w) (k : Nat) :
    (byteOf v k).toNat = v.toNat / 2 ^ (8 * k) % 256 := by
  simp [byteOf, BitVec.extractLsb'_toNat, Nat.shiftRight_eq_div_pow]

/-- The bytes of a number in little-endian order make up the number again. -/
theorem natOfBytesLE_map_range (f : Nat → Byte) (x : Nat)
    (hf : ∀ k, (f k).toNat = x / 2 ^ (8 * k) % 256) (n a : Nat) :
    natOfBytesLE ((List.range' a n).map f) = x / 2 ^ (8 * a) % 2 ^ (8 * n) := by
  induction n generalizing a with
  | zero => simp [natOfBytesLE, Nat.mod_one]
  | succ n ih =>
    rw [List.range'_succ, List.map_cons, natOfBytesLE, hf, ih (a + 1),
      show 8 * (a + 1) = 8 * a + 8 by omega, show 8 * (n + 1) = 8 + 8 * n by omega,
      Nat.pow_add 2 8, Nat.pow_add, ← Nat.div_div_eq_div_mul,
      Nat.mod_mul (x := x / 2 ^ (8 * a))]

/-- Serialising a word and reading it back gives the word's number (20_memory.md R51). -/
theorem natOfBytesLE_bytesLE {w : Nat} (n : Nat) (v : BitVec w) :
    natOfBytesLE (bytesLE n v) = v.toNat % 2 ^ (8 * n) := by
  rw [bytesLE, List.range_eq_range',
    natOfBytesLE_map_range (byteOf v) v.toNat (byteOf_toNat v) n 0]
  simp

/-- The number of two words side by side. -/
theorem append_toNat {m n : Nat} (x : BitVec m) (y : BitVec n) :
    (x ++ y).toNat = x.toNat * 2 ^ n + y.toNat := by
  rw [BitVec.toNat_append, ← Nat.shiftLeft_add_eq_or_of_lt y.isLt, Nat.shiftLeft_eq]

/-- The number of an encoded command (30_encoding.md R61). -/
theorem encodeWord_toNat (i : Instr) :
    (encodeWord i).toNat = (i.op.toNat * 2 ^ 4 + i.sub.toNat) * 2 ^ 64 + i.payload.toNat := by
  have h : (encodeWord i).toNat = ((i.op ++ i.sub) ++ i.payload).toNat := rfl
  rw [h, append_toNat, append_toNat]

/-- A field of a word, as a number. -/
theorem field_toNat {w : Nat} (v : BitVec w) (lo n : Nat) :
    (v.extractLsb' lo n).toNat = v.toNat / 2 ^ lo % 2 ^ n := by
  rw [BitVec.extractLsb'_toNat, Nat.shiftRight_eq_div_pow]

/-- The fields of an encoded command stand where 30_encoding.md R61 puts them. -/
theorem encodeWord_op (i : Instr) : (encodeWord i).extractLsb' 68 4 = i.op := by
  apply BitVec.eq_of_toNat_eq
  have h1 := i.op.isLt
  have h2 := i.sub.isLt
  have h3 := i.payload.isLt
  rw [field_toNat, encodeWord_toNat]
  omega

theorem encodeWord_sub (i : Instr) : (encodeWord i).extractLsb' 64 4 = i.sub := by
  apply BitVec.eq_of_toNat_eq
  have h2 := i.sub.isLt
  have h3 := i.payload.isLt
  rw [field_toNat, encodeWord_toNat]
  omega

theorem encodeWord_payload (i : Instr) : (encodeWord i).extractLsb' 0 64 = i.payload := by
  apply BitVec.eq_of_toNat_eq
  have h3 := i.payload.isLt
  rw [field_toNat, encodeWord_toNat]
  omega

/-- The three fields of a command word are all of it (30_encoding.md R61). -/
theorem cmdWord_ext {v w : CmdWord} (hop : v.extractLsb' 68 4 = w.extractLsb' 68 4)
    (hsub : v.extractLsb' 64 4 = w.extractLsb' 64 4)
    (hpay : v.extractLsb' 0 64 = w.extractLsb' 0 64) : v = w := by
  apply BitVec.eq_of_toNat_eq
  have h1 := congrArg BitVec.toNat hop
  have h2 := congrArg BitVec.toNat hsub
  have h3 := congrArg BitVec.toNat hpay
  have hv := v.isLt
  have hw := w.isLt
  simp [BitVec.extractLsb'_toNat, Nat.shiftRight_eq_div_pow] at h1 h2 h3
  omega

end Sys2Proof
end

