-- ==== Sys2Proof/Laws/State.lean ====
section
/-! SUPPORT. What each shared update of the state does to each field, by definition. A field an update
leaves alone reads as before. -/

namespace Sys2Proof.Machine

@[simp] theorem emit_cfg (s : State) (k : Kind) (a b : Sample) (v : Word32) : (s.emit k a b v).cfg = s.cfg := rfl
@[simp] theorem emit_phase (s : State) (k : Kind) (a b : Sample) (v : Word32) : (s.emit k a b v).phase = s.phase := rfl
@[simp] theorem emit_teCount (s : State) (k : Kind) (a b : Sample) (v : Word32) : (s.emit k a b v).teCount = s.teCount := rfl
@[simp] theorem emit_variant (s : State) (k : Kind) (a b : Sample) (v : Word32) : (s.emit k a b v).variant = s.variant := rfl
@[simp] theorem emit_bitCount (s : State) (k : Kind) (a b : Sample) (v : Word32) : (s.emit k a b v).bitCount = s.bitCount := rfl
@[simp] theorem emit_blockStart (s : State) (k : Kind) (a b : Sample) (v : Word32) : (s.emit k a b v).blockStart = s.blockStart := rfl
@[simp] theorem emit_prev (s : State) (k : Kind) (a b : Sample) (v : Word32) : (s.emit k a b v).prev = s.prev := rfl
@[simp] theorem emit_bitStart (s : State) (k : Kind) (a b : Sample) (v : Word32) : (s.emit k a b v).bitStart = s.bitStart := rfl
@[simp] theorem emit_pendBit (s : State) (k : Kind) (a b : Sample) (v : Word32) : (s.emit k a b v).pendBit = s.pendBit := rfl
@[simp] theorem emit_acc (s : State) (k : Kind) (a b : Sample) (v : Word32) : (s.emit k a b v).acc = s.acc := rfl
@[simp] theorem emit_cw (s : State) (k : Kind) (a b : Sample) (v : Word32) : (s.emit k a b v).cw = s.cw := rfl
@[simp] theorem emit_sampleRate (s : State) (k : Kind) (a b : Sample) (v : Word32) : (s.emit k a b v).sampleRate = s.sampleRate := rfl
@[simp] theorem emit_lastBitPad (s : State) (k : Kind) (a b : Sample) (v : Word32) : (s.emit k a b v).lastBitPad = s.lastBitPad := rfl
@[simp] theorem emit_lut (s : State) (k : Kind) (a b : Sample) (v : Word32) : (s.emit k a b v).lut = s.lut := rfl
@[simp] theorem emit_faultCode (s : State) (k : Kind) (a b : Sample) (v : Word32) : (s.emit k a b v).faultCode = s.faultCode := rfl
@[simp] theorem emit_faultInfo (s : State) (k : Kind) (a b : Sample) (v : Word32) : (s.emit k a b v).faultInfo = s.faultInfo := rfl
@[simp] theorem emit_pins (s : State) (k : Kind) (a b : Sample) (v : Word32) : (s.emit k a b v).pins = s.pins := rfl
@[simp] theorem emit_pinsAhead (s : State) (k : Kind) (a b : Sample) (v : Word32) : (s.emit k a b v).pinsAhead = s.pinsAhead := rfl
@[simp] theorem emit_cmdIn (s : State) (k : Kind) (a b : Sample) (v : Word32) : (s.emit k a b v).cmdIn = s.cmdIn := rfl
@[simp] theorem emit_pending (s : State) (k : Kind) (a b : Sample) (v : Word32) : (s.emit k a b v).pending = s.pending ++ [.ann ⟨k, a, b, v⟩] := rfl
@[simp] theorem emit_delivered (s : State) (k : Kind) (a b : Sample) (v : Word32) : (s.emit k a b v).delivered = s.delivered := rfl

@[simp] theorem emitCW_cfg (s : State) (r : BitVec 72) : (s.emitCW r).cfg = s.cfg := rfl
@[simp] theorem emitCW_phase (s : State) (r : BitVec 72) : (s.emitCW r).phase = s.phase := rfl
@[simp] theorem emitCW_teCount (s : State) (r : BitVec 72) : (s.emitCW r).teCount = s.teCount := rfl
@[simp] theorem emitCW_variant (s : State) (r : BitVec 72) : (s.emitCW r).variant = s.variant := rfl
@[simp] theorem emitCW_bitCount (s : State) (r : BitVec 72) : (s.emitCW r).bitCount = s.bitCount := rfl
@[simp] theorem emitCW_blockStart (s : State) (r : BitVec 72) : (s.emitCW r).blockStart = s.blockStart := rfl
@[simp] theorem emitCW_prev (s : State) (r : BitVec 72) : (s.emitCW r).prev = s.prev := rfl
@[simp] theorem emitCW_bitStart (s : State) (r : BitVec 72) : (s.emitCW r).bitStart = s.bitStart := rfl
@[simp] theorem emitCW_pendBit (s : State) (r : BitVec 72) : (s.emitCW r).pendBit = s.pendBit := rfl
@[simp] theorem emitCW_acc (s : State) (r : BitVec 72) : (s.emitCW r).acc = s.acc := rfl
@[simp] theorem emitCW_cw (s : State) (r : BitVec 72) : (s.emitCW r).cw = s.cw := rfl
@[simp] theorem emitCW_sampleRate (s : State) (r : BitVec 72) : (s.emitCW r).sampleRate = s.sampleRate := rfl
@[simp] theorem emitCW_lastBitPad (s : State) (r : BitVec 72) : (s.emitCW r).lastBitPad = s.lastBitPad := rfl
@[simp] theorem emitCW_lut (s : State) (r : BitVec 72) : (s.emitCW r).lut = s.lut := rfl
@[simp] theorem emitCW_faultCode (s : State) (r : BitVec 72) : (s.emitCW r).faultCode = s.faultCode := rfl
@[simp] theorem emitCW_faultInfo (s : State) (r : BitVec 72) : (s.emitCW r).faultInfo = s.faultInfo := rfl
@[simp] theorem emitCW_pins (s : State) (r : BitVec 72) : (s.emitCW r).pins = s.pins := rfl
@[simp] theorem emitCW_pinsAhead (s : State) (r : BitVec 72) : (s.emitCW r).pinsAhead = s.pinsAhead := rfl
@[simp] theorem emitCW_cmdIn (s : State) (r : BitVec 72) : (s.emitCW r).cmdIn = s.cmdIn := rfl
@[simp] theorem emitCW_pending (s : State) (r : BitVec 72) : (s.emitCW r).pending = s.pending ++ [.cw r] := rfl
@[simp] theorem emitCW_delivered (s : State) (r : BitVec 72) : (s.emitCW r).delivered = s.delivered := rfl

@[simp] theorem closeBlock_cfg (s : State) : s.closeBlock.cfg = s.cfg := rfl
@[simp] theorem closeBlock_phase (s : State) : s.closeBlock.phase = s.phase := rfl
@[simp] theorem closeBlock_teCount (s : State) : s.closeBlock.teCount = s.teCount := rfl
@[simp] theorem closeBlock_variant (s : State) : s.closeBlock.variant = s.variant := rfl
@[simp] theorem closeBlock_bitCount (s : State) : s.closeBlock.bitCount = s.bitCount := rfl
@[simp] theorem closeBlock_blockStart (s : State) : s.closeBlock.blockStart = none := rfl
@[simp] theorem closeBlock_prev (s : State) : s.closeBlock.prev = s.prev := rfl
@[simp] theorem closeBlock_bitStart (s : State) : s.closeBlock.bitStart = s.bitStart := rfl
@[simp] theorem closeBlock_pendBit (s : State) : s.closeBlock.pendBit = s.pendBit := rfl
@[simp] theorem closeBlock_acc (s : State) : s.closeBlock.acc = s.acc := rfl
@[simp] theorem closeBlock_cw (s : State) : s.closeBlock.cw = s.cw := rfl
@[simp] theorem closeBlock_sampleRate (s : State) : s.closeBlock.sampleRate = s.sampleRate := rfl
@[simp] theorem closeBlock_lastBitPad (s : State) : s.closeBlock.lastBitPad = s.lastBitPad := rfl
@[simp] theorem closeBlock_lut (s : State) : s.closeBlock.lut = s.lut := rfl
@[simp] theorem closeBlock_faultCode (s : State) : s.closeBlock.faultCode = s.faultCode := rfl
@[simp] theorem closeBlock_faultInfo (s : State) : s.closeBlock.faultInfo = s.faultInfo := rfl
@[simp] theorem closeBlock_pins (s : State) : s.closeBlock.pins = s.pins := rfl
@[simp] theorem closeBlock_pinsAhead (s : State) : s.closeBlock.pinsAhead = s.pinsAhead := rfl
@[simp] theorem closeBlock_cmdIn (s : State) : s.closeBlock.cmdIn = s.cmdIn := rfl
@[simp] theorem closeBlock_pending (s : State) : s.closeBlock.pending = s.pending := rfl
@[simp] theorem closeBlock_delivered (s : State) : s.closeBlock.delivered = s.delivered := rfl

@[simp] theorem clearWord_cfg (s : State) : s.clearWord.cfg = s.cfg := rfl
@[simp] theorem clearWord_phase (s : State) : s.clearWord.phase = s.phase := rfl
@[simp] theorem clearWord_teCount (s : State) : s.clearWord.teCount = s.teCount := rfl
@[simp] theorem clearWord_variant (s : State) : s.clearWord.variant = s.variant := rfl
@[simp] theorem clearWord_bitCount (s : State) : s.clearWord.bitCount = s.bitCount := rfl
@[simp] theorem clearWord_blockStart (s : State) : s.clearWord.blockStart = s.blockStart := rfl
@[simp] theorem clearWord_prev (s : State) : s.clearWord.prev = s.prev := rfl
@[simp] theorem clearWord_bitStart (s : State) : s.clearWord.bitStart = s.bitStart := rfl
@[simp] theorem clearWord_pendBit (s : State) : s.clearWord.pendBit = s.pendBit := rfl
@[simp] theorem clearWord_acc (s : State) : s.clearWord.acc = 0#32 := rfl
@[simp] theorem clearWord_cw (s : State) : s.clearWord.cw = .empty := rfl
@[simp] theorem clearWord_sampleRate (s : State) : s.clearWord.sampleRate = s.sampleRate := rfl
@[simp] theorem clearWord_lastBitPad (s : State) : s.clearWord.lastBitPad = s.lastBitPad := rfl
@[simp] theorem clearWord_lut (s : State) : s.clearWord.lut = s.lut := rfl
@[simp] theorem clearWord_faultCode (s : State) : s.clearWord.faultCode = s.faultCode := rfl
@[simp] theorem clearWord_faultInfo (s : State) : s.clearWord.faultInfo = s.faultInfo := rfl
@[simp] theorem clearWord_pins (s : State) : s.clearWord.pins = s.pins := rfl
@[simp] theorem clearWord_pinsAhead (s : State) : s.clearWord.pinsAhead = s.pinsAhead := rfl
@[simp] theorem clearWord_cmdIn (s : State) : s.clearWord.cmdIn = s.cmdIn := rfl
@[simp] theorem clearWord_pending (s : State) : s.clearWord.pending = s.pending := rfl
@[simp] theorem clearWord_delivered (s : State) : s.clearWord.delivered = s.delivered := rfl

@[simp] theorem clearDecoder_cfg (s : State) : s.clearDecoder.cfg = s.cfg := rfl
@[simp] theorem clearDecoder_phase (s : State) : s.clearDecoder.phase = .idle := rfl
@[simp] theorem clearDecoder_teCount (s : State) : s.clearDecoder.teCount = 0#6 := rfl
@[simp] theorem clearDecoder_variant (s : State) : s.clearDecoder.variant = .std := rfl
@[simp] theorem clearDecoder_bitCount (s : State) : s.clearDecoder.bitCount = 0#7 := rfl
@[simp] theorem clearDecoder_blockStart (s : State) : s.clearDecoder.blockStart = none := rfl
@[simp] theorem clearDecoder_prev (s : State) : s.clearDecoder.prev = none := rfl
@[simp] theorem clearDecoder_bitStart (s : State) : s.clearDecoder.bitStart = 0#64 := rfl
@[simp] theorem clearDecoder_pendBit (s : State) : s.clearDecoder.pendBit = false := rfl
@[simp] theorem clearDecoder_acc (s : State) : s.clearDecoder.acc = 0#32 := rfl
@[simp] theorem clearDecoder_cw (s : State) : s.clearDecoder.cw = .empty := rfl
@[simp] theorem clearDecoder_sampleRate (s : State) : s.clearDecoder.sampleRate = s.sampleRate := rfl
@[simp] theorem clearDecoder_lastBitPad (s : State) : s.clearDecoder.lastBitPad = s.lastBitPad := rfl
@[simp] theorem clearDecoder_lut (s : State) : s.clearDecoder.lut = s.lut := rfl
@[simp] theorem clearDecoder_faultCode (s : State) : s.clearDecoder.faultCode = s.faultCode := rfl
@[simp] theorem clearDecoder_faultInfo (s : State) : s.clearDecoder.faultInfo = s.faultInfo := rfl
@[simp] theorem clearDecoder_pins (s : State) : s.clearDecoder.pins = s.pins := rfl
@[simp] theorem clearDecoder_pinsAhead (s : State) : s.clearDecoder.pinsAhead = s.pinsAhead := rfl
@[simp] theorem clearDecoder_cmdIn (s : State) : s.clearDecoder.cmdIn = s.cmdIn := rfl
@[simp] theorem clearDecoder_pending (s : State) : s.clearDecoder.pending = s.pending := rfl
@[simp] theorem clearDecoder_delivered (s : State) : s.clearDecoder.delivered = s.delivered := rfl

@[simp] theorem softReset_cfg (s : State) : s.softReset.cfg = s.cfg := rfl
@[simp] theorem softReset_phase (s : State) : s.softReset.phase = .idle := rfl
@[simp] theorem softReset_teCount (s : State) : s.softReset.teCount = 0#6 := rfl
@[simp] theorem softReset_variant (s : State) : s.softReset.variant = .std := rfl
@[simp] theorem softReset_bitCount (s : State) : s.softReset.bitCount = 0#7 := rfl
@[simp] theorem softReset_blockStart (s : State) : s.softReset.blockStart = none := rfl
@[simp] theorem softReset_prev (s : State) : s.softReset.prev = none := rfl
@[simp] theorem softReset_bitStart (s : State) : s.softReset.bitStart = 0#64 := rfl
@[simp] theorem softReset_pendBit (s : State) : s.softReset.pendBit = false := rfl
@[simp] theorem softReset_acc (s : State) : s.softReset.acc = 0#32 := rfl
@[simp] theorem softReset_cw (s : State) : s.softReset.cw = .empty := rfl
@[simp] theorem softReset_sampleRate (s : State) : s.softReset.sampleRate = s.sampleRate := rfl
@[simp] theorem softReset_lastBitPad (s : State) : s.softReset.lastBitPad = s.lastBitPad := rfl
@[simp] theorem softReset_lut (s : State) : s.softReset.lut = .zero := rfl
@[simp] theorem softReset_faultCode (s : State) : s.softReset.faultCode = .noFault := rfl
@[simp] theorem softReset_faultInfo (s : State) : s.softReset.faultInfo = 0#8 := rfl
@[simp] theorem softReset_pins (s : State) : s.softReset.pins = s.pins := rfl
@[simp] theorem softReset_pinsAhead (s : State) : s.softReset.pinsAhead = s.pinsAhead := rfl
@[simp] theorem softReset_cmdIn (s : State) : s.softReset.cmdIn = s.cmdIn := rfl
@[simp] theorem softReset_pending (s : State) : s.softReset.pending = s.pending := rfl
@[simp] theorem softReset_delivered (s : State) : s.softReset.delivered = s.delivered := rfl

@[simp] theorem hardReset_cfg (s : State) : s.hardReset.cfg = s.cfg := rfl
@[simp] theorem hardReset_phase (s : State) : s.hardReset.phase = .idle := rfl
@[simp] theorem hardReset_teCount (s : State) : s.hardReset.teCount = 0#6 := rfl
@[simp] theorem hardReset_variant (s : State) : s.hardReset.variant = .std := rfl
@[simp] theorem hardReset_bitCount (s : State) : s.hardReset.bitCount = 0#7 := rfl
@[simp] theorem hardReset_blockStart (s : State) : s.hardReset.blockStart = none := rfl
@[simp] theorem hardReset_prev (s : State) : s.hardReset.prev = none := rfl
@[simp] theorem hardReset_bitStart (s : State) : s.hardReset.bitStart = 0#64 := rfl
@[simp] theorem hardReset_pendBit (s : State) : s.hardReset.pendBit = false := rfl
@[simp] theorem hardReset_acc (s : State) : s.hardReset.acc = 0#32 := rfl
@[simp] theorem hardReset_cw (s : State) : s.hardReset.cw = .empty := rfl
@[simp] theorem hardReset_sampleRate (s : State) : s.hardReset.sampleRate = 0#32 := rfl
@[simp] theorem hardReset_lastBitPad (s : State) : s.hardReset.lastBitPad = s.cfg.padDefault := rfl
@[simp] theorem hardReset_lut (s : State) : s.hardReset.lut = .zero := rfl
@[simp] theorem hardReset_faultCode (s : State) : s.hardReset.faultCode = .noFault := rfl
@[simp] theorem hardReset_faultInfo (s : State) : s.hardReset.faultInfo = 0#8 := rfl
@[simp] theorem hardReset_pins (s : State) : s.hardReset.pins = s.pins := rfl
@[simp] theorem hardReset_pinsAhead (s : State) : s.hardReset.pinsAhead = s.pinsAhead := rfl
@[simp] theorem hardReset_cmdIn (s : State) : s.hardReset.cmdIn = s.cmdIn := rfl
@[simp] theorem hardReset_pending (s : State) : s.hardReset.pending = [] := rfl
@[simp] theorem hardReset_delivered (s : State) : s.hardReset.delivered = s.delivered := rfl

@[simp] theorem deliver_cfg (s : State) (o : OutRecord) (os : List OutRecord) : (s.deliver o os).cfg = s.cfg := rfl
@[simp] theorem deliver_phase (s : State) (o : OutRecord) (os : List OutRecord) : (s.deliver o os).phase = s.phase := rfl
@[simp] theorem deliver_teCount (s : State) (o : OutRecord) (os : List OutRecord) : (s.deliver o os).teCount = s.teCount := rfl
@[simp] theorem deliver_variant (s : State) (o : OutRecord) (os : List OutRecord) : (s.deliver o os).variant = s.variant := rfl
@[simp] theorem deliver_bitCount (s : State) (o : OutRecord) (os : List OutRecord) : (s.deliver o os).bitCount = s.bitCount := rfl
@[simp] theorem deliver_blockStart (s : State) (o : OutRecord) (os : List OutRecord) : (s.deliver o os).blockStart = s.blockStart := rfl
@[simp] theorem deliver_prev (s : State) (o : OutRecord) (os : List OutRecord) : (s.deliver o os).prev = s.prev := rfl
@[simp] theorem deliver_bitStart (s : State) (o : OutRecord) (os : List OutRecord) : (s.deliver o os).bitStart = s.bitStart := rfl
@[simp] theorem deliver_pendBit (s : State) (o : OutRecord) (os : List OutRecord) : (s.deliver o os).pendBit = s.pendBit := rfl
@[simp] theorem deliver_acc (s : State) (o : OutRecord) (os : List OutRecord) : (s.deliver o os).acc = s.acc := rfl
@[simp] theorem deliver_cw (s : State) (o : OutRecord) (os : List OutRecord) : (s.deliver o os).cw = s.cw := rfl
@[simp] theorem deliver_sampleRate (s : State) (o : OutRecord) (os : List OutRecord) : (s.deliver o os).sampleRate = s.sampleRate := rfl
@[simp] theorem deliver_lastBitPad (s : State) (o : OutRecord) (os : List OutRecord) : (s.deliver o os).lastBitPad = s.lastBitPad := rfl
@[simp] theorem deliver_lut (s : State) (o : OutRecord) (os : List OutRecord) : (s.deliver o os).lut = s.lut := rfl
@[simp] theorem deliver_faultCode (s : State) (o : OutRecord) (os : List OutRecord) : (s.deliver o os).faultCode = s.faultCode := rfl
@[simp] theorem deliver_faultInfo (s : State) (o : OutRecord) (os : List OutRecord) : (s.deliver o os).faultInfo = s.faultInfo := rfl
@[simp] theorem deliver_pins (s : State) (o : OutRecord) (os : List OutRecord) : (s.deliver o os).pins = s.pins := rfl
@[simp] theorem deliver_pinsAhead (s : State) (o : OutRecord) (os : List OutRecord) : (s.deliver o os).pinsAhead = s.pinsAhead := rfl
@[simp] theorem deliver_cmdIn (s : State) (o : OutRecord) (os : List OutRecord) : (s.deliver o os).cmdIn = s.cmdIn := rfl
@[simp] theorem deliver_pending (s : State) (o : OutRecord) (os : List OutRecord) : (s.deliver o os).pending = os := rfl
@[simp] theorem deliver_delivered (s : State) (o : OutRecord) (os : List OutRecord) : (s.deliver o os).delivered = s.delivered ++ [o] := rfl

@[simp] theorem accept_cfg (s : State) (ws : List CmdWord) : (s.accept ws).cfg = s.cfg := rfl
@[simp] theorem accept_phase (s : State) (ws : List CmdWord) : (s.accept ws).phase = s.phase := rfl
@[simp] theorem accept_teCount (s : State) (ws : List CmdWord) : (s.accept ws).teCount = s.teCount := rfl
@[simp] theorem accept_variant (s : State) (ws : List CmdWord) : (s.accept ws).variant = s.variant := rfl
@[simp] theorem accept_bitCount (s : State) (ws : List CmdWord) : (s.accept ws).bitCount = s.bitCount := rfl
@[simp] theorem accept_blockStart (s : State) (ws : List CmdWord) : (s.accept ws).blockStart = s.blockStart := rfl
@[simp] theorem accept_prev (s : State) (ws : List CmdWord) : (s.accept ws).prev = s.prev := rfl
@[simp] theorem accept_bitStart (s : State) (ws : List CmdWord) : (s.accept ws).bitStart = s.bitStart := rfl
@[simp] theorem accept_pendBit (s : State) (ws : List CmdWord) : (s.accept ws).pendBit = s.pendBit := rfl
@[simp] theorem accept_acc (s : State) (ws : List CmdWord) : (s.accept ws).acc = s.acc := rfl
@[simp] theorem accept_cw (s : State) (ws : List CmdWord) : (s.accept ws).cw = s.cw := rfl
@[simp] theorem accept_sampleRate (s : State) (ws : List CmdWord) : (s.accept ws).sampleRate = s.sampleRate := rfl
@[simp] theorem accept_lastBitPad (s : State) (ws : List CmdWord) : (s.accept ws).lastBitPad = s.lastBitPad := rfl
@[simp] theorem accept_lut (s : State) (ws : List CmdWord) : (s.accept ws).lut = s.lut := rfl
@[simp] theorem accept_faultCode (s : State) (ws : List CmdWord) : (s.accept ws).faultCode = s.faultCode := rfl
@[simp] theorem accept_faultInfo (s : State) (ws : List CmdWord) : (s.accept ws).faultInfo = s.faultInfo := rfl
@[simp] theorem accept_pins (s : State) (ws : List CmdWord) : (s.accept ws).pins = s.pins := rfl
@[simp] theorem accept_pinsAhead (s : State) (ws : List CmdWord) : (s.accept ws).pinsAhead = s.pinsAhead := rfl
@[simp] theorem accept_cmdIn (s : State) (ws : List CmdWord) : (s.accept ws).cmdIn = ws := rfl
@[simp] theorem accept_pending (s : State) (ws : List CmdWord) : (s.accept ws).pending = s.pending := rfl
@[simp] theorem accept_delivered (s : State) (ws : List CmdWord) : (s.accept ws).delivered = s.delivered := rfl

@[simp] theorem openBlock_cfg (s : State) : s.openBlock.cfg = s.cfg := by
  unfold State.openBlock; split <;> rfl
@[simp] theorem openBlock_phase (s : State) : s.openBlock.phase = s.phase := by
  unfold State.openBlock; split <;> rfl
@[simp] theorem openBlock_teCount (s : State) : s.openBlock.teCount = s.teCount := by
  unfold State.openBlock; split <;> rfl
@[simp] theorem openBlock_variant (s : State) : s.openBlock.variant = s.variant := by
  unfold State.openBlock; split <;> rfl
@[simp] theorem openBlock_bitCount (s : State) : s.openBlock.bitCount = s.bitCount := by
  unfold State.openBlock; split <;> rfl
@[simp] theorem openBlock_blockStart (s : State) :
    s.openBlock.blockStart = some (s.blockStart.getD s.prevBits) := by
  cases h : s.blockStart <;> simp [State.openBlock, State.blockStartV, h]
@[simp] theorem openBlock_prev (s : State) : s.openBlock.prev = s.prev := by
  unfold State.openBlock; split <;> rfl
@[simp] theorem openBlock_bitStart (s : State) : s.openBlock.bitStart = s.bitStart := by
  unfold State.openBlock; split <;> rfl
@[simp] theorem openBlock_pendBit (s : State) : s.openBlock.pendBit = s.pendBit := by
  unfold State.openBlock; split <;> rfl
@[simp] theorem openBlock_acc (s : State) : s.openBlock.acc = s.acc := by
  unfold State.openBlock; split <;> rfl
@[simp] theorem openBlock_cw (s : State) : s.openBlock.cw = s.cw := by
  unfold State.openBlock; split <;> rfl
@[simp] theorem openBlock_sampleRate (s : State) : s.openBlock.sampleRate = s.sampleRate := by
  unfold State.openBlock; split <;> rfl
@[simp] theorem openBlock_lastBitPad (s : State) : s.openBlock.lastBitPad = s.lastBitPad := by
  unfold State.openBlock; split <;> rfl
@[simp] theorem openBlock_lut (s : State) : s.openBlock.lut = s.lut := by
  unfold State.openBlock; split <;> rfl
@[simp] theorem openBlock_faultCode (s : State) : s.openBlock.faultCode = s.faultCode := by
  unfold State.openBlock; split <;> rfl
@[simp] theorem openBlock_faultInfo (s : State) : s.openBlock.faultInfo = s.faultInfo := by
  unfold State.openBlock; split <;> rfl
@[simp] theorem openBlock_pins (s : State) : s.openBlock.pins = s.pins := by
  unfold State.openBlock; split <;> rfl
@[simp] theorem openBlock_pinsAhead (s : State) : s.openBlock.pinsAhead = s.pinsAhead := by
  unfold State.openBlock; split <;> rfl
@[simp] theorem openBlock_cmdIn (s : State) : s.openBlock.cmdIn = s.cmdIn := by
  unfold State.openBlock; split <;> rfl
@[simp] theorem openBlock_pending (s : State) : s.openBlock.pending = s.pending := by
  unfold State.openBlock; split <;> rfl
@[simp] theorem openBlock_delivered (s : State) : s.openBlock.delivered = s.delivered := by
  unfold State.openBlock; split <;> rfl

@[simp] theorem raise_cfg (s : State) (c : FaultCode) (i : BitVec 8) :
    (s.raise c i).cfg = s.cfg := by
  unfold State.raise; split <;> rfl
@[simp] theorem raise_phase (s : State) (c : FaultCode) (i : BitVec 8) :
    (s.raise c i).phase = s.phase := by
  unfold State.raise; split <;> rfl
@[simp] theorem raise_teCount (s : State) (c : FaultCode) (i : BitVec 8) :
    (s.raise c i).teCount = s.teCount := by
  unfold State.raise; split <;> rfl
@[simp] theorem raise_variant (s : State) (c : FaultCode) (i : BitVec 8) :
    (s.raise c i).variant = s.variant := by
  unfold State.raise; split <;> rfl
@[simp] theorem raise_bitCount (s : State) (c : FaultCode) (i : BitVec 8) :
    (s.raise c i).bitCount = s.bitCount := by
  unfold State.raise; split <;> rfl
@[simp] theorem raise_blockStart (s : State) (c : FaultCode) (i : BitVec 8) :
    (s.raise c i).blockStart = s.blockStart := by
  unfold State.raise; split <;> rfl
@[simp] theorem raise_prev (s : State) (c : FaultCode) (i : BitVec 8) :
    (s.raise c i).prev = s.prev := by
  unfold State.raise; split <;> rfl
@[simp] theorem raise_bitStart (s : State) (c : FaultCode) (i : BitVec 8) :
    (s.raise c i).bitStart = s.bitStart := by
  unfold State.raise; split <;> rfl
@[simp] theorem raise_pendBit (s : State) (c : FaultCode) (i : BitVec 8) :
    (s.raise c i).pendBit = s.pendBit := by
  unfold State.raise; split <;> rfl
@[simp] theorem raise_acc (s : State) (c : FaultCode) (i : BitVec 8) :
    (s.raise c i).acc = s.acc := by
  unfold State.raise; split <;> rfl
@[simp] theorem raise_cw (s : State) (c : FaultCode) (i : BitVec 8) :
    (s.raise c i).cw = s.cw := by
  unfold State.raise; split <;> rfl
@[simp] theorem raise_sampleRate (s : State) (c : FaultCode) (i : BitVec 8) :
    (s.raise c i).sampleRate = s.sampleRate := by
  unfold State.raise; split <;> rfl
@[simp] theorem raise_lastBitPad (s : State) (c : FaultCode) (i : BitVec 8) :
    (s.raise c i).lastBitPad = s.lastBitPad := by
  unfold State.raise; split <;> rfl
@[simp] theorem raise_lut (s : State) (c : FaultCode) (i : BitVec 8) :
    (s.raise c i).lut = s.lut := by
  unfold State.raise; split <;> rfl
@[simp] theorem raise_pins (s : State) (c : FaultCode) (i : BitVec 8) :
    (s.raise c i).pins = s.pins := by
  unfold State.raise; split <;> rfl
@[simp] theorem raise_pinsAhead (s : State) (c : FaultCode) (i : BitVec 8) :
    (s.raise c i).pinsAhead = s.pinsAhead := by
  unfold State.raise; split <;> rfl
@[simp] theorem raise_cmdIn (s : State) (c : FaultCode) (i : BitVec 8) :
    (s.raise c i).cmdIn = s.cmdIn := by
  unfold State.raise; split <;> rfl
@[simp] theorem raise_pending (s : State) (c : FaultCode) (i : BitVec 8) :
    (s.raise c i).pending = s.pending := by
  unfold State.raise; split <;> rfl
@[simp] theorem raise_delivered (s : State) (c : FaultCode) (i : BitVec 8) :
    (s.raise c i).delivered = s.delivered := by
  unfold State.raise; split <;> rfl

@[simp] theorem tick_cfg (s : State) : s.tick.cfg = s.cfg := by
  unfold State.tick; split <;> rfl
@[simp] theorem tick_phase (s : State) : s.tick.phase = s.phase := by
  unfold State.tick; split <;> rfl
@[simp] theorem tick_teCount (s : State) : s.tick.teCount = s.teCount := by
  unfold State.tick; split <;> rfl
@[simp] theorem tick_variant (s : State) : s.tick.variant = s.variant := by
  unfold State.tick; split <;> rfl
@[simp] theorem tick_bitCount (s : State) : s.tick.bitCount = s.bitCount := by
  unfold State.tick; split <;> rfl
@[simp] theorem tick_blockStart (s : State) : s.tick.blockStart = s.blockStart := by
  unfold State.tick; split <;> rfl
@[simp] theorem tick_prev (s : State) : s.tick.prev = s.prev := by
  unfold State.tick; split <;> rfl
@[simp] theorem tick_bitStart (s : State) : s.tick.bitStart = s.bitStart := by
  unfold State.tick; split <;> rfl
@[simp] theorem tick_pendBit (s : State) : s.tick.pendBit = s.pendBit := by
  unfold State.tick; split <;> rfl
@[simp] theorem tick_acc (s : State) : s.tick.acc = s.acc := by
  unfold State.tick; split <;> rfl
@[simp] theorem tick_cw (s : State) : s.tick.cw = s.cw := by
  unfold State.tick; split <;> rfl
@[simp] theorem tick_sampleRate (s : State) : s.tick.sampleRate = s.sampleRate := by
  unfold State.tick; split <;> rfl
@[simp] theorem tick_lastBitPad (s : State) : s.tick.lastBitPad = s.lastBitPad := by
  unfold State.tick; split <;> rfl
@[simp] theorem tick_lut (s : State) : s.tick.lut = s.lut := by
  unfold State.tick; split <;> rfl
@[simp] theorem tick_faultCode (s : State) : s.tick.faultCode = s.faultCode := by
  unfold State.tick; split <;> rfl
@[simp] theorem tick_faultInfo (s : State) : s.tick.faultInfo = s.faultInfo := by
  unfold State.tick; split <;> rfl
@[simp] theorem tick_cmdIn (s : State) : s.tick.cmdIn = s.cmdIn := by
  unfold State.tick; split <;> rfl
@[simp] theorem tick_pending (s : State) : s.tick.pending = s.pending := by
  unfold State.tick; split <;> rfl
@[simp] theorem tick_delivered (s : State) : s.tick.delivered = s.delivered := by
  unfold State.tick; split <;> rfl

/-- The levels hold when no change is planned. -/
theorem tick_nil (s : State) (h : s.pinsAhead = []) : s.tick = s := by
  simp only [State.tick, h]

/-- The planned levels come next. -/
theorem tick_cons (s : State) (p : Pins) (ps : List Pins) (h : s.pinsAhead = p :: ps) :
    s.tick = { s with pins := p, pinsAhead := ps } := by
  simp only [State.tick, h]

end Sys2Proof.Machine
end

