-- ==== Sys2Proof/Laws/Ops.lean ====
section
/-! SUPPORT. What each shared operation can do, said once. -/

namespace Sys2Proof.Machine

/-- Fault entry from a state without a fault (60_exceptions.md R221). -/
theorem raise_of_noFault (s : State) (c : FaultCode) (info : BitVec 8)
    (h : s.faultCode = .noFault) :
    s.raise c info = { s with faultCode := c, faultInfo := info } := if_pos h

/-- The first fault is kept (60_exceptions.md R223). -/
theorem raise_of_faulted (s : State) (c : FaultCode) (info : BitVec 8) (h : s.faulted) :
    s.raise c info = s := if_neg h

/-- Halted means a fault is recorded (10_state.md R34). -/
theorem halted_iff (s : State) : s.halted = true ↔ s.faulted := by
  simp [State.halted, State.faulted]

/-- A command illegal by 30_encoding.md R69 is what `legal` refuses. -/
theorem zeroFields_none_iff (sub : BitVec 4) (payload : BitVec 64) :
    zeroFields sub payload = none ↔ sub = 0#4 ∧ payload = 0#64 := by
  unfold zeroFields; split <;> simp_all

theorem sub_lt_two_iff (sub : BitVec 4) : sub.toNat < 2 ↔ sub = 0#4 ∨ sub = 1#4 := by
  revert sub; decide

theorem csrAt_none_iff (sub : BitVec 4) : csrAt sub = none ↔ 2 ≤ sub.toNat := by
  revert sub; decide

theorem edgeSub_iff (sub : BitVec 4) : sub.extractLsb' 1 3 = 0#3 ↔ sub.toNat < 2 := by
  revert sub; decide

theorem payloadHigh_iff (payload : BitVec 64) :
    payload.extractLsb' 32 32 = 0#32 ↔ payload.toNat < 2 ^ 32 := by
  have h : (payload.extractLsb' 32 32).toNat = payload.toNat / 2 ^ 32 % 2 ^ 32 := by
    simp [BitVec.extractLsb'_toNat, Nat.shiftRight_eq_div_pow]
  rw [← BitVec.toNat_inj, h]
  simp; omega

theorem sampleHigh_iff (payload : BitVec 64) (w : Nat) :
    payload >>> w = 0#64 ↔ payload.toNat < 2 ^ w := by
  rw [← BitVec.toNat_inj]
  simp [Nat.shiftRight_eq_div_pow, Nat.div_eq_zero_iff]

/-- `LEGAL` refuses exactly the encodings of 30_encoding.md R69. -/
theorem legal_eq_false_iff (sampleW : Nat) (i : Instr) :
    legal sampleW i = false ↔ i.illegal sampleW := by
  cases i with
  | nop sub payload => simp [legal, illegalForm, zeroFields, Instr.illegal, Decidable.imp_iff_not_or]
  | reset sub payload => simp [legal, illegalForm, Instr.illegal]
  | cfgw sub payload =>
    simp only [legal, illegalForm, csrAt_none_iff, payloadHigh_iff, Instr.illegal]
    repeat' split
    all_goals simp only [Option.isNone_some, Option.isNone_none]
    all_goals simp
    all_goals omega
  | start sub payload => simp [legal, illegalForm, zeroFields, Instr.illegal, Decidable.imp_iff_not_or]
  | edge sub payload =>
    simp only [legal, illegalForm, edgeSub_iff, sampleHigh_iff, Instr.illegal]
    repeat' split
    all_goals simp only [Option.isNone_some, Option.isNone_none]
    all_goals simp
    all_goals omega
  | endSession sub payload =>
    simp [legal, illegalForm, zeroFields, Instr.illegal, Decidable.imp_iff_not_or]
  | reserved67 op0 sub payload => simp [legal, illegalForm, Instr.illegal]
  | reserved8F op20 sub payload => simp [legal, illegalForm, Instr.illegal]

theorem legal_iff (sampleW : Nat) (i : Instr) :
    legal sampleW i = true ↔ ¬ i.illegal sampleW := by
  rw [← legal_eq_false_iff]; simp

/-- The prologue of a halted block (44_commands.md R192). -/
theorem prologue_of_faulted (i : Instr) (f : State → State) (s : State) (h : s.faulted) :
    prologue i f s = s := if_pos ((halted_iff s).mpr h)

/-- The prologue of an illegal command (44_commands.md R192). -/
theorem prologue_of_illegal (i : Instr) (f : State → State) (s : State)
    (hf : s.faultCode = .noFault) (hi : i.illegal s.cfg.sampleW) :
    prologue i f s = { s with faultCode := .illegalCmd, faultInfo := opSub i } := by
  have hh : s.halted = false := by simp [State.halted, hf]
  simp [prologue, hh, (legal_eq_false_iff _ _).mpr hi, raise_of_noFault _ _ _ hf]

/-- The prologue of a legal command in a block that is not halted (44_commands.md R192). -/
theorem prologue_of_legal (i : Instr) (f : State → State) (s : State)
    (hf : s.faultCode = .noFault) (hi : ¬ i.illegal s.cfg.sampleW) :
    prologue i f s = f s := by
  have hh : s.halted = false := by simp [State.halted, hf]
  simp [prologue, hh, (legal_iff _ _).mpr hi]

/-- Everything a prologue can do. -/
theorem prologue_cases (i : Instr) (f : State → State) (s : State) :
    (s.faulted ∧ prologue i f s = s) ∨
    (s.faultCode = .noFault ∧ i.illegal s.cfg.sampleW ∧
      prologue i f s = { s with faultCode := .illegalCmd, faultInfo := opSub i }) ∨
    (s.faultCode = .noFault ∧ ¬ i.illegal s.cfg.sampleW ∧ prologue i f s = f s) := by
  by_cases hf : s.faultCode = .noFault
  · by_cases hi : i.illegal s.cfg.sampleW
    · exact .inr (.inl ⟨hf, hi, prologue_of_illegal i f s hf hi⟩)
    · exact .inr (.inr ⟨hf, hi, prologue_of_legal i f s hf hi⟩)
  · exact .inl ⟨hf, prologue_of_faulted i f s hf⟩

/-- The bits of a word with one bit set. -/
theorem setBit_getLsbD {w : Nat} (v : BitVec w) (k : Nat) (b : Bool) (j : Nat) (hj : j < w) :
    (setBit v k b).getLsbD j = if j = k then b else v.getLsbD j := by
  cases b <;> by_cases h : j = k <;>
    simp [setBit, BitVec.getLsbD_or, BitVec.getLsbD_and, BitVec.getLsbD_not, hj, h] <;> omega

/-- A bit above the bits of a value keeps it below the next power of two. -/
theorem setBit_toNat_lt {w : Nat} (v : BitVec w) (k : Nat) (b : Bool)
    (h : v.toNat < 2 ^ k) : (setBit v k b).toNat < 2 ^ (k + 1) := by
  apply Nat.lt_pow_two_of_testBit
  intro j hj
  rw [BitVec.testBit_toNat]
  by_cases hw : j < w
  · rw [setBit_getLsbD v k b j hw, if_neg (by omega), ← BitVec.testBit_toNat]
    exact Nat.testBit_lt_two_pow (Nat.lt_of_lt_of_le h (Nat.pow_le_pow_right (by omega) (by omega)))
  · exact BitVec.getLsbD_of_ge _ _ (by omega)

end Sys2Proof.Machine
end

