-- ==== Sys2Proof/Laws/Timing.lean ====
section
/-! SUPPORT. The classifier and the interval converter (40_timing_classifier.md), and the preamble's own
comparisons, in the terms the statements use. -/

namespace Sys2Proof.Machine

/-- `ceil_div` is the least `q` with `q*b >= a` (00_scope.md R11). -/
theorem ceilDiv_le_iff (a b q : Nat) (hb : 0 < b) : ceilDiv a b ≤ q ↔ a ≤ q * b := by
  unfold ceilDiv
  rw [← Nat.lt_succ_iff, Nat.div_lt_iff_lt_mul hb, Nat.succ_mul]
  omega

/-- `floor_div` is the greatest `q` with `q*b <= a` (00_scope.md R11). -/
theorem le_floorDiv_iff (a b q : Nat) (hb : 0 < b) : q ≤ floorDiv a b ↔ q * b ≤ a :=
  Nat.le_div_iff_mul_le hb

/-- A row matches exactly the intervals in its closed range (40_timing_classifier.md R103). -/
theorem covers_iff (r : LutRow) (d : Sample) : r.covers d = true ↔ r.has d.toNat := by
  simp [LutRow.covers]

/-- The interval of an edge after an earlier one (40_timing_classifier.md R102). -/
theorem interval_toNat (p smp : Sample) (h : p.toNat < smp.toNat) :
    (interval p smp).toNat = smp.toNat - p.toNat := by
  have := smp.isLt
  simp [interval, BitVec.toNat_sub]
  omega

/-- The scaled bounds of a window in range fit a row (40_timing_classifier.md R101). -/
theorem scaleWindow_lo (w : Window) (rate : Word32) (h : w.wf) :
    (scaleWindow w rate.toNat).lo.toNat = ceilDiv (w.loUs * rate.toNat) 1000000 := by
  have h1 : w.loUs * rate.toNat ≤ 2 ^ 32 * 2 ^ 32 :=
    Nat.mul_le_mul (Nat.le_of_lt h.1) (Nat.le_of_lt rate.isLt)
  have h2 : ceilDiv (w.loUs * rate.toNat) 1000000 ≤ 2 ^ 50 :=
    (ceilDiv_le_iff _ _ _ (by decide)).mpr (Nat.le_trans h1 (by decide))
  simp only [scaleWindow, BitVec.toNat_ofNat]
  exact Nat.mod_eq_of_lt (Nat.lt_of_le_of_lt h2 (by decide))

theorem scaleWindow_hi (w : Window) (rate : Word32) (h : w.wf) :
    (scaleWindow w rate.toNat).hi.toNat = floorDiv (w.hiUs * rate.toNat) 1000000 := by
  have h1 : w.hiUs * rate.toNat ≤ 2 ^ 32 * 2 ^ 32 :=
    Nat.mul_le_mul (Nat.le_of_lt h.2) (Nat.le_of_lt rate.isLt)
  have h2 : floorDiv (w.hiUs * rate.toNat) 1000000 ≤ 2 ^ 45 :=
    Nat.le_trans (Nat.div_le_div_right h1) (by decide)
  simp only [scaleWindow, BitVec.toNat_ofNat]
  exact Nat.mod_eq_of_lt (Nat.lt_of_le_of_lt h2 (by decide))

/-- A scaled row matches an interval exactly when the exact products compare so
(40_timing_classifier.md R104). -/
theorem scaleWindow_has_iff (w : Window) (rate : Word32) (h : w.wf) (d : Nat) :
    (scaleWindow w rate.toNat).has d ↔
      w.loUs * rate.toNat ≤ d * 1000000 ∧ d * 1000000 ≤ w.hiUs * rate.toNat := by
  rw [LutRow.has, scaleWindow_lo w rate h, scaleWindow_hi w rate h,
    ceilDiv_le_iff _ _ _ (by decide), le_floorDiv_iff _ _ _ (by decide)]

/-- The effective matches of a pulse, from the rows (41_preamble_header.md R121). -/
theorem overlap_short_iff (s : State) (d : Sample) :
    (overlap s.cfg.overlap (classify s.lut d)).1 = true ↔ isShort s d.toNat := by
  cases h : s.cfg.overlap <;>
    simp [overlap, classify, isShort, shortCounts, h, ← covers_iff]

theorem overlap_std_iff (s : State) (d : Sample) :
    (overlap s.cfg.overlap (classify s.lut d)).2 = true ↔ isStd s d.toNat := by
  cases h : s.cfg.overlap <;>
    simp [overlap, classify, isStd, stdCounts, h, ← covers_iff]

/-- The qualification of a pulse (41_preamble_header.md R120). -/
theorem qualifies_iff (p : Params) (te : Nat) (ms md : Bool) :
    qualifies p te ms md = true ↔ pulseQualifies p te (ms = true) (md = true) := by
  simp [qualifies, pulseQualifies]

/-- A half-bit resolves to the bit of its window, `BIT1` first (42_bit_resolver.md R141, R142). -/
theorem resolveBit_of_halfBit (s : State) (d : Sample) (b : Bool) (h : halfBit s d.toNat b) :
    resolveBit (classify s.lut d) = some b := by
  cases b <;> simp_all [resolveBit, classify, halfBit, ← covers_iff]

theorem resolveBit_eq_none (s : State) (d : Sample) (h1 : ¬ s.lut.bit1.has d.toNat)
    (h0 : ¬ s.lut.bit0.has d.toNat) : resolveBit (classify s.lut d) = none := by
  simp_all [resolveBit, classify, ← covers_iff]

/-- Everything a half-bit can resolve to. -/
theorem resolveBit_cases (s : State) (d : Sample) :
    (∃ b, halfBit s d.toNat b ∧ resolveBit (classify s.lut d) = some b) ∨
    (¬ s.lut.bit1.has d.toNat ∧ ¬ s.lut.bit0.has d.toNat ∧
      resolveBit (classify s.lut d) = none) := by
  by_cases h1 : s.lut.bit1.has d.toNat
  · exact .inl ⟨true, h1, resolveBit_of_halfBit s d true h1⟩
  · by_cases h0 : s.lut.bit0.has d.toNat
    · exact .inl ⟨false, ⟨h1, h0⟩, resolveBit_of_halfBit s d false ⟨h1, h0⟩⟩
    · exact .inr ⟨h1, h0, resolveBit_eq_none s d h1 h0⟩

/-- The padded end of bit 65 (42_bit_resolver.md R145). -/
theorem padEnd_toNat (w : Nat) (hw : w ≤ 64) (smp : Sample) (pad : Word32) :
    (padEnd w smp pad).toNat = (smp.toNat + pad.toNat) % 2 ^ w := by
  have h : (smp.toNat + pad.toNat) % 2 ^ w < 2 ^ 64 :=
    Nat.lt_of_lt_of_le (Nat.mod_lt _ (Nat.two_pow_pos w)) (Nat.pow_le_pow_right (by omega) hw)
  simp only [padEnd, BitVec.toNat_ofNat]
  exact Nat.mod_eq_of_lt h

/-- A legal sample is the whole payload (30_encoding.md R67). -/
theorem sampleOf_eq (w : Nat) (smp : Sample) (h : smp.toNat < 2 ^ w) : sampleOf w smp = smp := by
  rw [sampleOf, Nat.mod_eq_of_lt h, BitVec.ofNat_toNat, BitVec.setWidth_eq]

end Sys2Proof.Machine
end

