-- ==== Sys2Proof/Laws/Exec.lean ====
section
/-! SUPPORT. What an EDGE runs, what a step can do, and what the steps of the phases leave alone. -/

namespace Sys2Proof.Machine

/-- A legal EDGE after the anchor runs the step of its phase and becomes `prev` (44_commands.md R198). -/
theorem exec_edge_timed (sub : BitVec 4) (p smp : Sample) (s : State) (h : edgeTimed s sub p smp)
    (hp : s.phase.timed) :
    exec (.edge sub smp) s =
      .next { phaseStep (classify s.lut (interval p smp)) smp s with prev := some smp } := by
  obtain ⟨⟨hf, hsub, hsmp⟩, hprev, hlt⟩ := h
  have hleg : ¬ (Instr.edge sub smp).illegal s.cfg.sampleW := by
    simp only [Instr.illegal]; omega
  have hbits : s.prevBits = p := by simp [State.prevBits, hprev]
  have hn : ¬ smp.toNat ≤ p.toNat := by omega
  simp only [exec, execEdge, prologue_of_legal _ _ _ hf hleg, edgeEffect,
    sampleOf_eq _ _ hsmp, timedEdge, hbits, if_neg hn]
  rcases hp with hp | hp | hp | hp <;> simp only [hp]

/-- Ready on `cmd` means what 70_reset_and_hazards.md R250 and R262 ask. -/
theorem cmdReady_iff (s : State) :
    s.cmdReady = true ↔ s.pins = ⟨false, true, true⟩ ∧ s.pending = [] := by
  rcases h : s.pins with ⟨r, a, c⟩
  cases r <;> cases a <;> cases c <;> simp [State.cmdReady, Pins.draining, h]

/-- A low ready level holds the outputs (70_reset_and_hazards.md R262). -/
theorem draining_eq_false_iff (p : Pins) :
    p.draining = false ↔ p.annReady = false ∨ p.cwoReady = false := by
  cases h : p.annReady <;> cases k : p.cwoReady <;> simp [Pins.draining, h, k]

/-- A port has both valid and ready exactly when a step delivers the record it carries (log 21). -/
theorem annPort_transfers_iff (s : State) (a : Annotation) (os : List OutRecord)
    (hp : s.pending = .ann a :: os) :
    (s.annPort = some a.record ∧ s.pins.annReady = true) ↔
      (s.pins.rst = false ∧ s.pins.draining = true) := by
  rcases h : s.pins with ⟨r, x, y⟩
  cases r <;> cases x <;> cases y <;> simp [State.annPort, Pins.draining, h, hp]

theorem cwoPort_transfers_iff (s : State) (r : BitVec 72) (os : List OutRecord)
    (hp : s.pending = .cw r :: os) :
    (s.cwoPort = some r ∧ s.pins.cwoReady = true) ↔
      (s.pins.rst = false ∧ s.pins.draining = true) := by
  rcases h : s.pins with ⟨q, x, y⟩
  cases q <;> cases x <;> cases y <;> simp [State.cwoPort, Pins.draining, h, hp]

/-- Everything one step can do (70_reset_and_hazards.md R250, R262; 44_commands.md R200). -/
theorem step_cases (s : State) :
    (s.pins.rst = true ∧ step s = .next s.hardReset.tick) ∨
    (s.pins.rst = false ∧ ∃ o os, s.pending = o :: os ∧
      ((s.pins.draining = true ∧ step s = .next (s.deliver o os).tick) ∨
       (s.pins.draining = false ∧ step s = .next s.tick))) ∨
    (s.pins.rst = false ∧ s.pending = [] ∧ (s.cmdIn = [] ∨ s.cmdReady = false) ∧
      step s = .next s.tick) ∨
    (s.cmdReady = true ∧ ∃ w ws, s.cmdIn = w :: ws ∧
      step s = exec (decodeWord w) (s.accept ws).tick) := by
  cases hr : s.pins.rst with
  | true => exact .inl ⟨rfl, by simp [step, hr]⟩
  | false =>
    cases hp : s.pending with
    | cons o os =>
      refine .inr (.inl ⟨rfl, o, os, rfl, ?_⟩)
      cases ho : s.pins.draining with
      | true => exact .inl ⟨rfl, by simp [step, hr, hp, ho]⟩
      | false => exact .inr ⟨rfl, by simp [step, hr, hp, ho]⟩
    | nil =>
      cases hc : s.cmdIn with
      | nil => exact .inr (.inr (.inl ⟨rfl, rfl, .inl rfl, by simp [step, hr, hp, hc]⟩))
      | cons w ws =>
        cases hk : s.cmdReady with
        | true => exact .inr (.inr (.inr ⟨rfl, w, ws, rfl, by simp [step, hr, hp, hc, hk]⟩))
        | false => exact .inr (.inr (.inl ⟨rfl, rfl, .inr rfl, by simp [step, hr, hp, hc, hk]⟩))

/-- A run of a machine goes on from the next state of its first step. -/
theorem run_of_step (M : Host.Core) (n : Nat) (s t : M.State) (h : M.step s = .next t) :
    M.run (n + 1) s = M.run n t := by
  have hr : M.run (n + 1) s =
      match M.step s with
      | .next u => M.run n u
      | .fault r => .fault r
      | .refused r => .refused r := rfl
  rw [hr, h]

/-- A run of the block, in the same way. -/
theorem core_run_succ (n : Nat) (s t : State) (h : step s = .next t) :
    Host.Core.run Sys2Proof.core (n + 1) s = Host.Core.run Sys2Proof.core n t :=
  run_of_step Sys2Proof.core n s t h

/-- The fields no step of a phase writes (10_state.md R37). -/
def State.control (s : State) :=
  (s.cfg, s.sampleRate, s.lastBitPad, s.lut, s.faultCode, s.faultInfo, s.pins, s.pinsAhead,
    s.cmdIn, s.delivered)

@[simp] theorem emit_control (s : State) (k : Kind) (a b : Sample) (v : Word32) :
    (s.emit k a b v).control = s.control := rfl

@[simp] theorem emitCW_control (s : State) (r : BitVec 72) : (s.emitCW r).control = s.control := rfl

@[simp] theorem openBlock_control (s : State) : s.openBlock.control = s.control := by
  simp [State.control]

@[simp] theorem restart_control (s : State) : (restart s).control = s.control := by
  simp [restart, State.control]

@[simp] theorem pulse_control (ms md : Bool) (smp : Sample) (s : State) :
    (pulse ms md smp s).control = s.control := by
  unfold pulse
  dsimp only
  split
  · simp [pulseComplete, pulseCount, State.control]
  · split <;> simp [pulseComplete, pulseCount, State.control]

@[simp] theorem preStep_control (m : MatchVec) (smp : Sample) (s : State) :
    (preStep m smp s).control = s.control := by
  unfold preStep; dsimp only; split <;> simp

@[simp] theorem hdrStep_control (m : MatchVec) (smp : Sample) (s : State) :
    (hdrStep m smp s).control = s.control := by
  unfold hdrStep; split
  · simp [State.control]
  · simp

@[simp] theorem encBit_control (p : Nat) (b : Bool) (e : Sample) (s : State) :
    (encBit p b e s).control = s.control := by
  unfold encBit; dsimp only; split <;> simp [encClose, State.control]

@[simp] theorem serBit_control (p : Nat) (b : Bool) (e : Sample) (s : State) :
    (serBit p b e s).control = s.control := by
  unfold serBit; dsimp only; split <;> simp [serClose, State.control]

@[simp] theorem btnBit_control (p : Nat) (b : Bool) (sb e : Sample) (s : State) :
    (btnBit p b sb e s).control = s.control := by
  unfold btnBit; dsimp only; split <;> simp [btnClose, State.control]

@[simp] theorem vlowBit_control (b : Bool) (sb e : Sample) (s : State) :
    (vlowBit b sb e s).control = s.control := by simp [vlowBit, State.control]

@[simp] theorem rptBit_control (b : Bool) (sb e : Sample) (s : State) :
    (rptBit b sb e s).control = s.control := by simp [rptBit, State.control]

@[simp] theorem assemble_control (p : Nat) (b : Bool) (sb e : Sample) (s : State) :
    (assemble p b sb e s).control = s.control := by
  have h : ∀ t : State, (if p < 65 then { t with bitCount := BitVec.ofNat 7 (p + 1) } else t).control
      = t.control := by intro t; split <;> simp [State.control]
  simp only [assemble, h]
  repeat' split
  all_goals simp

@[simp] theorem bitComplete_control (b : Bool) (sb e : Sample) (s : State) :
    (bitComplete b sb e s).control = s.control := by simp [bitComplete]

@[simp] theorem bitMeasure_control (m : MatchVec) (smp : Sample) (s : State) :
    (bitMeasure m smp s).control = s.control := by
  unfold bitMeasure
  split
  · simp [invalidBit, State.control]
  · dsimp only
    split
    · simp [lastBit]
    · simp [pendBitStep, State.control]

@[simp] theorem bitEnd_control (smp : Sample) (s : State) : (bitEnd smp s).control = s.control := by
  simp only [bitEnd, bitComplete_control]
  simp [State.control]

/-- No step of a phase touches the parameters, the control registers, the LUT, the fault record, the host's
side or the delivered records (10_state.md R37). -/
theorem phaseStep_control (m : MatchVec) (smp : Sample) (s : State) :
    (phaseStep m smp s).control = s.control := by
  unfold phaseStep; split <;> simp

end Sys2Proof.Machine
end

