-- ==== Sys2Proof/Laws/Effect.lean ====
section
/-! SUPPORT. Everything a command can do, said once, and the record of a code word bit by bit. -/

namespace Sys2Proof.Machine

/-- The next state of a command, which every command has (60_exceptions.md R222; log 17). -/
def effect (i : Instr) (s : State) : State :=
  match i with
  | .nop sub payload => prologue (.nop sub payload) id s
  | .reset _ _ => s.softReset
  | .cfgw sub payload => prologue (.cfgw sub payload) (cfgWrite sub payload) s
  | .start sub payload => prologue (.start sub payload) (startSession sub payload) s
  | .edge sub payload => prologue (.edge sub payload) (edgeEffect sub payload) s
  | .endSession sub payload =>
    prologue (.endSession sub payload) (fun s => { s with phase := .idle }) s
  | .reserved67 op0 sub payload => prologue (.reserved67 op0 sub payload) id s
  | .reserved8F op20 sub payload => prologue (.reserved8F op20 sub payload) id s

/-- No command stops the machine. -/
theorem exec_eq_effect (i : Instr) (s : State) : exec i s = .next (effect i s) := by
  cases i <;> rfl

theorem exec_next_iff (i : Instr) (s t : State) : exec i s = .next t ↔ effect i s = t := by
  rw [exec_eq_effect]; simp

/-- Everything a legal EDGE can do in a block that is not halted (44_commands.md R196 to R198). -/
theorem edgeEffect_cases (sub : BitVec 4) (smp : Sample) (s : State)
    (hf : s.faultCode = .noFault) (hi : ¬ (Instr.edge sub smp).illegal s.cfg.sampleW) :
    (s.phase = .idle ∧ edgeEffect sub smp s = s) ∨
    (s.phase = .anchor ∧
      (edgeEffect sub smp s = s ∨
        edgeEffect sub smp s = { s with prev := some smp, phase := .preamble })) ∨
    (s.phase.timed ∧ smp.toNat ≤ s.prevBits.toNat ∧
      edgeEffect sub smp s =
        { s with faultCode := .order, faultInfo := opSub (.edge sub smp) }) ∨
    (s.phase.timed ∧ s.prevBits.toNat < smp.toNat ∧
      edgeEffect sub smp s =
        { phaseStep (classify s.lut (interval s.prevBits smp)) smp s with prev := some smp }) := by
  have hs : sampleOf s.cfg.sampleW smp = smp :=
    sampleOf_eq _ _ (by simp only [Instr.illegal] at hi; omega)
  by_cases h : smp.toNat ≤ s.prevBits.toNat
  · cases hp : s.phase <;>
      simp [edgeEffect, hp, hs, timedEdge, h, raise_of_noFault _ _ _ hf, anchorEdge, Phase.timed]
    cases polOf sub <;> simp
  · cases hp : s.phase <;> simp [edgeEffect, hp, hs, timedEdge, h, anchorEdge, Phase.timed]
    cases polOf sub <;> simp
    all_goals omega

/-- Everything a command can do: RESET; nothing, when halted; ILLEGAL_CMD; and what each legal command does
(44_commands.md R190 to R199). -/
theorem effect_cases (i : Instr) (s : State) :
    (∃ sub payload, i = .reset sub payload ∧ effect i s = s.softReset) ∨
    ((∀ sub payload, i ≠ .reset sub payload) ∧ s.faulted ∧ effect i s = s) ∨
    (s.faultCode = .noFault ∧ i.illegal s.cfg.sampleW ∧
      effect i s = { s with faultCode := .illegalCmd, faultInfo := opSub i }) ∨
    (s.faultCode = .noFault ∧ i = .nop 0#4 0#64 ∧ effect i s = s) ∨
    (s.faultCode = .noFault ∧ i = .endSession 0#4 0#64 ∧ effect i s = { s with phase := .idle }) ∨
    (s.faultCode = .noFault ∧ i = .start 0#4 0#64 ∧
      ((s.sampleRate = 0#32 ∧
          effect i s = { s with faultCode := .noSampleRate, faultInfo := opSub i }) ∨
        (s.sampleRate ≠ 0#32 ∧
          effect i s =
            { s.clearDecoder with lut := buildLut s.cfg s.sampleRate, phase := .anchor }))) ∨
    (∃ sub payload, s.faultCode = .noFault ∧ i = .cfgw sub payload ∧
      ¬ i.illegal s.cfg.sampleW ∧
      ((s.phase ≠ .idle ∧ effect i s = { s with faultCode := .cfgBusy, faultInfo := opSub i }) ∨
        (s.phase = .idle ∧ ∃ x y, effect i s = { s with sampleRate := x, lastBitPad := y }))) ∨
    (∃ sub smp, s.faultCode = .noFault ∧ i = .edge sub smp ∧ ¬ i.illegal s.cfg.sampleW ∧
      ((s.phase = .idle ∧ effect i s = s) ∨
        (s.phase = .anchor ∧
          (effect i s = s ∨ effect i s = { s with prev := some smp, phase := .preamble })) ∨
        (s.phase.timed ∧ smp.toNat ≤ s.prevBits.toNat ∧
          effect i s = { s with faultCode := .order, faultInfo := opSub i }) ∨
        (s.phase.timed ∧ s.prevBits.toNat < smp.toNat ∧
          effect i s =
            { phaseStep (classify s.lut (interval s.prevBits smp)) smp s with
              prev := some smp }))) := by
  cases i with
  | reset a b => exact .inl ⟨a, b, rfl, rfl⟩
  | nop a b =>
    refine .inr ?_
    rcases prologue_cases (.nop a b) id s with ⟨h, h'⟩ | ⟨h, h1, h'⟩ | ⟨h, h1, h'⟩
    · exact .inl ⟨by simp, h, h'⟩
    · exact .inr (.inl ⟨h, h1, h'⟩)
    · refine .inr (.inr (.inl ⟨h, ?_, h'⟩))
      simpa [Instr.illegal] using h1
  | endSession a b =>
    refine .inr ?_
    rcases prologue_cases (.endSession a b) (fun s => { s with phase := .idle }) s with
      ⟨h, h'⟩ | ⟨h, h1, h'⟩ | ⟨h, h1, h'⟩
    · exact .inl ⟨by simp, h, h'⟩
    · exact .inr (.inl ⟨h, h1, h'⟩)
    · refine .inr (.inr (.inr (.inl ⟨h, ?_, h'⟩)))
      simpa [Instr.illegal] using h1
  | start a b =>
    refine .inr ?_
    rcases prologue_cases (.start a b) (startSession a b) s with
      ⟨h, h'⟩ | ⟨h, h1, h'⟩ | ⟨h, h1, h'⟩
    · exact .inl ⟨by simp, h, h'⟩
    · exact .inr (.inl ⟨h, h1, h'⟩)
    · refine .inr (.inr (.inr (.inr (.inl ⟨h, by simpa [Instr.illegal] using h1, ?_⟩))))
      by_cases hr : s.sampleRate = 0#32
      · refine .inl ⟨hr, ?_⟩
        show prologue _ _ _ = _
        rw [h']
        simp [startSession, hr, raise_of_noFault _ _ _ h]
      · refine .inr ⟨hr, ?_⟩
        show prologue _ _ _ = _
        rw [h']
        simp [startSession, hr]
  | cfgw a b =>
    refine .inr ?_
    rcases prologue_cases (.cfgw a b) (cfgWrite a b) s with ⟨h, h'⟩ | ⟨h, h1, h'⟩ | ⟨h, h1, h'⟩
    · exact .inl ⟨by simp, h, h'⟩
    · exact .inr (.inl ⟨h, h1, h'⟩)
    · refine .inr (.inr (.inr (.inr (.inr (.inl ⟨a, b, h, rfl, h1, ?_⟩)))))
      by_cases hr : s.phase = .idle
      · refine .inr ⟨hr, ?_⟩
        have he : effect (.cfgw a b) s = cfgWrite a b s := h'
        rw [he, cfgWrite, if_pos hr]
        split
        · exact ⟨dataOf b, s.lastBitPad, rfl⟩
        · exact ⟨s.sampleRate, dataOf b, rfl⟩
        · exact ⟨s.sampleRate, s.lastBitPad, rfl⟩
      · refine .inl ⟨hr, ?_⟩
        show prologue _ _ _ = _
        rw [h']
        simp [cfgWrite, hr, raise_of_noFault _ _ _ h]
  | edge a b =>
    refine .inr ?_
    rcases prologue_cases (.edge a b) (edgeEffect a b) s with ⟨h, h'⟩ | ⟨h, h1, h'⟩ | ⟨h, h1, h'⟩
    · exact .inl ⟨by simp, h, h'⟩
    · exact .inr (.inl ⟨h, h1, h'⟩)
    · refine .inr (.inr (.inr (.inr (.inr (.inr ⟨a, b, h, rfl, h1, ?_⟩)))))
      have he : effect (.edge a b) s = edgeEffect a b s := h'
      rw [he]
      exact edgeEffect_cases a b s h h1
  | reserved67 o a b =>
    refine .inr ?_
    rcases prologue_cases (.reserved67 o a b) id s with ⟨h, h'⟩ | ⟨h, h1, h'⟩ | ⟨h, h1, h'⟩
    · exact .inl ⟨by simp, h, h'⟩
    · exact .inr (.inl ⟨h, h1, h'⟩)
    · exact absurd trivial h1
  | reserved8F o a b =>
    refine .inr ?_
    rcases prologue_cases (.reserved8F o a b) id s with ⟨h, h'⟩ | ⟨h, h1, h'⟩ | ⟨h, h1, h'⟩
    · exact .inl ⟨by simp, h, h'⟩
    · exact .inr (.inl ⟨h, h1, h'⟩)
    · exact absurd trivial h1

/-- The effective matches of a pulse that ends an interval from `p` to `smp` (41_preamble_header.md R121). -/
theorem overlap_short_of_edge (s : State) (p smp : Sample) (h : p.toNat < smp.toNat) :
    (overlap s.cfg.overlap (classify s.lut (interval p smp))).1 = true ↔
      isShort s (smp.toNat - p.toNat) := by
  rw [overlap_short_iff, interval_toNat _ _ h]

theorem overlap_std_of_edge (s : State) (p smp : Sample) (h : p.toNat < smp.toNat) :
    (overlap s.cfg.overlap (classify s.lut (interval p smp))).2 = true ↔
      isStd s (smp.toNat - p.toNat) := by
  rw [overlap_std_iff, interval_toNat _ _ h]

/-- Opening a block keeps its start when it has one, and sets it to `prev` when not (10_state.md R25). -/
theorem openBlock_eq (s : State) (p : Sample) (h : s.prev = some p) :
    s.openBlock = { s with blockStart := some (s.blockStart.getD p) } := by
  unfold State.openBlock State.blockStartV State.prevBits
  cases hb : s.blockStart <;> simp [h]
  cases s
  simp_all

theorem bitValue_eq (b : Bool) : bitValue b = valueOfBit b := by cases b <;> rfl

/-- An end boundary completes its bit, whatever the interval (42_bit_resolver.md R146 to R148). -/
theorem exec_edge_dataEnd (sub : BitVec 4) (p smp : Sample) (s : State)
    (h : edgeTimed s sub p smp) (hp : s.phase = .dataEnd) :
    exec (.edge sub smp) s =
      .next { bitComplete s.pendBit s.bitStart smp { s with phase := .data } with
        prev := some smp } := by
  rw [exec_edge_timed sub p smp s h (by simp [Phase.timed, hp])]
  simp only [phaseStep, hp, bitEnd]

/-- The code-word record as a number (30_encoding.md R79). -/
theorem record_toNat (c : CodeWord) :
    c.record.toNat =
      ((c.rpt.toNat * 2 + c.lowbat.toNat) * 2 ^ 4 + c.btn.toNat) * 2 ^ 60 +
        c.ser.toNat * 2 ^ 32 + c.enc.toNat := by
  unfold CodeWord.record
  simp only [append_toNat, BitVec.toNat_ofBool]
  simp
  omega

end Sys2Proof.Machine
end

