-- ==== Sys2Proof/Laws/PerInstr.lean ====
section
/-! SUPPORT. Families proved one instruction at a time, about commands as syntax. -/

namespace Sys2Proof.Laws

/-- The word of a command decodes to the command (30_encoding.md R61, R62). -/
def WordRoundTrip.Statement (i : Instr) : Prop := decodeWord (encodeWord i) = i

theorem WordRoundTrip.of_op (i : Instr) : decodeWord (encodeWord i) =
    if i.op = 0x0#4 then .nop i.sub i.payload
    else if i.op = 0x1#4 then .reset i.sub i.payload
    else if i.op = 0x2#4 then .cfgw i.sub i.payload
    else if i.op = 0x3#4 then .start i.sub i.payload
    else if i.op = 0x4#4 then .edge i.sub i.payload
    else if i.op = 0x5#4 then .endSession i.sub i.payload
    else if i.op.extractLsb' 3 1 = 0#1 then .reserved67 (i.op.extractLsb' 0 1) i.sub i.payload
    else .reserved8F (i.op.extractLsb' 0 3) i.sub i.payload := by
  simp only [decodeWord, encodeWord_op, encodeWord_sub, encodeWord_payload]

theorem WordRoundTrip.nop (sub : BitVec 4) (payload : BitVec 64) :
    WordRoundTrip.Statement (.nop sub payload) := WordRoundTrip.of_op _

theorem WordRoundTrip.reset (sub : BitVec 4) (payload : BitVec 64) :
    WordRoundTrip.Statement (.reset sub payload) := WordRoundTrip.of_op _

theorem WordRoundTrip.cfgw (sub : BitVec 4) (payload : BitVec 64) :
    WordRoundTrip.Statement (.cfgw sub payload) := WordRoundTrip.of_op _

theorem WordRoundTrip.start (sub : BitVec 4) (payload : BitVec 64) :
    WordRoundTrip.Statement (.start sub payload) := WordRoundTrip.of_op _

theorem WordRoundTrip.edge (sub : BitVec 4) (payload : BitVec 64) :
    WordRoundTrip.Statement (.edge sub payload) := WordRoundTrip.of_op _

theorem WordRoundTrip.endSession (sub : BitVec 4) (payload : BitVec 64) :
    WordRoundTrip.Statement (.endSession sub payload) := WordRoundTrip.of_op _

theorem WordRoundTrip.reserved67_op (op0 : BitVec 1) :
    (0b011#3 ++ op0).extractLsb' 3 1 = 0#1 ∧ (0b011#3 ++ op0).extractLsb' 0 1 = op0 ∧
    0b011#3 ++ op0 ≠ 0x0#4 ∧ 0b011#3 ++ op0 ≠ 0x1#4 ∧ 0b011#3 ++ op0 ≠ 0x2#4 ∧
    0b011#3 ++ op0 ≠ 0x3#4 ∧ 0b011#3 ++ op0 ≠ 0x4#4 ∧ 0b011#3 ++ op0 ≠ 0x5#4 := by
  revert op0; decide

theorem WordRoundTrip.reserved67 (op0 : BitVec 1) (sub : BitVec 4) (payload : BitVec 64) :
    WordRoundTrip.Statement (.reserved67 op0 sub payload) := by
  obtain ⟨h3, h0, n0, n1, n2, n3, n4, n5⟩ := WordRoundTrip.reserved67_op op0
  rw [WordRoundTrip.Statement, WordRoundTrip.of_op]
  simp only [Instr.op, Instr.sub, Instr.payload, if_neg n0, if_neg n1, if_neg n2, if_neg n3,
    if_neg n4, if_neg n5, if_pos h3, h0]

theorem WordRoundTrip.reserved8F_op (op20 : BitVec 3) :
    (0b1#1 ++ op20).extractLsb' 3 1 ≠ 0#1 ∧ (0b1#1 ++ op20).extractLsb' 0 3 = op20 ∧
    0b1#1 ++ op20 ≠ 0x0#4 ∧ 0b1#1 ++ op20 ≠ 0x1#4 ∧ 0b1#1 ++ op20 ≠ 0x2#4 ∧
    0b1#1 ++ op20 ≠ 0x3#4 ∧ 0b1#1 ++ op20 ≠ 0x4#4 ∧ 0b1#1 ++ op20 ≠ 0x5#4 := by
  revert op20; decide

theorem WordRoundTrip.reserved8F (op20 : BitVec 3) (sub : BitVec 4) (payload : BitVec 64) :
    WordRoundTrip.Statement (.reserved8F op20 sub payload) := by
  obtain ⟨h3, h0, n0, n1, n2, n3, n4, n5⟩ := WordRoundTrip.reserved8F_op op20
  rw [WordRoundTrip.Statement, WordRoundTrip.of_op]
  simp only [Instr.op, Instr.sub, Instr.payload, if_neg n0, if_neg n1, if_neg n2, if_neg n3,
    if_neg n4, if_neg n5, if_neg h3, h0]

/-- A command that is not of a reserved row has the form of its row exactly when it is not illegal
(30_encoding.md R69). -/
def FormIsLegality.Statement (i : Instr) : Prop :=
  ∀ sampleW, i.op.toNat ≤ 5 → (i.wellFormed sampleW ↔ ¬ i.illegal sampleW)

theorem FormIsLegality.nop (sub : BitVec 4) (payload : BitVec 64) :
    FormIsLegality.Statement (.nop sub payload) := by
  intro w _; simp [Instr.wellFormed, Instr.illegal]

theorem FormIsLegality.reset (sub : BitVec 4) (payload : BitVec 64) :
    FormIsLegality.Statement (.reset sub payload) := by
  intro w _; simp [Instr.wellFormed, Instr.illegal]

theorem FormIsLegality.cfgw (sub : BitVec 4) (payload : BitVec 64) :
    FormIsLegality.Statement (.cfgw sub payload) := by
  intro w _; simp [Instr.wellFormed, Instr.illegal]

theorem FormIsLegality.start (sub : BitVec 4) (payload : BitVec 64) :
    FormIsLegality.Statement (.start sub payload) := by
  intro w _; simp [Instr.wellFormed, Instr.illegal]

theorem FormIsLegality.edge (sub : BitVec 4) (payload : BitVec 64) :
    FormIsLegality.Statement (.edge sub payload) := by
  intro w _; simp [Instr.wellFormed, Instr.illegal, fitsSample]

theorem FormIsLegality.endSession (sub : BitVec 4) (payload : BitVec 64) :
    FormIsLegality.Statement (.endSession sub payload) := by
  intro w _; simp [Instr.wellFormed, Instr.illegal]

theorem FormIsLegality.reserved67 (op0 : BitVec 1) (sub : BitVec 4) (payload : BitVec 64) :
    FormIsLegality.Statement (.reserved67 op0 sub payload) := by
  intro w h; simp only [Instr.op] at h; exact absurd h (by revert op0; decide)

theorem FormIsLegality.reserved8F (op20 : BitVec 3) (sub : BitVec 4) (payload : BitVec 64) :
    FormIsLegality.Statement (.reserved8F op20 sub payload) := by
  intro w h; simp only [Instr.op] at h; exact absurd h (by revert op20; decide)

end Sys2Proof.Laws
end

