-- ==== Sys2Proof/Tests/Slice0.lean ====
section
/-! SUPPORT. The tests of this sitting, and for each statement with hypotheses a witness that meets them.
Expected values are those of 95_test_vectors.md (named by their id there) or worked out by hand from the rule
named. Defaults: 1 MHz, so one sample is one microsecond. -/

namespace Sys2Proof.Tests

open Sys2Proof.Machine

/-! ### Helpers -/

/-- The next state, if there is one. -/
def nextOf (o : Host.Outcome State Fault Refusal) : Option State :=
  match o with
  | .next t => some t
  | .fault _ => none
  | .refused _ => none

/-- The LUT at 1 MHz, vector LUT-1. -/
def lut1M : Lut := ⟨⟨140#64, 290#64⟩, ⟨280#64, 580#64⟩, ⟨700#64, 1000#64⟩, ⟨3000#64, 6000#64⟩⟩

/-- A session at 1 MHz in a phase, with its last edge at `p`. -/
def sess (ph : Phase) (p : Sample) : State :=
  { State.reset with phase := ph, prev := some p, sampleRate := 1000000#32, lut := lut1M }

/-- A session in which bit `p` waits for its end, as in section 2.8: its symbol begins at 80000. -/
def bitAt (p : BitVec 7) (b : Bool) (bs : Sample) : State :=
  { sess .dataEnd 80400#64 with
    bitCount := p, pendBit := b, bitStart := 80000#64, blockStart := some bs }

/-- A block halted by CMD-16. -/
def halted : State := { State.reset with faultCode := .illegalCmd, faultInfo := 0x25#8 }

/-- An annotation that waits for delivery. -/
def ann1 : Annotation := ⟨.header, 10200#64, 14200#64, 0#32⟩

/-! ### Well-formedness: each check refuses a term -/

theorem test_wf_nop_sub : ¬ (Instr.nop 1#4 0#64).wellFormed 64 := by decide
theorem test_wf_nop_payload : ¬ (Instr.nop 0#4 1#64).wellFormed 64 := by decide
theorem test_wf_cfgw_address : ¬ (Instr.cfgw 2#4 0#64).wellFormed 64 := by decide
theorem test_wf_cfgw_width : ¬ (Instr.cfgw 0#4 0x100000000#64).wellFormed 64 := by decide
theorem test_wf_start_sub : ¬ (Instr.start 8#4 0#64).wellFormed 64 := by decide
theorem test_wf_start_payload : ¬ (Instr.start 0#4 0xFF#64).wellFormed 64 := by decide
theorem test_wf_edge_sub : ¬ (Instr.edge 2#4 0#64).wellFormed 64 := by decide
theorem test_wf_edge_sample : ¬ (Instr.edge 1#4 65536#64).wellFormed 16 := by decide
theorem test_wf_end_sub : ¬ (Instr.endSession 1#4 0#64).wellFormed 64 := by decide
theorem test_wf_end_payload : ¬ (Instr.endSession 0#4 1#64).wellFormed 64 := by decide
theorem test_wf_accepts_the_widest :
    (Instr.edge 1#4 0xFFFFFFFFFFFFFFFF#64).wellFormed 64 ∧
    (Instr.cfgw 1#4 0xFFFFFFFF#64).wellFormed 64 ∧ (Instr.reset 15#4 7#64).wellFormed 64 := by decide

/-! ### Decoding: words written out from 30_encoding.md R61 and the vectors ENC-1 to ENC-17 -/

theorem test_decode_enc1 : decodeWord 0x000000000000000000#72 = .nop 0#4 0#64 := by decide
theorem test_decode_enc2 : decodeWord 0x100000000000000000#72 = .reset 0#4 0#64 := by decide
theorem test_decode_enc3 :
    decodeWord 0x1F0123456789ABCDEF#72 = .reset 0xF#4 0x123456789ABCDEF#64 := by decide
theorem test_decode_enc4 : decodeWord 0x2000000000000F4240#72 = .cfgw 0#4 1000000#64 := by decide
theorem test_decode_enc5 : decodeWord 0x210000000000000008#72 = .cfgw 1#4 8#64 := by decide
theorem test_decode_enc6 : decodeWord 0x300000000000000000#72 = .start 0#4 0#64 := by decide
theorem test_decode_enc7 : decodeWord 0x4100000000000003E8#72 = .edge 1#4 1000#64 := by decide
theorem test_decode_enc8 : decodeWord 0x400000000000000578#72 = .edge 0#4 1400#64 := by decide
theorem test_decode_enc9 : decodeWord 0x500000000000000000#72 = .endSession 0#4 0#64 := by decide
theorem test_decode_enc10 : decodeWord 0x600000000000000000#72 = .reserved67 0#1 0#4 0#64 := by decide
theorem test_decode_enc11 : decodeWord 0xF00000000000000000#72 = .reserved8F 7#3 0#4 0#64 := by decide
theorem test_decode_enc12 : decodeWord 0x000000000000000001#72 = .nop 0#4 1#64 := by decide
theorem test_decode_enc13 : decodeWord 0x250000000000000001#72 = .cfgw 5#4 1#64 := by decide
theorem test_decode_enc14 : decodeWord 0x200000000100000000#72 = .cfgw 0#4 0x100000000#64 := by decide
theorem test_decode_enc15 : decodeWord 0x430000000000000010#72 = .edge 3#4 16#64 := by decide
theorem test_decode_enc16 : decodeWord 0x3000000000000000FF#72 = .start 0#4 0xFF#64 := by decide
theorem test_decode_enc17 :
    decodeWord 0x41FFFFFFFFFFFFFFFF#72 = .edge 1#4 0xFFFFFFFFFFFFFFFF#64 := by decide
/-- The other reserved opcodes of the two rows, by `op[0]` and `op[2:0]`. -/
theorem test_decode_reserved :
    decodeWord 0x7A0000000000000001#72 = .reserved67 1#1 0xA#4 1#64 ∧
    decodeWord 0x800000000000000000#72 = .reserved8F 0#3 0#4 0#64 ∧
    decodeWord 0xC00000000000000000#72 = .reserved8F 4#3 0#4 0#64 := by decide

/-- The bytes of ENC-7 (20_memory.md R51), with a byte after them. -/
theorem test_decode_bytes :
    decode [0xE8#8, 3#8, 0#8, 0#8, 0#8, 0#8, 0#8, 0#8, 0x41#8, 0x99#8] =
      .ok (.edge 1#4 1000#64, [0x99#8]) := by rfl
theorem test_decode_truncated :
    decode [0xE8#8, 3#8, 0#8, 0#8, 0#8, 0#8, 0#8, 0#8] = .error (.truncated 8) := by rfl
theorem test_encode_bytes :
    encode (.cfgw 0#4 1000000#64) = [0x40#8, 0x42#8, 0x0F#8, 0#8, 0#8, 0#8, 0#8, 0#8, 0x20#8] := by
  decide
theorem test_table_word : decodeTableWord 72 0x4100000000000003E8 = some (.edge 1#4 1000#64) := by
  decide
/-- A table word of fewer bits leaves the bits above it zero. -/
theorem test_table_word_short : decodeTableWord 8 0x1FF = some (.nop 0#4 0xFF#64) := by decide

/-! ### The step -/

/-- ENC-4 as the first command after reset. -/
theorem test_step_runs_the_offered_word :
    nextOf (step (State.reset.withFetchWord 72 0x2000000000000F4240)) =
      some { State.reset with sampleRate := 1000000#32 } := by decide
theorem test_step_waits : nextOf (step State.reset) = some State.reset := by decide
/-- An annotation is held, and not valid, while `cwo` is not ready, and no command is taken
(70_reset_and_hazards.md R262). -/
theorem test_step_holds_a_record :
    let s := { State.reset with pins := ⟨false, true, false⟩, pending := [.ann ann1],
                                cmdIn := [0x300000000000000000#72] }
    nextOf (step s) = some s ∧ s.annPort = none := by decide
/-- No command is taken while the host holds the ready signal of `cwo` low (70_reset_and_hazards.md R262). -/
theorem test_step_takes_no_command_unready :
    nextOf (step { State.reset with pins := ⟨false, true, false⟩, cmdIn := [0x2000000000000F4240#72] }) =
      some { State.reset with pins := ⟨false, true, false⟩, cmdIn := [0x2000000000000F4240#72] } := by
  decide
/-- `rst` wins over a waiting record and a waiting command (70_reset_and_hazards.md R250). -/
theorem test_step_reset_pin :
    nextOf (step { sess .data 70000#64 with pins := ⟨true, true, true⟩, lastBitPad := 3#32,
                                            faultCode := .order, pending := [.ann ann1] }) =
      some { State.reset with pins := ⟨true, true, true⟩ } := by decide

/-! ### NOP, RESET, CFGW, START, END and the reserved opcodes: section 2.9 -/

/-- CMD-4 -/
theorem test_nop :
    nextOf (exec (.nop 0#4 0#64) { sess .preamble 1000#64 with teCount := 7#6 }) =
      some { sess .preamble 1000#64 with teCount := 7#6 } := by decide
/-- ENC-12 -/
theorem test_nop_illegal :
    nextOf (exec (.nop 0#4 1#64) State.reset) =
      some { State.reset with faultCode := .illegalCmd, faultInfo := 0x00#8 } := by decide
/-- CMD-14 -/
theorem test_reset :
    nextOf (exec (.reset 0#4 0#64) (bitAt 12#7 true 14200#64)) =
      some { State.reset with sampleRate := 1000000#32 } := by decide
/-- CMD-3 -/
theorem test_reset_leaves_the_fault :
    nextOf (exec (.reset 0xF#4 0x123456789ABCDEF#64)
        { State.reset with faultCode := .noSampleRate, faultInfo := 0x30#8 }) =
      some State.reset := by decide
/-- CMD-15 -/
theorem test_cfgw :
    nextOf (exec (.cfgw 0#4 0xAC44#64) State.reset) =
      some { State.reset with sampleRate := 44100#32 } := by decide
/-- CMD-5 -/
theorem test_cfgw_busy :
    nextOf (exec (.cfgw 1#4 4#64) (sess .preamble 1000#64)) =
      some { sess .preamble 1000#64 with faultCode := .cfgBusy, faultInfo := 0x21#8 } := by decide
/-- CMD-13 -/
theorem test_start :
    nextOf (exec (.start 0#4 0#64) { bitAt 12#7 true 14200#64 with lut := .zero }) =
      some { sess .anchor 0#64 with prev := none } := by decide
/-- CMD-1 -/
theorem test_start_without_rate :
    nextOf (exec (.start 0#4 0#64) State.reset) =
      some { State.reset with faultCode := .noSampleRate, faultInfo := 0x30#8 } := by decide
/-- CMD-12 -/
theorem test_end :
    nextOf (exec (.endSession 0#4 0#64) { sess .data 1000#64 with bitCount := 40#7, acc := 0x123#32 }) =
      some { sess .idle 1000#64 with bitCount := 40#7, acc := 0x123#32 } := by decide
/-- ENC-10 -/
theorem test_reserved67 :
    nextOf (exec (.reserved67 0#1 0#4 0#64) State.reset) =
      some { State.reset with faultCode := .illegalCmd, faultInfo := 0x60#8 } := by decide
/-- ENC-11 -/
theorem test_reserved8F :
    nextOf (exec (.reserved8F 7#3 0#4 0#64) State.reset) =
      some { State.reset with faultCode := .illegalCmd, faultInfo := 0xF0#8 } := by decide
/-- CMD-6: ILLEGAL_CMD comes before CFG_BUSY. -/
theorem test_illegal_first :
    nextOf (exec (.cfgw 5#4 4#64) (sess .preamble 1000#64)) =
      some { sess .preamble 1000#64 with faultCode := .illegalCmd, faultInfo := 0x25#8 } := by decide
/-- CMD-16 -/
theorem test_halted_keeps_the_first_fault :
    nextOf (exec (.start 0#4 0#64) halted) = some halted := by decide

/-! ### BUILD_LUT and CLASSIFY: sections 2.3 and 2.4 -/

theorem test_lut_1 : buildLut Params.default 1000000#32 = lut1M := by decide
theorem test_lut_3 :
    buildLut Params.default 44100#32 =
      ⟨⟨7#64, 12#64⟩, ⟨13#64, 25#64⟩, ⟨31#64, 44#64⟩, ⟨133#64, 264#64⟩⟩ := by decide
theorem test_lut_6 :
    buildLut Params.default 1#32 =
      ⟨⟨1#64, 0#64⟩, ⟨1#64, 0#64⟩, ⟨1#64, 0#64⟩, ⟨1#64, 0#64⟩⟩ := by decide
theorem test_lut_7 :
    buildLut Params.default 4294967295#32 =
      ⟨⟨601296#64, 1245540#64⟩, ⟨1202591#64, 2491081#64⟩, ⟨3006478#64, 4294967#64⟩,
       ⟨12884902#64, 25769803#64⟩⟩ := by decide
/-- CLS-2 to CLS-5 and CLS-7 to CLS-19, at the ends of the windows -/
theorem test_classify_1M :
    [139#64, 140#64, 279#64, 280#64, 290#64, 291#64, 580#64, 581#64, 699#64, 700#64, 1000#64,
      1001#64, 2999#64, 3000#64, 6000#64, 6001#64].map (fun d => (classify lut1M d).bits) =
    [0b00000#5, 0b00001#5, 0b00001#5, 0b01011#5, 0b01011#5, 0b01010#5, 0b01010#5, 0b00000#5,
      0b00000#5, 0b10000#5, 0b10000#5, 0b00000#5, 0b00000#5, 0b00100#5, 0b00100#5,
      0b00000#5] := by decide
/-- CLS-34 to CLS-39 -/
theorem test_classify_250k :
    [69#64, 70#64, 72#64, 73#64, 145#64, 146#64].map
      (fun d => (classify (buildLut Params.default 250000#32) d).bits) =
    [0b00001#5, 0b01011#5, 0b01011#5, 0b01010#5, 0b01010#5, 0b00000#5] := by decide
/-- Categories with the phase in mind (40_timing_classifier.md R107), at 285 samples. -/
theorem test_category :
    category .preamble (classify lut1M 285#64) = [.preambleShort, .preambleStd] ∧
    category .data (classify lut1M 285#64) = [.bit1Half] ∧
    category .header (classify lut1M 285#64) = [.invalid] := by decide
/-- Categories of the match vector alone (30_encoding.md R80), at CLS-6, CLS-12, CLS-17 and CLS-11. -/
theorem test_categories :
    [285#64, 700#64, 4000#64, 699#64].map (fun d => (classify lut1M d).categories) =
      [[.preambleShort, .preambleStd, .bit1Half], [.bit0Half], [.headerGap], [.invalid]] := by decide

/-! ### EDGE before and at the anchor: section 2.9 -/

/-- CMD-8 -/
theorem test_edge_idle : nextOf (exec (.edge 1#4 1000#64) State.reset) = some State.reset := by decide
/-- CMD-10 -/
theorem test_edge_anchor :
    nextOf (exec (.edge 1#4 1000#64) { sess .anchor 0#64 with prev := none }) =
      some (sess .preamble 1000#64) := by decide
/-- CMD-11 -/
theorem test_edge_order :
    nextOf (exec (.edge 0#4 1000#64) (sess .preamble 1000#64)) =
      some { sess .preamble 1000#64 with faultCode := .order, faultInfo := 0x40#8 } := by decide
/-- ENC-15 -/
theorem test_edge_illegal :
    nextOf (exec (.edge 3#4 16#64) (sess .preamble 1000#64)) =
      some { sess .preamble 1000#64 with faultCode := .illegalCmd, faultInfo := 0x43#8 } := by decide

/-! ### PRE_STEP and HDR_STEP: sections 2.5 and 2.6 -/

/-- PRE-3 -/
theorem test_pre_3 :
    nextOf (exec (.edge 1#4 50400#64)
        { sess .preamble 50000#64 with teCount := 22#6, blockStart := some 1000#64 }) =
      some { sess .header 50400#64 with
        teCount := 24#6, blockStart := some 1000#64
        pending := [.ann ⟨.teIndex, 50000#64, 50400#64, 0x16#32⟩,
                    .ann ⟨.preamble, 1000#64, 50400#64, 0#32⟩] } := by decide
/-- PRE-6 -/
theorem test_pre_6 :
    nextOf (exec (.edge 1#4 50285#64)
        { sess .preamble 50000#64 with
          teCount := 22#6, blockStart := some 1000#64
          cfg := { Params.default with overlap := .shortFirst } }) =
      some { sess .preamble 50285#64 with
        teCount := 23#6, blockStart := some 1000#64
        cfg := { Params.default with overlap := .shortFirst }
        pending := [.ann ⟨.teIndex, 50000#64, 50285#64, 0x16#32⟩] } := by decide
/-- PRE-9 -/
theorem test_pre_9 :
    nextOf (exec (.edge 1#4 50285#64)
        { sess .preamble 50000#64 with teCount := 44#6, blockStart := some 1000#64 }) =
      some { sess .header 50285#64 with
        teCount := 46#6, blockStart := some 1000#64, variant := .short
        pending := [.ann ⟨.teIndex, 50000#64, 50285#64, 0x2C#32⟩,
                    .ann ⟨.preamble, 1000#64, 50285#64, 1#32⟩] } := by decide
/-- PRE-10 -/
theorem test_pre_10 :
    nextOf (exec (.edge 1#4 50285#64)
        { sess .preamble 50000#64 with
          teCount := 44#6, blockStart := some 1000#64
          cfg := { Params.default with overlap := .stdFirst } }) =
      some { sess .preamble 50285#64 with cfg := { Params.default with overlap := .stdFirst } } := by
  decide
/-- PRE-11 -/
theorem test_pre_11 :
    nextOf (exec (.edge 1#4 50400#64)
        { sess .preamble 50000#64 with teCount := 23#6, blockStart := some 1000#64 }) =
      some (sess .preamble 50400#64) := by decide
/-- HDR-3 -/
theorem test_hdr_3 :
    nextOf (exec (.edge 1#4 66000#64)
        { sess .header 60000#64 with teCount := 24#6, blockStart := some 1000#64 }) =
      some { sess .data 66000#64 with pending := [.ann ⟨.header, 60000#64, 66000#64, 0#32⟩] } := by
  decide
/-- HDR-8 -/
theorem test_hdr_8 :
    nextOf (exec (.edge 1#4 60200#64)
        { sess .header 60000#64 with
          teCount := 46#6, variant := .short, blockStart := some 1000#64 }) =
      some { sess .preamble 60200#64 with variant := .short } := by decide

/-! ### The bit resolver and the field assembler: sections 2.7 and 2.8 -/

/-- BIT-2 -/
theorem test_bit_2 :
    nextOf (exec (.edge 0#4 70800#64)
        { sess .data 70000#64 with bitCount := 5#7, blockStart := some 14200#64 }) =
      some { sess .dataEnd 70800#64 with
        bitCount := 5#7, blockStart := some 14200#64, bitStart := 70000#64 } := by decide
/-- BIT-3 -/
theorem test_bit_3 :
    nextOf (exec (.edge 0#4 71500#64)
        { sess .data 70000#64 with
          bitCount := 10#7, blockStart := some 14200#64, acc := 0x3FF#32 }) =
      some { sess .preamble 71500#64 with
        pending := [.ann ⟨.invalidBit, 70000#64, 71500#64, 0#32⟩] } := by decide
/-- BIT-8 -/
theorem test_bit_8 :
    nextOf (exec (.edge 0#4 99999#64)
        { sess .dataEnd 70000#64 with
          bitCount := 3#7, bitStart := 69600#64, blockStart := some 14200#64 }) =
      some { sess .data 99999#64 with
        bitCount := 4#7, bitStart := 69600#64, blockStart := some 14200#64
        pending := [.ann ⟨.logicalBit, 69600#64, 99999#64, 0#32⟩] } := by decide
/-- BIT-11: the pad of bit 65 wraps. -/
theorem test_bit_11 :
    (nextOf (exec (.edge 0#4 18446744073709551612#64)
        { sess .data 18446744073709550812#64 with bitCount := 65#7 })).map (·.pending) =
      some [.ann ⟨.logicalBit, 18446744073709550812#64, 4#64, 0#32⟩,
            .ann ⟨.rptBlock, 18446744073709550812#64, 4#64, 0#32⟩,
            .ann ⟨.rptValue, 18446744073709550812#64, 4#64, 0#32⟩, .cw 0#72] := by decide
/-- ASM-1 -/
theorem test_asm_1 :
    nextOf (exec (.edge 0#4 81200#64) { bitAt 31#7 true 14200#64 with acc := 0x7FFFFFFF#32 }) =
      some { bitAt 32#7 true 0#64 with
        phase := .data, blockStart := none, prev := some 81200#64
        cw := { CodeWord.empty with enc := 0xFFFFFFFF#32, popEnc := true }
        pending := [.ann ⟨.logicalBit, 80000#64, 81200#64, 1#32⟩,
                    .ann ⟨.encBlock, 14200#64, 81200#64, 0#32⟩,
                    .ann ⟨.encValue, 14200#64, 81200#64, 0xFFFFFFFF#32⟩] } := by decide
/-- ASM-4 -/
theorem test_asm_4 :
    nextOf (exec (.edge 0#4 81200#64) { bitAt 59#7 true 52600#64 with acc := 0x2BCDE12#32 }) =
      some { bitAt 60#7 true 0#64 with
        phase := .data, blockStart := none, prev := some 81200#64
        cw := { CodeWord.empty with ser := 0xABCDE12#28, popSer := true }
        pending := [.ann ⟨.logicalBit, 80000#64, 81200#64, 1#32⟩,
                    .ann ⟨.serBlock, 52600#64, 81200#64, 0#32⟩,
                    .ann ⟨.serValue, 52600#64, 81200#64, 0xABCDE12#32⟩] } := by decide
/-- ASM-9 -/
theorem test_asm_9 :
    nextOf (exec (.edge 0#4 81200#64)
        { bitAt 63#7 false 76400#64 with cw := { CodeWord.empty with btn := 0b101#4 } }) =
      some { bitAt 64#7 false 0#64 with
        phase := .data, blockStart := none, prev := some 81200#64
        cw := { CodeWord.empty with btn := 0b101#4, popS2 := true }
        pending := [.ann ⟨.logicalBit, 80000#64, 81200#64, 0#32⟩,
                    .ann ⟨.buttonBit, 80000#64, 81200#64, 6#32⟩,
                    .ann ⟨.buttonCode, 76400#64, 81200#64, 5#32⟩] } := by decide
/-- ASM-10 -/
theorem test_asm_10 :
    nextOf (exec (.edge 0#4 81200#64) (bitAt 64#7 true 80000#64)) =
      some { bitAt 65#7 true 0#64 with
        phase := .data, blockStart := none, prev := some 81200#64
        cw := { CodeWord.empty with lowbat := true, popLowbat := true }
        pending := [.ann ⟨.logicalBit, 80000#64, 81200#64, 1#32⟩,
                    .ann ⟨.vlowBlock, 80000#64, 81200#64, 0#32⟩,
                    .ann ⟨.vlowValue, 80000#64, 81200#64, 1#32⟩] } := by decide
/-- ASM-5 and ASM-8 -/
theorem test_asm_5_8 :
    (nextOf (exec (.edge 0#4 81200#64) { bitAt 5#7 true 14200#64 with acc := 5#32 })).map
      (fun t => (t.acc, t.bitCount)) = some (0x25#32, 6#7) ∧
    (nextOf (exec (.edge 0#4 81200#64)
        { bitAt 61#7 false 78800#64 with cw := { CodeWord.empty with btn := 1#4 } })).map
      (fun t => (t.cw.btn, t.cw.popS0, t.blockStart)) = some (1#4, true, some 78800#64) := by decide

/-! ### Records, the status port and texts: sections 2.2 and 3 -/

/-- REC-1, REC-5 and REC-7 -/
theorem test_records :
    Annotation.record ⟨.preamble, 1000#64, 10200#64, 0#32⟩ =
      0x010000000000000000000027D800000000000003E8#168 ∧
    Annotation.record ⟨.encValue, 14200#64, 52600#64, 0x55555555#32⟩ =
      0x6655555555000000000000CD780000000000003778#168 ∧
    Annotation.record ⟨.buttonBit, 89800#64, 91000#64, 6#32⟩ =
      0x890000000600000000000163780000000000015EC8#168 := by decide
/-- REC-2, REC-4, REC-8 and REC-9 -/
theorem test_records_more :
    Annotation.record ⟨.header, 10200#64, 14200#64, 0#32⟩ =
      0x0200000000000000000000377800000000000027D8#168 ∧
    Annotation.record ⟨.logicalBit, 14200#64, 15400#64, 1#32⟩ =
      0x23000000010000000000003C280000000000003778#168 ∧
    Annotation.record ⟨.vlowValue, 91000#64, 92200#64, 1#32⟩ =
      0x8C0000000100000000000168280000000000016378#168 ∧
    Annotation.record ⟨.rptValue, 92200#64, 93008#64, 0#32⟩ =
      0x8E000000000000000000016B500000000000016828#168 := by decide
/-- The bytes of REC-1 -/
theorem test_record_bytes :
    OutRecord.bytes (.ann ⟨.preamble, 1000#64, 10200#64, 0#32⟩) =
      [0xE8#8, 3#8, 0#8, 0#8, 0#8, 0#8, 0#8, 0#8, 0xD8#8, 0x27#8, 0#8, 0#8, 0#8, 0#8, 0#8, 0#8, 0#8,
       0#8, 0#8, 0#8, 1#8] := by decide
/-- The code-word record of the scenario of section 2.2 -/
theorem test_code_word_record :
    CodeWord.record { CodeWord.empty with enc := 0x55555555#32, btn := 0b0101#4, lowbat := true } =
      0x015000000055555555#72 := by decide
/-- The status word at the end of P4 -/
theorem test_status_word_p4 :
    State.stWord { State.reset with
      bitCount := 2#7, blockStart := some 4100#64, prev := some 4800#64, bitStart := 4700#64
      pendBit := true, acc := 1#32 } = 0xE00800#32 := by decide
/-- The status word at the end of P3 -/
theorem test_status_word_p3 :
    State.stWord { sess .preamble 1000#64 with faultCode := .order, faultInfo := 0x40#8 } =
      0x460002#32 := by decide
/-- Reserved codes are refused (93_implementation_defined.md I5, I8, I9). -/
theorem test_reserved_codes :
    Phase.ofCode 6#3 = none ∧ FaultCode.ofCode 5#4 = none ∧ Kind.ofCode 15#5 = none ∧
    Phase.ofCode 5#3 = some .dataEnd ∧ FaultCode.ofCode 4#4 = some .cfgBusy ∧
    Kind.ofCode 14#5 = some .rptValue := by decide
/-- E5 and ASM-4: hexadecimal texts -/
theorem test_hex :
    hex7 0#32 = "0x0000000".toList ∧ hex7 1#32 = "0x0000001".toList ∧
    hex7 0xABCDE12#32 = "0xABCDE12".toList ∧ hex7 0xFFFFFFFF#32 = "0xFFFFFFFF".toList := by decide
/-- E9, REC-3, REC-7 and REC-9: texts -/
theorem test_texts :
    Annotation.text ⟨.teIndex, 0#64, 0#64, 22#32⟩ = "TE 22".toList ∧
    Annotation.text ⟨.logicalBit, 0#64, 0#64, 1#32⟩ = "Bit 1".toList ∧
    Annotation.text ⟨.buttonBit, 0#64, 0#64, 1#32⟩ = "S3 = 1".toList ∧
    Annotation.text ⟨.buttonBit, 0#64, 0#64, 6#32⟩ = "S2 = 0".toList ∧
    Annotation.text ⟨.vlowValue, 0#64, 0#64, 1#32⟩ = "Battery Low".toList ∧
    Annotation.text ⟨.rptValue, 0#64, 0#64, 0#32⟩ = "RPT=No".toList := by decide
/-- A few lines of P4, with a comment and a hexadecimal number -/
theorem test_assemble :
    assembleText "CFGW SAMPLE_RATE, 250000 ; rate\nSTART\nEDGE R, 0x0\nTOG 100\nDEDGE F, 7\nEND\n".toList =
      some [.cfgw 0#4 250000#64, .start 0#4 0#64, .edge 1#4 0#64, .edge 0#4 100#64,
            .edge 0#4 107#64, .endSession 0#4 0#64] := by decide

/-! ### Witnesses: states and operands that meet the hypotheses of each statement, clause by clause -/

theorem witness_EncodeInvertsDecode : (List.replicate 9 0xA5#8).length = 9 := by decide
theorem witness_DecodeRefusesTruncatedWords :
    ([] : List Byte).length < 9 ∧ (List.replicate 8 0xA5#8).length < 9 := by decide

theorem witness_IllegalExactlyOutsideTheRows :
    State.reset.faultCode = .noFault ∧ State.reset.cfg.sampleW ≤ 64 := by decide
/-- One command for each way to be illegal, at the least illegal value; and RESET completes. -/
theorem witness_IllegalCommandsFault :
    State.reset.faultCode = .noFault ∧
    (Instr.nop 1#4 0#64).illegal 64 ∧ (Instr.nop 0#4 1#64).illegal 64 ∧
    (Instr.cfgw 2#4 0#64).illegal 64 ∧ (Instr.cfgw 0#4 0x100000000#64).illegal 64 ∧
    (Instr.start 1#4 0#64).illegal 64 ∧ (Instr.start 0#4 1#64).illegal 64 ∧
    (Instr.edge 2#4 0#64).illegal 64 ∧ (Instr.edge 0#4 0x10000#64).illegal 16 ∧
    (Instr.endSession 1#4 0#64).illegal 64 ∧ (Instr.endSession 0#4 1#64).illegal 64 ∧
    (Instr.reserved67 0#1 0#4 0#64).illegal 64 ∧ (Instr.reserved8F 0#3 0#4 0#64).illegal 64 ∧
    nextOf (exec (.reset 0xF#4 1#64) halted) = some State.reset := by decide

/-- A block ready for ENC-7, with levels that hold and with levels that change. -/
theorem witness_StepRunsTheDecodedCommand :
    let s := { State.reset with cmdIn := [0x4100000000000003E8#72] }
    s.pins = ⟨false, true, true⟩ ∧ s.pending = [] ∧ s.cmdIn = 0x4100000000000003E8#72 :: [] ∧
    decode (bytesLE 9 0x4100000000000003E8#72) = .ok (.edge 1#4 1000#64, []) ∧
    s.pinsAhead = [] ∧
    { s with pinsAhead := [⟨false, false, false⟩] }.pinsAhead = ⟨false, false, false⟩ :: [] :=
  ⟨rfl, rfl, rfl, rfl, rfl, rfl⟩
/-- A pending bit, with levels that hold and with ready levels that change. -/
theorem witness_NoCommandMeansNoChange :
    let s := bitAt 31#7 true 14200#64
    s.pins.rst = false ∧ s.pending = [] ∧ s.cmdIn = [] ∧ s.pinsAhead = [] ∧
    (∀ p ∈ s.pinsAhead, p.rst = false) ∧
    ∀ p ∈ { s with pinsAhead := [⟨false, false, true⟩, ⟨false, true, false⟩] }.pinsAhead,
      p.rst = false := by decide
/-- A record for each port first, with both levels active and with each one low. -/
theorem witness_StepDeliversTheOldestRecord :
    ∀ o ∈ [OutRecord.ann ann1, .cw 5#72],
      let s := { State.reset with pending := [o, .cw 6#72] }
      s.pins.rst = false ∧ s.pinsAhead = [] ∧ s.pending = o :: [.cw 6#72] ∧
      s.pins.annReady = true ∧ s.pins.cwoReady = true ∧
      { s with pins := ⟨false, false, true⟩ }.pins.annReady = false ∧
      { s with pins := ⟨false, true, false⟩ }.pins.cwoReady = false := by decide
/-- Records held by either port, and a block with nothing to deliver, with each ready level low and with
both active. -/
theorem witness_OutputsAreKeptInOrder :
    (∃ t, step { State.reset with pins := ⟨false, false, true⟩, pending := [.ann ann1, .cw 5#72] } =
      .next t ∧ [OutRecord.ann ann1, .cw 5#72] ≠ []) ∧
    (∃ t, step { State.reset with pins := ⟨false, true, false⟩, pending := [.ann ann1] } = .next t) ∧
    (∃ t, step { State.reset with pins := ⟨false, false, true⟩, cmdIn := [0#72] } = .next t) ∧
    (∃ t, step { State.reset with pins := ⟨false, true, false⟩, cmdIn := [0#72] } = .next t) ∧
    (∃ t, step { State.reset with cmdIn := [0#72] } = .next t ∧ State.reset.pins.rst = false ∧
      State.reset.pending = [] ∧ State.reset.pins.annReady = true ∧
      State.reset.pins.cwoReady = true) :=
  ⟨⟨_, rfl, by decide⟩, ⟨_, rfl⟩, ⟨_, rfl⟩, ⟨_, rfl⟩, ⟨_, rfl, rfl, rfl, rfl, rfl⟩⟩
theorem witness_ResetPinResetsEverything :
    let s := { sess .data 1000#64 with pins := ⟨true, true, true⟩ }
    s.pins.rst = true ∧ s.cfg = Params.default ∧ s.pinsAhead = [] ∧
    { s with pinsAhead := [⟨false, true, true⟩] }.pinsAhead = ⟨false, true, true⟩ :: [] := by decide

theorem witness_NopLeavesTheState :
    ((1#4 ≠ 0#4 ∨ 0#64 ≠ 0#64) ∧ State.reset.faultCode = .noFault) ∧
    ((0#4 ≠ 0#4 ∨ 1#64 ≠ 0#64) ∧ State.reset.faultCode = .noFault) ∧ halted.faulted := by decide
/-- Data at both ends of its range in IDLE; a session; the least reserved address and data; a halted block. -/
theorem witness_CfgwWritesOneRegister :
    (State.reset.faultCode = .noFault ∧ (0xFFFFFFFF#64).toNat < 2 ^ 32 ∧ (0#64).toNat < 2 ^ 32 ∧
      State.reset.phase = .idle) ∧
    ((sess .anchor 0#64).faultCode = .noFault ∧ (1#4 = 0x0#4 ∨ 1#4 = 0x1#4) ∧
      (sess .anchor 0#64).phase ≠ .idle) ∧
    (2#4 ≠ 0x0#4 ∧ 2#4 ≠ 0x1#4) ∧ 2 ^ 32 ≤ (0x100000000#64).toNat ∧ halted.faulted := by decide
theorem witness_StartBeginsASession :
    let s := { State.reset with sampleRate := 1#32 }
    (s.faultCode = .noFault ∧ s.sampleRate ≠ 0#32) ∧
    (State.reset.faultCode = .noFault ∧ State.reset.sampleRate = 0#32) ∧
    (1#4 ≠ 0#4 ∨ 0#64 ≠ 0#64) ∧ (0#4 ≠ 0#4 ∨ 1#64 ≠ 0#64) ∧ halted.faulted := by decide
/-- The least and the greatest rate. -/
theorem witness_LutBoundsAreCeilAndFloor :
    let s := { State.reset with sampleRate := 1#32 }
    let u := { State.reset with sampleRate := 0xFFFFFFFF#32 }
    s.faultCode = .noFault ∧ s.sampleRate ≠ 0#32 ∧ s.cfg.wf ∧
    u.faultCode = .noFault ∧ u.sampleRate ≠ 0#32 ∧ u.cfg.wf := by decide
theorem witness_LutMatchesRealDurations :
    let s := { State.reset with sampleRate := 44100#32 }
    s.faultCode = .noFault ∧ s.sampleRate ≠ 0#32 ∧ s.cfg.wf ∧ 1 ≤ 1 ∧ 1 ≤ 13 := by decide
theorem witness_EdgeIgnoredWithoutSession :
    edgeLegal State.reset 1#4 0xFFFFFFFFFFFFFFFF#64 ∧ edgeLegal State.reset 0#4 0#64 ∧
    State.reset.phase = .idle := by decide
theorem witness_FirstRisingEdgeAnchors :
    let s := { sess .anchor 0#64 with prev := none }
    s.phase = .anchor ∧ edgeLegal s 0x1#4 0#64 ∧ edgeLegal s 0x0#4 0xFFFFFFFFFFFFFFFF#64 := by decide
/-- An equal sample, in each phase after the anchor. -/
theorem witness_EdgeOutOfOrderFaults :
    ∀ ph ∈ [Phase.preamble, .header, .data, .dataEnd],
      edgeLegal (sess ph 1000#64) 1#4 1000#64 ∧ (sess ph 1000#64).phase.timed ∧
      (sess ph 1000#64).prev = some 1000#64 ∧ (1000#64).toNat ≤ (1000#64).toNat := by decide
theorem witness_EndClosesTheSession :
    (sess .dataEnd 0#64).faultCode = .noFault ∧ (1#4 ≠ 0#4 ∨ 0#64 ≠ 0#64) ∧
    (0#4 ≠ 0#4 ∨ 1#64 ≠ 0#64) ∧ halted.faulted := by decide
theorem witness_ReservedOpcodesFault : State.reset.faultCode = .noFault ∧ halted.faulted := by decide
theorem witness_HaltedBlockIgnoresCommands :
    State.reset.faultCode = .noFault ∧ halted.faulted ∧
    ∀ sub payload, Instr.start 0#4 0#64 ≠ .reset sub payload :=
  ⟨by decide, by decide, by intro _ _ h; cases h⟩

/-- A next state with a fault, from each cause. -/
theorem witness_FaultEntryIsPrecise :
    State.reset.faultCode = .noFault ∧ (sess .data 1000#64).faultCode = .noFault ∧
    (∃ t, exec (.start 0#4 0#64) State.reset = .next t ∧ t.faulted) ∧
    (∃ t, exec (.nop 1#4 0#64) State.reset = .next t ∧ t.faulted) ∧
    (∃ t, exec (.edge 0#4 1000#64) (sess .data 1000#64) = .next t ∧ t.faulted) ∧
    (∃ t, exec (.cfgw 0#4 0#64) (sess .data 1000#64) = .next t ∧ t.faulted) :=
  ⟨rfl, rfl, ⟨_, rfl, by decide⟩, ⟨_, rfl, by decide⟩, ⟨_, rfl, by decide⟩, ⟨_, rfl, by decide⟩⟩
theorem witness_FaultsHaveTheirCauses :
    (∃ t, exec (.start 0#4 0#64) halted = .next t ∧ halted.faulted ∧
      ∀ sub payload, Instr.start 0#4 0#64 ≠ .reset sub payload) ∧
    (∃ t, exec (.edge 0#4 1000#64) (sess .data 1000#64) = .next t ∧
      (sess .data 1000#64).faultCode = .noFault ∧ t.faulted) :=
  ⟨⟨_, rfl, by decide, by intro _ _ h; cases h⟩, ⟨_, rfl, by decide, by decide⟩⟩
/-- Both ways out of a fault. -/
theorem witness_OnlyResetLeavesTheFault :
    (∃ t, step { halted with pins := ⟨true, true, true⟩ } = .next t ∧ halted.faulted ∧
      t.faultCode = .noFault) ∧
    (∃ t, step { halted with cmdIn := [0x1F0123456789ABCDEF#72] } = .next t ∧
      t.faultCode = .noFault ∧ halted.pins = ⟨false, true, true⟩ ∧ halted.pending = [] ∧
      decodeWord 0x1F0123456789ABCDEF#72 = .reset 0xF#4 0x123456789ABCDEF#64) :=
  ⟨⟨_, rfl, by decide, by decide⟩, ⟨_, rfl, by decide, by decide, by decide, by decide⟩⟩
/-- A next state in which the registers of each clause have changed. -/
theorem witness_RegistersHaveTheirWriters :
    (∃ t, exec (.start 0#4 0#64) { bitAt 5#7 true 0#64 with teCount := 3#6, acc := 1#32, lut := .zero } =
      .next t ∧ t.phase ≠ .dataEnd ∧ t.teCount ≠ 3#6 ∧ t.blockStart ≠ some 0#64 ∧ t.acc ≠ 1#32 ∧
      t.lut ≠ .zero) ∧
    (∃ t, exec (.cfgw 0#4 7#64) State.reset = .next t ∧ t.sampleRate ≠ State.reset.sampleRate) ∧
    (∃ t, exec (.edge 0#4 81200#64) (bitAt 5#7 true 0#64) = .next t ∧ t.pending ≠ []) ∧
    (Instr.reset 0#4 0#64).op = 0x1#4 ∧ (Instr.nop 0#4 0#64).op = 0x0#4 ∧
    (Instr.endSession 0#4 0#64).op = 0x5#4 :=
  ⟨⟨_, rfl, by decide, by decide, by decide, by decide, by decide⟩, ⟨_, rfl, by decide⟩,
    ⟨_, rfl, by decide⟩, rfl, rfl, rfl⟩
theorem witness_DefaultWindowsOverlapOnlyInPreamble :
    let s := { State.reset with sampleRate := 44100#32 }
    s.faultCode = .noFault ∧ s.sampleRate ≠ 0#32 ∧ s.cfg.wPreShort = ⟨140, 290⟩ ∧
    s.cfg.wBit1 = ⟨280, 580⟩ ∧ s.cfg.wBit0 = ⟨700, 1000⟩ ∧ s.cfg.wHeader = ⟨3000, 6000⟩ := by decide

/-- Pulses that qualify: the last standard one, the last short one, and one that reaches no threshold. -/
theorem witness_QualifyingPulseIsCounted :
    (let s := { sess .preamble 50000#64 with teCount := 22#6 }
     edgeTimed s 1#4 50000#64 50580#64 ∧ s.phase = .preamble ∧
     pulseQualifies s.cfg s.teCount.toNat (isShort s 580) (isStd s 580)) ∧
    (let s := { sess .preamble 50000#64 with teCount := 44#6 }
     edgeTimed s 1#4 50000#64 50140#64 ∧
     pulseQualifies s.cfg s.teCount.toNat (isShort s 140) (isStd s 140)) ∧
    (let s := { sess .preamble 50000#64 with teCount := 22#6 }
     edgeTimed s 1#4 50000#64 50279#64 ∧
     pulseQualifies s.cfg s.teCount.toNat (isShort s 279) (isStd s 279) ∧
     ¬ (isShort s 279 ∧ s.teCount.toNat + 1 = s.cfg.nShort) ∧
     ¬ (isStd s 279 ∧ s.teCount.toNat + 1 = s.cfg.nStd)) :=
  ⟨by decide, by decide, by decide⟩
/-- The last pulse of each variant, in the window both share. -/
theorem witness_LastPulseCompletesThePreamble :
    (let s := { sess .preamble 50000#64 with teCount := 44#6 }
     edgeTimed s 1#4 50000#64 50290#64 ∧ s.phase = .preamble ∧ s.cfg.nStd ≠ s.cfg.nShort ∧
     isShort s 290 ∧ s.teCount.toNat + 1 = s.cfg.nShort) ∧
    (let s := { sess .preamble 50000#64 with teCount := 22#6 }
     edgeTimed s 1#4 50000#64 50280#64 ∧ isStd s 280 ∧ s.teCount.toNat + 1 = s.cfg.nStd) := by decide
/-- PRE-11, PRE-14 and HDR-5. -/
theorem witness_FailingEdgeRestartsTheSearch :
    (let s := { sess .preamble 50000#64 with teCount := 23#6 }
     edgeTimed s 1#4 50000#64 50400#64 ∧ s.phase = .preamble ∧
     ¬ pulseQualifies s.cfg s.teCount.toNat (isShort s 400) (isStd s 400)) ∧
    (let s := { sess .preamble 50000#64 with teCount := 12#6 }
     edgeTimed s 1#4 50000#64 50139#64 ∧
     ¬ pulseQualifies s.cfg s.teCount.toNat (isShort s 139) (isStd s 139)) ∧
    (let s := { sess .header 60000#64 with teCount := 24#6 }
     edgeTimed s 1#4 60000#64 66001#64 ∧ s.phase = .header ∧ ¬ s.lut.header.has 6001) := by decide
/-- HDR-2, HDR-6 at the window's end, and HDR-4. -/
theorem witness_HeaderGapStartsTheData :
    (let s := { sess .header 60000#64 with teCount := 24#6 }
     edgeTimed s 1#4 60000#64 63000#64 ∧ s.phase = .header ∧ s.lut.header.has 3000 ∧
     s.teCount.toNat = (if s.variant = .short then s.cfg.nShort else s.cfg.nStd) + 1) ∧
    (let s := { sess .header 60000#64 with teCount := 46#6, variant := .short }
     edgeTimed s 1#4 60000#64 66000#64 ∧ s.lut.header.has 6000 ∧
     s.teCount.toNat = (if s.variant = .short then s.cfg.nShort else s.cfg.nStd) + 1) ∧
    (let s := { sess .header 60000#64 with teCount := 24#6 }
     edgeTimed s 1#4 60000#64 62999#64 ∧ ¬ s.lut.header.has 2999) := by decide

/-- Half-bits of 1 and 0 at the ends of their windows, at positions 0 and 64. -/
theorem witness_HalfBitWaitsForItsEnd :
    (let s := sess .data 70000#64
     edgeTimed s 1#4 70000#64 70280#64 ∧ s.phase = .data ∧ s.bitCount ≠ 65#7 ∧ halfBit s 280 true) ∧
    (let s := { sess .data 70000#64 with bitCount := 64#7 }
     edgeTimed s 1#4 70000#64 71000#64 ∧ s.bitCount ≠ 65#7 ∧ halfBit s 1000 false) := by decide
/-- An interval between the windows, at positions 10 and 65. -/
theorem witness_InvalidHalfBitDiscardsTheWord :
    (let s := { sess .data 70000#64 with bitCount := 10#7 }
     edgeTimed s 1#4 70000#64 70581#64 ∧ s.phase = .data ∧ ¬ s.lut.bit1.has 581 ∧
     ¬ s.lut.bit0.has 581) ∧
    (let s := { sess .data 70000#64 with bitCount := 65#7 }
     edgeTimed s 1#4 70000#64 71001#64 ∧ ¬ s.lut.bit1.has 1001 ∧ ¬ s.lut.bit0.has 1001) := by decide
theorem witness_LastBitCompletesTheWord :
    let s := { sess .data 70000#64 with bitCount := 65#7 }
    (edgeTimed s 1#4 70000#64 70580#64 ∧ s.phase = .data ∧ s.bitCount = 65#7 ∧ halfBit s 580 true) ∧
    edgeTimed s 1#4 70000#64 70700#64 ∧ halfBit s 700 false ∧ s.cfg.sampleW ≤ 64 := by decide
/-- Positions 0, 30 and 31. -/
theorem witness_EncryptedBitsAccumulate :
    ∀ p ∈ [0#7, 30#7, 31#7],
      edgeTimed (bitAt p true 14200#64) 0#4 80400#64 81200#64 ∧
      (bitAt p true 14200#64).phase = .dataEnd ∧ (bitAt p true 14200#64).bitCount.toNat ≤ 31 ∧
      (bitAt p true 14200#64).blockStart = some 14200#64 := by decide
/-- Positions 32, 58 and 59. -/
theorem witness_SerialBitsAccumulate :
    ∀ p ∈ [32#7, 58#7, 59#7],
      edgeTimed (bitAt p true 52600#64) 0#4 80400#64 81200#64 ∧
      (bitAt p true 52600#64).phase = .dataEnd ∧ 32 ≤ (bitAt p true 52600#64).bitCount.toNat ∧
      (bitAt p true 52600#64).bitCount.toNat ≤ 59 ∧
      (bitAt p true 52600#64).blockStart = some 52600#64 := by decide
/-- All four buttons. -/
theorem witness_ButtonBitsInOrder :
    ∀ k ∈ [0, 1, 2, 3],
      edgeTimed (bitAt (BitVec.ofNat 7 (60 + k)) true 76400#64) 0#4 80400#64 81200#64 ∧
      (bitAt (BitVec.ofNat 7 (60 + k)) true 76400#64).phase = .dataEnd ∧ k ≤ 3 ∧
      (bitAt (BitVec.ofNat 7 (60 + k)) true 76400#64).bitCount.toNat = 60 + k ∧
      (bitAt (BitVec.ofNat 7 (60 + k)) true 76400#64).blockStart = some 76400#64 := by decide
theorem witness_LowBatteryBitAtOnce :
    let s := bitAt 64#7 true 80000#64
    edgeTimed s 0#4 80400#64 80401#64 ∧ s.phase = .dataEnd ∧ s.bitCount = 64#7 ∧
    s.blockStart = some 80000#64 := by decide
/-- One sample against the longest interval there is, at position 64. -/
theorem witness_SecondHalfIsNotChecked :
    let s := bitAt 64#7 true 80000#64
    edgeTimed s 0#4 80400#64 80401#64 ∧ edgeTimed s 1#4 80400#64 0xFFFFFFFFFFFFFFFF#64 ∧
    s.phase = .dataEnd ∧ s.bitCount.toNat < 65 := by decide
/-- An edge that runs and one that raises ORDER. -/
theorem witness_PolarityIgnoredAfterTheAnchor :
    let s := sess .preamble 50000#64
    edgeLegal s 0#4 50400#64 ∧ edgeLegal s 0#4 50000#64 ∧ s.phase ≠ .anchor ∧
    (∃ t, exec (.edge 0#4 50400#64) s = .next t ∧ t.faultCode = .noFault) ∧
    (∃ t, exec (.edge 0#4 50000#64) s = .next t ∧ t.faulted) :=
  ⟨by decide, by decide, by decide, ⟨_, rfl, by decide⟩, ⟨_, rfl, by decide⟩⟩

/-- A pulse list of `n` intervals `d`, of alternating polarity. -/
def pulses (n d : Nat) : List (Bool × Nat) := (List.range n).map fun k => (k % 2 == 0, d)

/-- E1 at 1 MHz, under each policy; the last pulse of SHORT_FIRST is outside the shared window. -/
theorem witness_StandardPreambleIsAcquired :
    ∀ o ∈ [OverlapPolicy.union, .shortFirst, .stdFirst],
      let s := { sess .preamble 1000#64 with cfg := { Params.default with overlap := o } }
      s.faultCode = .noFault ∧ s.phase = .preamble ∧ s.teCount = 0#6 ∧ s.prev = some 1000#64 ∧
      s.cfg.wf ∧ s.cfg.nStd < s.cfg.nShort ∧ (pulses 22 280).length + 1 = s.cfg.nStd ∧
      hostDuties s.cfg.sampleW (1000#64).toNat (pulses 22 280 ++ [(true, 291), (false, 3000)]) ∧
      (∀ d ∈ pulses 22 280, s.lut.bit1.has d.2) ∧ s.lut.bit1.has 291 ∧ s.lut.header.has 3000 ∧
      (s.cfg.overlap = .shortFirst → ¬ s.lut.preShort.has 291) := by decide
/-- E2 at 1 MHz, under each policy, with the pulses before the 23rd in the shared window. -/
theorem witness_ShortPreambleIsAcquired :
    ∀ o ∈ [OverlapPolicy.union, .shortFirst, .stdFirst],
      let s := { sess .preamble 1000#64 with cfg := { Params.default with overlap := o } }
      s.faultCode = .noFault ∧ s.phase = .preamble ∧ s.teCount = 0#6 ∧ s.prev = some 1000#64 ∧
      s.cfg.wf ∧ s.cfg.nStd < s.cfg.nShort ∧ (pulses 22 290).length + 1 = s.cfg.nStd ∧
      (pulses 22 290).length + 1 + (pulses 22 140).length = s.cfg.nShort ∧
      hostDuties s.cfg.sampleW (1000#64).toNat
        (pulses 22 290 ++ (true, 279) :: pulses 22 140 ++ [(false, 6000)]) ∧
      (∀ d ∈ pulses 22 290 ++ (true, 279) :: pulses 22 140, s.lut.preShort.has d.2) ∧
      s.lut.header.has 6000 ∧ (s.cfg.overlap = .union → ¬ s.lut.bit1.has 279) ∧
      (s.cfg.overlap = .stdFirst →
        ∀ d ∈ ((true, 279) : Bool × Nat) :: pulses 22 140, ¬ s.lut.bit1.has d.2) := by decide

/-- The edges of a data portion with alternating bits 1, 0, 1, …: 400 and 800 samples for a 1, and 800 and 400
for a 0, as in program P1. -/
def dataEdges : List (Bool × Nat) :=
  (List.range 131).map fun k => (k % 2 == 0, if k % 4 = 0 ∨ k % 4 = 3 then 400 else 800)
set_option maxRecDepth 8000 in
theorem witness_DataPortionYieldsTheCodeWord :
    let s := sess .data 14200#64
    s.faultCode = .noFault ∧ s.phase = .data ∧ s.bitCount = 0#7 ∧ s.acc = 0#32 ∧
    s.blockStart = none ∧ s.prev = some 14200#64 ∧ s.cfg.sampleW ≤ 64 ∧ dataEdges.length = 131 ∧
    hostDuties s.cfg.sampleW (14200#64).toNat dataEdges ∧
    (∀ q < 66, ∀ d, dataEdges[2 * q]? = some d → halfBit s d.2 (q % 2 == 0)) := by
  have h : ∀ q < 66, (dataEdges[2 * q]?).all
      (fun d => decide (halfBit (sess .data 14200#64) d.2 (q % 2 == 0))) = true := by decide
  refine ⟨rfl, rfl, rfl, rfl, rfl, rfl, by decide, by decide, by decide, fun q hq d hd => ?_⟩
  have hq' := h q hq
  rw [hd] at hq'
  exact of_decide_eq_true hq'

/-- The command with the most outputs: BIT-10. -/
theorem witness_OutputsPerCommandAreBounded :
    ∃ t, exec (.edge 0#4 70400#64) { sess .data 70000#64 with bitCount := 65#7 } = .next t ∧
      t.pending.length = 4 := ⟨_, rfl, by decide⟩
/-- Each phase after the anchor; in DATA at position 65 a valid 1, a valid 0 and an invalid half-bit. -/
theorem witness_EndSamplesFollowTheEdge :
    (∀ ph ∈ [Phase.preamble, .header, .data, .dataEnd],
      let s := { sess ph 70000#64 with bitCount := 65#7 }
      edgeTimed s 0#4 70000#64 70400#64 ∧ s.phase.timed ∧ SpanInv s) ∧
    (let s := { sess .data 70000#64 with bitCount := 65#7 }
     s.lut.bit1.has 400 ∧ edgeTimed s 0#4 70000#64 70700#64 ∧ s.lut.bit0.has 700 ∧
     edgeTimed s 0#4 70000#64 71001#64 ∧ ¬ (s.lut.bit1.has 1001 ∨ s.lut.bit0.has 1001)) := by decide
/-- The state before bit 65 of program P1. -/
def beforeLastBit : State :=
  { sess .data 92200#64 with
    bitCount := 65#7, bitStart := 91000#64
    cw := ⟨0x55555555#32, 0#28, 0b0101#4, true, false, true, true, true, true, true, true, true, false⟩ }
theorem witness_CodeWordIsFullyPopulated :
    PhaseInv beforeLastBit ∧ WordInv beforeLastBit ∧
    ∃ t outs, exec (.edge 0#4 93000#64) beforeLastBit = .next t ∧
      t.pending = beforeLastBit.pending ++ outs ∧ OutRecord.cw 0x015000000055555555#72 ∈ outs :=
  ⟨⟨by decide, by decide⟩, by decide, _, _, rfl, rfl, by decide⟩

/-- The last edge of a code word, taken by a step. -/
def lastEdgeOffered : State := { beforeLastBit with cmdIn := [0x400000000000016B48#72] }
theorem witness_invariants_in_data :
    PhaseInv lastEdgeOffered ∧ SpanInv lastEdgeOffered ∧ WordInv lastEdgeOffered ∧
    LutInv lastEdgeOffered ∧ FaultInv lastEdgeOffered ∧ fitsBuffer lastEdgeOffered.pending ∧
    ∃ t, step lastEdgeOffered = .next t ∧ t.phase = .preamble ∧ t.pending.length = 4 :=
  ⟨⟨by decide, by decide⟩, by decide, by decide, by decide, by decide, by decide, _, rfl, by decide,
    by decide⟩
/-- A header gap at the threshold, a pending bit, a halted block and a step of `rst`. -/
theorem witness_invariants_elsewhere :
    (let s := { sess .header 60000#64 with
                teCount := 24#6, blockStart := some 1000#64, cmdIn := [0x40000000000000EA61#72] }
     PhaseInv s ∧ SpanInv s ∧ WordInv s ∧ LutInv s ∧ FaultInv s ∧ ∃ t, step s = .next t) ∧
    (let s := { bitAt 31#7 true 14200#64 with acc := 0x7FFFFFFF#32, cmdIn := [0x4000000000000FFFFF#72] }
     PhaseInv s ∧ SpanInv s ∧ WordInv s ∧ LutInv s ∧ FaultInv s ∧
     ∃ t, step s = .next t) ∧
    (let s := { halted with pins := ⟨true, true, true⟩ }
     PhaseInv s ∧ SpanInv s ∧ WordInv s ∧ LutInv s ∧ FaultInv s ∧ ∃ t, step s = .next t) :=
  ⟨⟨⟨by decide, by decide⟩, by decide, by decide, by decide, by decide, _, rfl⟩,
    ⟨⟨by decide, by decide⟩, by decide, by decide, by decide, by decide, _, rfl⟩,
    ⟨⟨by decide, by decide⟩, by decide, by decide, by decide, by decide, _, rfl⟩⟩

theorem witness_AnnotationRecordLayout :
    Annotation.ofRecord 0x0200000000000000000000377800000000000027D8#168 = some ann1 ∧
    { State.reset with pending := [.ann ann1] }.pending = .ann ann1 :: [] ∧
    { State.reset with pending := [.cw 5#72] }.pending = .cw 5#72 :: [] ∧
    State.reset.pending = [] := by decide
theorem witness_BytesAreLittleEndian :
    ∃ t outs, exec (.edge 0#4 93000#64) beforeLastBit = .next t ∧
      t.pending = beforeLastBit.pending ++ outs ∧ OutRecord.cw 0x015000000055555555#72 ∈ outs :=
  ⟨_, _, rfl, rfl, by decide⟩
/-- The greatest sample there is, with and without a distance. -/
theorem witness_PseudoInstructionsExpand :
    18446744073709551615 + 0 < 2 ^ 64 ∧ 18446744073709551614 + 1 < 2 ^ 64 := by decide

end Sys2Proof.Tests
end

section
/-! The registers: their values at reset (10_state.md R36) and the commands that write them (R37). -/

namespace Sys2Proof.Machine

/-- Opcode 0x1 is RESET's alone (30_encoding.md R62). -/
theorem op_eq_reset_iff (i : Instr) :
    i.op = 0x1#4 ↔ ∃ sub payload, i = .reset sub payload := by
  cases i with
  | reserved67 op0 _ _ =>
    obtain ⟨-, -, -, hne, -⟩ := Laws.WordRoundTrip.reserved67_op op0
    simpa [Instr.op] using hne
  | reserved8F op20 _ _ =>
    obtain ⟨-, -, -, hne, -⟩ := Laws.WordRoundTrip.reserved8F_op op20
    simpa [Instr.op] using hne
  | _ => simp [Instr.op]

/-- RESET has no illegal form (30_encoding.md R64). -/
theorem op_ne_reset_of_illegal {i : Instr} {sampleW : Nat} (h : i.illegal sampleW) :
    i.op ≠ 0x1#4 := by
  rw [Ne, op_eq_reset_iff]
  rintro ⟨sub, payload, rfl⟩
  exact h

/-- What a command can write, by the columns of the table of 10_state.md R37. -/
inductive Writes (i : Instr) (s t : State) : Prop
  | reset (hop : i.op = 0x1#4) (ht : t = s.softReset)
  /-- A command other than RESET that a halted block ignores, that is refused, or that has no effect. -/
  | faultOnly (hop : i.op ≠ 0x1#4) (code : FaultCode) (info : BitVec 8)
      (ht : t = { s with faultCode := code, faultInfo := info })
  | cfgw (hop : i.op = 0x2#4) (rate pad : Word32)
      (ht : t = { s with sampleRate := rate, lastBitPad := pad })
  | start (hop : i.op = 0x3#4) (lut : Lut)
      (ht : t = { s.clearDecoder with lut := lut, phase := .anchor })
  | edge (hop : i.op = 0x4#4) (hc : t.control = s.control)
  | endSession (hop : i.op = 0x5#4) (ht : t = { s with phase := .idle })

/-- Every command keeps to its column of the table of 10_state.md R37. -/
theorem exec_writes {i : Instr} {s t : State} (h : exec i s = .next t) : Writes i s t := by
  obtain rfl : effect i s = t := (exec_next_iff i s t).mp h
  rcases effect_cases i s with ⟨sub, payload, rfl, he⟩ | ⟨hne, -, he⟩ | ⟨-, hill, he⟩ |
    ⟨-, rfl, he⟩ | ⟨-, rfl, he⟩ | ⟨-, rfl, hstart⟩ | ⟨sub, payload, -, rfl, -, hcfgw⟩ |
    ⟨sub, smp, -, rfl, -, hedge⟩
  · exact .reset rfl he
  · exact .faultOnly (by simpa [op_eq_reset_iff] using hne) s.faultCode s.faultInfo he
  · exact .faultOnly (op_ne_reset_of_illegal hill) _ _ he
  · exact .faultOnly (by simp [Instr.op]) s.faultCode s.faultInfo he
  · exact .endSession rfl he
  · rcases hstart with ⟨-, he⟩ | ⟨-, he⟩
    · exact .faultOnly (by simp [Instr.op]) _ _ he
    · exact .start rfl _ he
  · rcases hcfgw with ⟨-, he⟩ | ⟨-, rate, pad, he⟩
    · exact .faultOnly (by simp [Instr.op]) _ _ he
    · exact .cfgw rfl rate pad he
  · rcases hedge with ⟨-, he⟩ | ⟨-, he | he⟩ | ⟨-, -, he⟩ | ⟨-, -, he⟩
    · exact .edge rfl (by rw [he])
    · exact .edge rfl (by rw [he])
    · exact .edge rfl (by rw [he]; rfl)
    · exact .faultOnly (by simp [Instr.op]) _ _ he
    · exact .edge rfl (by rw [he]; exact phaseStep_control _ smp s)

/-- Settles O12: the reset state is closed, and each register is read off it. -/
theorem registersAtReset : Obligations.RegistersAtReset := by
  unfold Obligations.RegistersAtReset
  decide

/-- Settles O28, column by column: what `Writes` lets a command change is what its column marks with W. -/
theorem registersHaveTheirWriters : Obligations.RegistersHaveTheirWriters := by
  unfold Obligations.RegistersHaveTheirWriters
  intro i s t h
  cases exec_writes h with
  | reset hop ht | faultOnly hop code info ht | cfgw hop rate pad ht | start hop lut ht
  | endSession hop ht => simp [hop, ht]
  | edge hop hc =>
    simp only [State.control, Prod.mk.injEq] at hc
    simp [hop, hc]

end Sys2Proof.Machine
end

section
/-! The byte order of words and records (20_memory.md R51), and what a command can add to the output: every
code-word record it emits is the packing of a code word (30_encoding.md R79). -/

namespace Sys2Proof

/-- Byte `k` as a number, the bits above it cut off. -/
theorem byteOf_eq_ofNat {w : Nat} (v : BitVec w) (k : Nat) :
    byteOf v k = BitVec.ofNat 8 (v.toNat / 2 ^ (8 * k)) :=
  BitVec.eq_of_toNat_eq (by rw [byteOf_toNat, BitVec.toNat_ofNat])

theorem bytesLE_getElem? {w : Nat} (n : Nat) (v : BitVec w) {k : Nat} (hk : k < n) :
    (bytesLE n v)[k]? = some (BitVec.ofNat 8 (v.toNat / 2 ^ (8 * k))) := by
  simp [bytesLE, hk, byteOf_eq_ofNat]

end Sys2Proof

namespace Sys2Proof.Machine

/-- Bits 66 to 71 of a packed code word are zero (30_encoding.md R79). -/
theorem record_toNat_lt (c : CodeWord) : c.record.toNat < 2 ^ 66 := by
  have hrpt := Bool.toNat_lt c.rpt
  have hlowbat := Bool.toNat_lt c.lowbat
  have hbtn := c.btn.isLt
  have hser := c.ser.isLt
  have henc := c.enc.isLt
  rw [record_toNat]
  omega

/-- The records `after` are those of `before`, in place, and then new ones, of which each code-word record is
the packing of a code word. -/
def AppendsRecords (before after : List OutRecord) : Prop :=
  ∃ outs, after = before ++ outs ∧ ∀ r, OutRecord.cw r ∈ outs → ∃ c : CodeWord, r = c.record

@[simp] theorem appendsRecords_append_iff (before outs : List OutRecord) :
    AppendsRecords before (before ++ outs) ↔
      ∀ r, OutRecord.cw r ∈ outs → ∃ c : CodeWord, r = c.record := by
  simp [AppendsRecords]

@[simp] theorem AppendsRecords.refl (l : List OutRecord) : AppendsRecords l l :=
  ⟨[], by simp⟩

theorem AppendsRecords.trans {l m n : List OutRecord} (hlm : AppendsRecords l m)
    (hmn : AppendsRecords m n) : AppendsRecords l n := by
  obtain ⟨xs, rfl, hxs⟩ := hlm
  obtain ⟨ys, rfl, hys⟩ := hmn
  refine ⟨xs ++ ys, List.append_assoc .., fun r hr => ?_⟩
  exact (List.mem_append.mp hr).elim (hxs r) (hys r)

theorem encBit_appendsRecords (p : Nat) (b : Bool) (e : Sample) (s : State) :
    AppendsRecords s.pending (encBit p b e s).pending := by
  unfold encBit; dsimp only; split <;> simp [encClose]

theorem serBit_appendsRecords (p : Nat) (b : Bool) (e : Sample) (s : State) :
    AppendsRecords s.pending (serBit p b e s).pending := by
  unfold serBit; dsimp only; split <;> simp [serClose]

theorem btnBit_appendsRecords (p : Nat) (b : Bool) (sb e : Sample) (s : State) :
    AppendsRecords s.pending (btnBit p b sb e s).pending := by
  unfold btnBit; dsimp only; split <;> simp [btnClose]

theorem vlowBit_appendsRecords (b : Bool) (sb e : Sample) (s : State) :
    AppendsRecords s.pending (vlowBit b sb e s).pending := by simp [vlowBit]

/-- The one place where a code-word record is emitted (43_field_assembler.md R170). -/
theorem rptBit_appendsRecords (b : Bool) (sb e : Sample) (s : State) :
    AppendsRecords s.pending (rptBit b sb e s).pending := by simp [rptBit]

theorem assemble_appendsRecords (p : Nat) (b : Bool) (sb e : Sample) (s : State) :
    AppendsRecords s.pending (assemble p b sb e s).pending := by
  have hcount : ∀ t : State,
      (if p < 65 then { t with bitCount := BitVec.ofNat 7 (p + 1) } else t).pending = t.pending := by
    intro t; split <;> rfl
  simp only [assemble, hcount]
  split_ifs
  · exact encBit_appendsRecords p b e s
  · exact serBit_appendsRecords p b e s
  · exact btnBit_appendsRecords p b sb e s
  · exact vlowBit_appendsRecords b sb e s
  · exact rptBit_appendsRecords b sb e s

theorem bitComplete_appendsRecords (b : Bool) (sb e : Sample) (s : State) :
    AppendsRecords s.pending (bitComplete b sb e s).pending := by
  have hbit : AppendsRecords s.pending (s.emit .logicalBit sb e (bitValue b)).pending := by simp
  exact hbit.trans (assemble_appendsRecords s.bitCount.toNat b sb e _)

theorem preStep_appendsRecords (m : MatchVec) (smp : Sample) (s : State) :
    AppendsRecords s.pending (preStep m smp s).pending := by
  unfold preStep pulse
  dsimp only
  split_ifs <;> simp [pulseComplete, pulseCount, restart]

theorem hdrStep_appendsRecords (m : MatchVec) (smp : Sample) (s : State) :
    AppendsRecords s.pending (hdrStep m smp s).pending := by
  unfold hdrStep; split <;> simp [restart]

theorem bitMeasure_appendsRecords (m : MatchVec) (smp : Sample) (s : State) :
    AppendsRecords s.pending (bitMeasure m smp s).pending := by
  unfold bitMeasure
  split
  · simp [invalidBit]
  · next b _ =>
    rw [← openBlock_pending s]
    dsimp only
    split
    · exact bitComplete_appendsRecords b _ _ s.openBlock
    · exact .refl _

theorem phaseStep_appendsRecords (m : MatchVec) (smp : Sample) (s : State) :
    AppendsRecords s.pending (phaseStep m smp s).pending := by
  unfold phaseStep
  split
  · exact preStep_appendsRecords m smp s
  · exact hdrStep_appendsRecords m smp s
  · exact bitMeasure_appendsRecords m smp s
  · exact bitComplete_appendsRecords s.pendBit s.bitStart smp { s with phase := .data }
  · exact .refl _
  · exact .refl _

/-- Only an EDGE that runs the step of a phase, the last of the cases, emits records at all. -/
theorem exec_appendsRecords {i : Instr} {s t : State} (h : exec i s = .next t) :
    AppendsRecords s.pending t.pending := by
  obtain rfl : effect i s = t := (exec_next_iff i s t).mp h
  rcases effect_cases i s with ⟨-, -, -, he⟩ | ⟨-, -, he⟩ | ⟨-, -, he⟩ | ⟨-, -, he⟩ | ⟨-, -, he⟩ |
    ⟨-, -, ⟨-, he⟩ | ⟨-, he⟩⟩ | ⟨-, -, -, -, -, ⟨-, he⟩ | ⟨-, _, _, he⟩⟩ |
    ⟨-, smp, -, -, -, ⟨-, he⟩ | ⟨-, he | he⟩ | ⟨-, -, he⟩ | ⟨-, -, he⟩⟩
  all_goals rw [he]
  on_goal -1 => exact phaseStep_appendsRecords _ smp s
  all_goals exact .refl _

/-- Settles O58: the bytes by `bytesLE_getElem?`, bits 66 to 71 by what a command can emit. -/
theorem bytesAreLittleEndian : Obligations.BytesAreLittleEndian := by
  unfold Obligations.BytesAreLittleEndian
  refine ⟨fun w => ⟨bytesLE_length 9 w, fun _ => bytesLE_getElem? 9 w⟩,
    fun a => ⟨bytesLE_length 21 a.record, fun _ => bytesLE_getElem? 21 a.record⟩,
    fun r => ⟨bytesLE_length 9 r, fun _ => bytesLE_getElem? 9 r⟩, fun i s t outs r h hout hr => ?_⟩
  have happ : AppendsRecords s.pending (s.pending ++ outs) := hout ▸ exec_appendsRecords h
  obtain ⟨c, rfl⟩ := (appendsRecords_append_iff _ _).mp happ r hr
  exact record_toNat_lt c

end Sys2Proof.Machine
end

section
/-! The illegal encodings (30_encoding.md R69), and the assembler's two pseudo-instructions (R74). -/

namespace Sys2Proof.Machine

/-- Every command but RESET is the prologue, followed by an effect of its own (44_commands.md R192). -/
theorem exec_eq_prologue {i : Instr} (h : i.op ≠ 0x1#4) :
    ∃ body, ∀ s, exec i s = .next (prologue i body s) := by
  cases i with
  | reset => exact absurd rfl h
  | nop | cfgw | start | edge | endSession | reserved67 | reserved8F => exact ⟨_, fun _ => rfl⟩

theorem exec_of_illegal {i : Instr} {s : State} (hf : s.faultCode = .noFault)
    (hi : i.illegal s.cfg.sampleW) :
    exec i s = .next { s with faultCode := .illegalCmd, faultInfo := opSub i } := by
  obtain ⟨body, hexec⟩ := exec_eq_prologue (op_ne_reset_of_illegal hi)
  rw [hexec, prologue_of_illegal i body s hf hi]

theorem exec_reset (sub : BitVec 4) (payload : BitVec 64) (s : State) :
    exec (.reset sub payload) s = .next s.softReset := rfl

/-- Settles O6: an illegal command gets no further than the prologue, and RESET, which has none, ends in
the soft reset. -/
theorem illegalCommandsFault : Obligations.IllegalCommandsFault := by
  unfold Obligations.IllegalCommandsFault
  refine ⟨fun i s => exec_of_illegal, fun sub payload s t h => ?_⟩
  rw [exec_reset] at h
  cases h
  exact softReset_faultCode s

theorem expand_dedge (last : AsmLast) (pol : Bool) (d : Nat) :
    AsmLine.expand last (.dedge pol d) = AsmLine.expand last (.edge pol (last.sample + d)) := rfl

/-- TOG takes the opposite of the last polarity, and R when there was no EDGE (30_encoding.md R74). -/
theorem expand_tog (last : AsmLast) (d : Nat) :
    AsmLine.expand last (.tog d) =
      AsmLine.expand last (.edge (last.pol.elim true (! ·)) (last.sample + d)) := by
  obtain ⟨_ | p, x⟩ := last
  · rfl
  · rfl

/-- The word of an EDGE line: `sub` is the polarity and `payload` the sample (30_encoding.md R67, R73). -/
theorem expand_edge_of_lt (last : AsmLast) (pol : Bool) {sample : Nat} (h : sample < 2 ^ 64) :
    AsmLine.expand last (.edge pol sample) =
      some (.edge (BitVec.ofNat 4 pol.toNat) (BitVec.ofNat 64 sample), ⟨some pol, sample⟩) := by
  have hsub : (if pol then 1#4 else 0#4) = BitVec.ofNat 4 pol.toNat := by cases pol <;> rfl
  rw [AsmLine.expand, asmEdge, if_pos h, hsub]

/-- Settles O60: `expand_dedge` and `expand_tog`, after an EDGE and at the head of a listing, where the last
sample is 0. -/
theorem pseudoInstructionsExpand : Obligations.PseudoInstructionsExpand := by
  unfold Obligations.PseudoInstructionsExpand
  intro p q x d hfits
  have hhead : AsmLast.start.sample + d = d := Nat.zero_add d
  refine ⟨expand_dedge _ q d, expand_tog _ d, ?_, ?_, expand_edge_of_lt _ q hfits⟩
  · rw [expand_dedge, hhead]
  · rw [expand_tog, hhead]
    rfl

end Sys2Proof.Machine
end

section
/-! The timing classifier (40_timing_classifier.md): the rows START leaves in the LUT (R101), the real durations
they match (R104), and the match vector read off them (R103). -/

namespace Sys2Proof.Machine

/-- START with a rate in a block that is not halted (44_commands.md R195). -/
theorem exec_start_of_rate {s : State} (hf : s.faultCode = .noFault) (hr : s.sampleRate ≠ 0#32) :
    exec (.start 0#4 0#64) s =
      .next { s.clearDecoder with lut := buildLut s.cfg s.sampleRate, phase := .anchor } := by
  have hlegal : ¬ (Instr.start 0#4 0#64).illegal s.cfg.sampleW := by simp [Instr.illegal]
  simp only [exec, execStart, prologue_of_legal _ _ _ hf hlegal, startSession, if_neg hr]

/-- Each row START leaves in the LUT is the scaled window of its own, and the window is in range. -/
theorem exec_start_scales_windows {s : State} (hf : s.faultCode = .noFault)
    (hr : s.sampleRate ≠ 0#32) (hwf : s.cfg.wf) :
    ∃ t, exec (.start 0#4 0#64) s = .next t ∧
      ∀ row ∈ [(t.lut.preShort, s.cfg.wPreShort), (t.lut.bit1, s.cfg.wBit1),
               (t.lut.bit0, s.cfg.wBit0), (t.lut.header, s.cfg.wHeader)],
        row.2.wf ∧ row.1 = scaleWindow row.2 s.sampleRate.toNat := by
  obtain ⟨-, -, -, -, -, -, -, hbit1, hbit0, hheader, hshort⟩ := hwf
  refine ⟨_, exec_start_of_rate hf hr, ?_⟩
  simp only [List.forall_mem_cons]
  exact ⟨⟨hshort, rfl⟩, ⟨hbit1, rfl⟩, ⟨hbit0, rfl⟩, ⟨hheader, rfl⟩, List.forall_mem_nil _⟩

/-- A bound in microseconds is at most the duration of `d` samples exactly when the products compare so. -/
theorem micros_le_duration_iff {rate : Nat} (hr : 0 < rate) (us d : Nat) :
    (us : ℚ) / 1000000 ≤ (d : ℚ) / (rate : ℚ) ↔ us * rate ≤ d * 1000000 := by
  rw [div_le_div_iff₀ (by norm_num) (Nat.cast_pos.mpr hr)]
  norm_cast

theorem duration_le_micros_iff {rate : Nat} (hr : 0 < rate) (us d : Nat) :
    (d : ℚ) / (rate : ℚ) ≤ (us : ℚ) / 1000000 ↔ d * 1000000 ≤ us * rate := by
  rw [div_le_div_iff₀ (Nat.cast_pos.mpr hr) (by norm_num)]
  norm_cast

/-- Settles O17: the bounds are `ceilDiv` and `floorDiv`, which are the least and the greatest such count. -/
theorem lutBoundsAreCeilAndFloor : Obligations.LutBoundsAreCeilAndFloor := by
  unfold Obligations.LutBoundsAreCeilAndFloor
  intro s hf hr hwf
  obtain ⟨t, hexec, hrows⟩ := exec_start_scales_windows hf hr hwf
  refine ⟨t, hexec, fun row hrow => ?_⟩
  obtain ⟨hw, hscaled⟩ := hrows row hrow
  rw [hscaled, scaleWindow_lo _ _ hw, scaleWindow_hi _ _ hw]
  exact ⟨⟨(ceilDiv_le_iff _ _ _ (by decide)).mp le_rfl,
      fun q => (ceilDiv_le_iff _ _ q (by decide)).mpr⟩,
    (le_floorDiv_iff _ _ _ (by decide)).mp le_rfl,
    fun q => (le_floorDiv_iff _ _ q (by decide)).mpr⟩

/-- Settles O18: a scaled row compares exact products, and so do the durations. -/
theorem lutMatchesRealDurations : Obligations.LutMatchesRealDurations := by
  unfold Obligations.LutMatchesRealDurations
  intro s hf hr hwf
  obtain ⟨t, hexec, hrows⟩ := exec_start_scales_windows hf hr hwf
  refine ⟨t, hexec, fun row hrow delta _ => ?_⟩
  obtain ⟨hw, hscaled⟩ := hrows row hrow
  have hrate : 0 < s.sampleRate.toNat := Nat.pos_of_ne_zero fun h => hr (BitVec.eq_of_toNat_eq h)
  rw [micros_le_duration_iff hrate, duration_le_micros_iff hrate, hscaled,
    scaleWindow_has_iff _ _ hw]

/-- The bit assignment of `m` (30_encoding.md R80). -/
theorem matchVec_getLsbD (m : MatchVec) :
    m.bits.getLsbD 0 = m.preShort ∧ m.bits.getLsbD 1 = m.preStd ∧ m.bits.getLsbD 2 = m.header ∧
      m.bits.getLsbD 3 = m.bit1 ∧ m.bits.getLsbD 4 = m.bit0 := by
  obtain ⟨preShort, preStd, header, bit1, bit0⟩ := m
  revert preShort preStd header bit1 bit0
  decide

/-- `m = 0` is a match of no window (30_encoding.md R80). -/
theorem matchVec_bits_eq_zero_iff (m : MatchVec) :
    m.bits = 0#5 ↔ ¬ m.preShort ∧ ¬ m.preStd ∧ ¬ m.header ∧ ¬ m.bit1 ∧ ¬ m.bit0 := by
  obtain ⟨preShort, preStd, header, bit1, bit0⟩ := m
  revert preShort preStd header bit1 bit0
  decide

/-- Invalid is the category of `m = 0` alone (30_encoding.md R80). -/
theorem invalid_mem_categories_iff (m : MatchVec) : .invalid ∈ m.categories ↔ m.bits = 0#5 := by
  unfold MatchVec.categories
  split <;> simp [*]

/-- Settles O29: the bits are the rows' closed ranges, by R80's assignment. -/
theorem matchVectorFollowsTheRows : Obligations.MatchVectorFollowsTheRows := by
  unfold Obligations.MatchVectorFollowsTheRows
  intro l delta
  obtain ⟨h0, h1, h2, h3, h4⟩ := matchVec_getLsbD (classify l delta)
  rw [h0, h1, h2, h3, h4]
  have hzero := matchVec_bits_eq_zero_iff (classify l delta)
  simp only [classify, covers_iff] at hzero
  exact ⟨covers_iff _ _, covers_iff _ _, covers_iff _ _, covers_iff _ _, covers_iff _ _,
    hzero.trans (by tauto), invalid_mem_categories_iff _⟩

end Sys2Proof.Machine
end

section
/-! The preamble/header state machine (41_preamble_header.md): an edge in PREAMBLE is a pulse that counts (R122),
completes the preamble (R123) or restarts the search (R125), and an edge in HEADER ends the gap (R124) or
restarts. -/

namespace Sys2Proof.Machine

/-- Counting a pulse, as one update of the state (41_preamble_header.md R122). -/
theorem pulseCount_eq {s : State} {p : Sample} (smp : Sample) (h : s.prev = some p) :
    pulseCount smp s =
      { s with
        blockStart := some (s.blockStart.getD p)
        teCount := BitVec.ofNat 6 (s.teCount.toNat + 1)
        pending := s.pending ++ [.ann ⟨.teIndex, p, smp, BitVec.ofNat 32 s.teCount.toNat⟩] } := by
  have hbits : s.prevBits = p := by simp [State.prevBits, h]
  rw [pulseCount, openBlock_eq s p h, hbits]
  rfl

/-- The last pulse of a preamble, as one update of the state: PREAMBLE comes after the pulse's own record
(41_preamble_header.md R123). -/
theorem pulseComplete_pulseCount_eq (v : Variant) (n : Nat) {s : State} {p : Sample} (smp : Sample)
    (h : s.prev = some p) :
    pulseComplete v n smp (pulseCount smp s) =
      { s with
        blockStart := some (s.blockStart.getD p)
        teCount := BitVec.ofNat 6 (n + 1)
        variant := v
        phase := .header
        pending := s.pending ++
          [.ann ⟨.teIndex, p, smp, BitVec.ofNat 32 s.teCount.toNat⟩,
           .ann ⟨.preamble, s.blockStart.getD p, smp, v.code.setWidth 32⟩] } := by
  simp [pulseCount_eq smp h, pulseComplete, State.emit, State.blockStartBits]

theorem pulse_of_no_threshold {ms md : Bool} {s : State} (smp : Sample)
    (hs : ¬ (ms ∧ s.teCount.toNat + 1 = s.cfg.nShort))
    (hd : ¬ (md ∧ s.teCount.toNat + 1 = s.cfg.nStd)) : pulse ms md smp s = pulseCount smp s :=
  (if_neg hs).trans (if_neg hd)

theorem pulse_of_short_threshold {ms : Bool} {s : State} (md : Bool) (smp : Sample)
    (hs : ms ∧ s.teCount.toNat + 1 = s.cfg.nShort) :
    pulse ms md smp s = pulseComplete .short (s.teCount.toNat + 1) smp (pulseCount smp s) :=
  if_pos hs

theorem pulse_of_std_threshold {ms md : Bool} {s : State} (smp : Sample)
    (hs : ¬ (ms ∧ s.teCount.toNat + 1 = s.cfg.nShort))
    (hd : md ∧ s.teCount.toNat + 1 = s.cfg.nStd) :
    pulse ms md smp s = pulseComplete .std (s.teCount.toNat + 1) smp (pulseCount smp s) :=
  (if_neg hs).trans (if_pos hd)

/-- Whether or not it completes a preamble, a pulse is counted first: what completes one adds a record after
TE_INDEX and leaves `block_start` set (41_preamble_header.md R122, R123). -/
theorem pulse_counts_first (ms md : Bool) (smp : Sample) (s : State) :
    (pulse ms md smp s).blockStart = (pulseCount smp s).blockStart ∧
      ∃ rest, (pulse ms md smp s).pending = (pulseCount smp s).pending ++ rest := by
  by_cases hs : ms ∧ s.teCount.toNat + 1 = s.cfg.nShort
  · rw [pulse_of_short_threshold md smp hs]
    exact ⟨rfl, _, rfl⟩
  · by_cases hd : md ∧ s.teCount.toNat + 1 = s.cfg.nStd
    · rw [pulse_of_std_threshold smp hs hd]
      exact ⟨rfl, _, rfl⟩
    · rw [pulse_of_no_threshold smp hs hd]
      exact ⟨rfl, [], (List.append_nil _).symm⟩

/-- The effective matches of a pulse, both at once (41_preamble_header.md R121). -/
theorem overlap_of_edge (s : State) {p smp : Sample} (h : p.toNat < smp.toNat) :
    overlap s.cfg.overlap (classify s.lut (interval p smp)) =
      (decide (isShort s (smp.toNat - p.toNat)), decide (isStd s (smp.toNat - p.toNat))) := by
  refine Prod.ext ?_ ?_
  · exact Bool.eq_iff_iff.mpr ((overlap_short_of_edge s p smp h).trans decide_eq_true_iff.symm)
  · exact Bool.eq_iff_iff.mpr ((overlap_std_of_edge s p smp h).trans decide_eq_true_iff.symm)

section Edge

variable {sub : BitVec 4} {p smp : Sample} {s : State}

/-- An edge in PREAMBLE is a pulse when it qualifies and a restart when not (41_preamble_header.md R120). -/
theorem exec_edge_preamble (h : edgeTimed s sub p smp) (hp : s.phase = .preamble) :
    exec (.edge sub smp) s =
      .next
        { (if pulseQualifies s.cfg s.teCount.toNat (isShort s (smp.toNat - p.toNat))
              (isStd s (smp.toNat - p.toNat)) then
            pulse (isShort s (smp.toNat - p.toNat)) (isStd s (smp.toNat - p.toNat)) smp s
          else restart s) with prev := some smp } := by
  have ⟨_, _, hlt⟩ := h
  rw [exec_edge_timed sub p smp s h (.inl hp)]
  simp only [phaseStep, hp, preStep, overlap_of_edge s hlt, qualifies_iff, decide_eq_true_eq]

theorem threshold_eq (c : Params) (v : Variant) :
    threshold c v = if v = .short then c.nShort else c.nStd := by
  cases v <;> rfl

/-- An edge in HEADER, with the gap detector's gate in the terms of the rows (41_preamble_header.md R124). -/
theorem exec_edge_header (h : edgeTimed s sub p smp) (hp : s.phase = .header) :
    exec (.edge sub smp) s =
      .next
        { (if s.lut.header.has (smp.toNat - p.toNat) ∧
              s.teCount.toNat = (if s.variant = .short then s.cfg.nShort else s.cfg.nStd) + 1 then
            { (s.emit .header p smp 0#32).closeBlock.clearWord with
              teCount := 0#6, phase := .data, bitCount := 0#7 }
          else restart s) with prev := some smp } := by
  have ⟨_, hprev, hlt⟩ := h
  have hbits : s.prevBits = p := by simp [State.prevBits, hprev]
  have hgap : (classify s.lut (interval p smp)).header = true ↔
      s.lut.header.has (smp.toNat - p.toNat) := by
    rw [← interval_toNat p smp hlt]
    exact covers_iff _ _
  rw [exec_edge_timed sub p smp s h (.inr (.inl hp))]
  simp only [phaseStep, hp, hdrStep, hgap, threshold_eq, hbits]

end Edge

/-- Settles O31: a qualifying pulse is counted first (`pulse_counts_first`), and at no threshold it is only
counted. -/
theorem qualifyingPulseIsCounted : Obligations.QualifyingPulseIsCounted := by
  unfold Obligations.QualifyingPulseIsCounted
  intro sub p smp s h hp hq
  have ⟨_, hprev, _⟩ := h
  rw [exec_edge_preamble h hp, if_pos hq]
  refine ⟨?_, fun hs hd => ?_⟩
  · obtain ⟨hblock, rest, hrest⟩ := pulse_counts_first (isShort s (smp.toNat - p.toNat))
      (isStd s (smp.toNat - p.toNat)) smp s
    rw [pulseCount_eq smp hprev] at hblock hrest
    exact ⟨_, rest, rfl, hrest.trans (List.append_assoc ..), hblock, rfl⟩
  · rw [pulse_of_no_threshold smp (by simpa only [decide_eq_true_eq] using hs)
      (by simpa only [decide_eq_true_eq] using hd), pulseCount_eq smp hprev]

/-- Settles O32: the preamble completes at the count after the pulse, which is the threshold; at the standard
one, the thresholds being different, a pulse in both windows completes no short preamble. -/
theorem lastPulseCompletesThePreamble : Obligations.LastPulseCompletesThePreamble := by
  unfold Obligations.LastPulseCompletesThePreamble
  intro sub p smp s h hp hne
  have ⟨_, hprev, _⟩ := h
  rw [exec_edge_preamble h hp]
  refine ⟨fun hs hn => ?_, fun hd hn => ?_⟩
  · rw [if_pos (.inl ⟨hs, by omega⟩), pulse_of_short_threshold _ smp ⟨decide_eq_true hs, hn⟩, hn,
      pulseComplete_pulseCount_eq .short _ smp hprev]
    rfl
  · have hns : s.teCount.toNat + 1 ≠ s.cfg.nShort := fun hn' => hne (hn.symm.trans hn')
    rw [if_pos (.inr ⟨hd, by omega⟩), pulse_of_std_threshold smp (fun hs => hns hs.2)
      ⟨decide_eq_true hd, hn⟩, hn, pulseComplete_pulseCount_eq .std _ smp hprev]
    rfl

/-- Settles O33: both phases fall through to `restart`. -/
theorem failingEdgeRestartsTheSearch : Obligations.FailingEdgeRestartsTheSearch := by
  unfold Obligations.FailingEdgeRestartsTheSearch
  rintro sub p smp s h (⟨hp, hfail⟩ | ⟨hp, hfail⟩)
  · rw [exec_edge_preamble h hp, if_neg hfail]
    rfl
  · rw [exec_edge_header h hp, if_neg hfail]
    rfl

/-- Settles O34: the gap detector's two branches; the second is O33's restart. -/
theorem headerGapStartsTheData : Obligations.HeaderGapStartsTheData := by
  unfold Obligations.HeaderGapStartsTheData
  intro sub p smp s h hp
  refine ⟨fun hgap => ?_, fun hfail => ?_⟩
  · rw [exec_edge_header h hp, if_pos hgap]
    rfl
  · exact failingEdgeRestartsTheSearch sub p smp s h (.inr ⟨hp, hfail⟩)

end Sys2Proof.Machine
end

section
/-! The bit resolver (42_bit_resolver.md): what a half-bit measured in DATA comes to (R141 to R145), and what the
end boundary of a symbol can change (R146 to R148). -/

namespace Sys2Proof.Machine

section Measure

variable {sub : BitVec 4} {p smp : Sample} {s : State}

/-- A half-bit that resolves opens the block, and then waits for its end or, at position 65, ends at once
(42_bit_resolver.md R141). -/
theorem exec_edge_data_of_halfBit {b : Bool} (h : edgeTimed s sub p smp) (hp : s.phase = .data)
    (hb : halfBit s (smp.toNat - p.toNat) b) :
    exec (.edge sub smp) s =
      .next
        { (if s.bitCount = 65#7 then lastBit b smp s.openBlock else pendBitStep b s.openBlock) with
          prev := some smp } := by
  have ⟨_, _, hlt⟩ := h
  rw [← interval_toNat p smp hlt] at hb
  rw [exec_edge_timed sub p smp s h (.inr (.inr (.inl hp)))]
  simp only [phaseStep, hp, bitMeasure, resolveBit_of_halfBit s _ b hb]

/-- A half-bit in neither window is invalid (42_bit_resolver.md R142). -/
theorem exec_edge_data_of_invalid (h : edgeTimed s sub p smp) (hp : s.phase = .data)
    (h1 : ¬ s.lut.bit1.has (smp.toNat - p.toNat)) (h0 : ¬ s.lut.bit0.has (smp.toNat - p.toNat)) :
    exec (.edge sub smp) s = .next { invalidBit smp s with prev := some smp } := by
  have ⟨_, _, hlt⟩ := h
  rw [← interval_toNat p smp hlt] at h1 h0
  rw [exec_edge_timed sub p smp s h (.inr (.inr (.inl hp)))]
  simp only [phaseStep, hp, bitMeasure, resolveBit_eq_none s _ h1 h0]

end Measure

/-- Every field of a code-word record stands at the position its bits were received at
(30_encoding.md R79). -/
theorem record_fields (c : CodeWord) :
    c.record.extractLsb' 0 32 = c.enc ∧ c.record.extractLsb' 32 28 = c.ser ∧
      c.record.extractLsb' 60 4 = c.btn ∧ c.record.getLsbD 64 = c.lowbat ∧
      c.record.getLsbD 65 = c.rpt ∧ c.record.extractLsb' 66 6 = 0#6 := by
  have hbtn := c.btn.isLt
  have hser := c.ser.isLt
  have henc := c.enc.isLt
  refine ⟨?enc, ?ser, ?btn, ?lowbat, ?rpt, ?unused⟩
  case lowbat | rpt =>
    simp only [CodeWord.record, BitVec.getLsbD_append]
    simp
  all_goals
    apply BitVec.eq_of_toNat_eq
    rw [field_toNat]
  case unused =>
    rw [Nat.div_eq_of_lt (record_toNat_lt c)]
    rfl
  all_goals
    rw [record_toNat]
    omega

/-- Bit 65, which completes the code word, as one update of the state (43_field_assembler.md R170). -/
theorem bitComplete_of_last {s : State} (b : Bool) (sb e : Sample) (hcount : s.bitCount = 65#7) :
    bitComplete b sb e s =
      { s with
        cw := { s.cw with rpt := b, popRpt := true }
        blockStart := none, bitCount := 0#7, teCount := 0#6, phase := .preamble
        pending := s.pending ++
          [.ann ⟨.logicalBit, sb, e, valueOfBit b⟩, .ann ⟨.rptBlock, s.blockStartBits, e, 0#32⟩,
           .ann ⟨.rptValue, sb, e, valueOfBit b⟩,
           .cw (CodeWord.record { s.cw with rpt := b, popRpt := true })] } := by
  have hlast : bitComplete b sb e s = rptBit b sb e (s.emit .logicalBit sb e (bitValue b)) := by
    rw [bitComplete, hcount]
    rfl
  rw [hlast, ← bitValue_eq]
  simp [rptBit, State.emit, State.emitCW, State.closeBlock, State.blockStartBits]

/-- The state with the end samples of its waiting records left out. -/
def State.eraseEnds (s : State) : State := { s with pending := s.pending.map OutRecord.eraseEnd }

@[simp] theorem emit_eraseEnds (s : State) (k : Kind) (first e : Sample) (v : Word32) :
    (s.emit k first e v).eraseEnds = s.eraseEnds.emit k first 0#64 v := by
  simp [State.emit, State.eraseEnds, OutRecord.eraseEnd]

@[simp] theorem closeBlock_eraseEnds (s : State) :
    s.closeBlock.eraseEnds = s.eraseEnds.closeBlock := rfl

/-! Each field's step treats its end boundary as nothing but the end of its records: with the end samples
left out, it is the step with the end boundary 0. -/

theorem encBit_eraseEnds (p : Nat) (b : Bool) (e : Sample) (s : State) :
    (encBit p b e s).eraseEnds = encBit p b 0#64 s.eraseEnds := by
  unfold encBit; dsimp only; split
  · simp [encClose, State.eraseEnds, State.blockStartBits, OutRecord.eraseEnd]
  · rfl

theorem serBit_eraseEnds (p : Nat) (b : Bool) (e : Sample) (s : State) :
    (serBit p b e s).eraseEnds = serBit p b 0#64 s.eraseEnds := by
  unfold serBit; dsimp only; split
  · simp [serClose, State.eraseEnds, State.blockStartBits, OutRecord.eraseEnd]
  · rfl

theorem btnBit_eraseEnds (p : Nat) (b : Bool) (sb e : Sample) (s : State) :
    (btnBit p b sb e s).eraseEnds = btnBit p b sb 0#64 s.eraseEnds := by
  unfold btnBit; dsimp only; split
  · simp only [btnClose, emit_eraseEnds, closeBlock_eraseEnds]
    rfl
  · rw [emit_eraseEnds]
    rfl

theorem vlowBit_eraseEnds (b : Bool) (sb e : Sample) (s : State) :
    (vlowBit b sb e s).eraseEnds = vlowBit b sb 0#64 s.eraseEnds := by
  simp only [vlowBit, emit_eraseEnds, closeBlock_eraseEnds]
  rfl

theorem rptBit_eraseEnds (b : Bool) (sb e : Sample) (s : State) :
    (rptBit b sb e s).eraseEnds = rptBit b sb 0#64 s.eraseEnds := by
  simp [rptBit, State.eraseEnds, State.blockStartBits, OutRecord.eraseEnd]

theorem assemble_eraseEnds (p : Nat) (b : Bool) (sb e : Sample) (s : State) :
    (assemble p b sb e s).eraseEnds = assemble p b sb 0#64 s.eraseEnds := by
  have hcount : ∀ t : State,
      (if p < 65 then { t with bitCount := BitVec.ofNat 7 (p + 1) } else t).eraseEnds =
        if p < 65 then { t.eraseEnds with bitCount := BitVec.ofNat 7 (p + 1) } else t.eraseEnds := by
    intro t; split <;> rfl
  simp only [assemble, hcount, apply_ite State.eraseEnds, encBit_eraseEnds, serBit_eraseEnds,
    btnBit_eraseEnds, vlowBit_eraseEnds, rptBit_eraseEnds]

/-- Completing a bit reads its end boundary nowhere but for the end samples of its records
(42_bit_resolver.md R147, R148). -/
theorem bitComplete_eraseEnds (b : Bool) (sb e : Sample) (s : State) :
    (bitComplete b sb e s).eraseEnds = bitComplete b sb 0#64 s.eraseEnds := by
  simp only [bitComplete, assemble_eraseEnds, emit_eraseEnds]
  rfl

/-! The kinds of the records each field's step adds (43_field_assembler.md R171). -/

theorem encBit_kinds (p : Nat) (b : Bool) (e : Sample) (s : State) :
    (encBit p b e s).pending.map OutRecord.kind? =
      s.pending.map OutRecord.kind? ++ if p = 31 then [some .encBlock, some .encValue] else [] := by
  unfold encBit; dsimp only; split <;> simp [encClose, OutRecord.kind?]

theorem serBit_kinds (p : Nat) (b : Bool) (e : Sample) (s : State) :
    (serBit p b e s).pending.map OutRecord.kind? =
      s.pending.map OutRecord.kind? ++ if p = 59 then [some .serBlock, some .serValue] else [] := by
  unfold serBit; dsimp only; split <;> simp [serClose, OutRecord.kind?]

theorem btnBit_kinds (p : Nat) (b : Bool) (sb e : Sample) (s : State) :
    (btnBit p b sb e s).pending.map OutRecord.kind? =
      s.pending.map OutRecord.kind? ++
        some .buttonBit :: if p = 63 then [some .buttonCode] else [] := by
  unfold btnBit; dsimp only; split <;> simp [btnClose, OutRecord.kind?]

theorem vlowBit_kinds (b : Bool) (sb e : Sample) (s : State) :
    (vlowBit b sb e s).pending.map OutRecord.kind? =
      s.pending.map OutRecord.kind? ++ [some .vlowBlock, some .vlowValue] := by
  simp [vlowBit, OutRecord.kind?]

/-- Below 65 the assembler adds the records of `kindsOfBit` but the first, which is LOGICAL_BIT. -/
theorem assemble_kinds {p : Nat} (hp : p < 65) (b : Bool) (sb e : Sample) (s : State) :
    (assemble p b sb e s).pending.map OutRecord.kind? =
      s.pending.map OutRecord.kind? ++ (kindsOfBit p).tail.map some := by
  simp only [assemble, if_pos hp]
  split_ifs
  · rw [encBit_kinds]
    grind [kindsOfBit]
  · rw [serBit_kinds]
    grind [kindsOfBit]
  · rw [btnBit_kinds]
    grind [kindsOfBit]
  · rw [vlowBit_kinds]
    grind [kindsOfBit]
  · omega

/-- Only bit 65 leaves the phase (43_field_assembler.md R170). -/
theorem assemble_phase {p : Nat} (hp : p < 65) (b : Bool) (sb e : Sample) (s : State) :
    (assemble p b sb e s).phase = s.phase := by
  simp only [assemble, if_pos hp]
  split_ifs
  · unfold encBit; dsimp only; split <;> rfl
  · unfold serBit; dsimp only; split <;> rfl
  · unfold btnBit; dsimp only; split <;> rfl
  · rfl
  · omega

/-- What completing a bit below 65 adds to the output (42_bit_resolver.md R147). -/
theorem bitComplete_outs {s : State} (hp : s.bitCount.toNat < 65) (b : Bool) (sb e : Sample) :
    ∃ outs, (bitComplete b sb e s).pending = s.pending ++ outs ∧
      outs.map OutRecord.kind? = (kindsOfBit s.bitCount.toNat).map some := by
  obtain ⟨outs, houts, -⟩ := bitComplete_appendsRecords b sb e s
  refine ⟨outs, houts, List.append_cancel_left (as := s.pending.map OutRecord.kind?) ?_⟩
  rw [← List.map_append, ← houts, bitComplete, assemble_kinds hp]
  simp [kindsOfBit, OutRecord.kind?]

/-- No bit yields INVALID_BIT (43_field_assembler.md R171). -/
theorem invalidBit_notMem_kindsOfBit (p : Nat) : .invalidBit ∉ kindsOfBit p := by
  unfold kindsOfBit; split_ifs <;> simp

/-- Settles O35: below position 65 a resolved half-bit is only noted down. -/
theorem halfBitWaitsForItsEnd : Obligations.HalfBitWaitsForItsEnd := by
  unfold Obligations.HalfBitWaitsForItsEnd
  intro sub p smp s b h hp hcount hb
  have ⟨_, hprev, _⟩ := h
  rw [exec_edge_data_of_halfBit h hp hb, if_neg hcount, openBlock_eq s p hprev]
  simp [pendBitStep, State.prevBits, hprev]

/-- Settles O36: `invalidBit`, whose record starts at `prev`. -/
theorem invalidHalfBitDiscardsTheWord : Obligations.InvalidHalfBitDiscardsTheWord := by
  unfold Obligations.InvalidHalfBitDiscardsTheWord
  intro sub p smp s h hp h1 h0
  have ⟨_, hprev, _⟩ := h
  have hbits : s.prevBits = p := by simp [State.prevBits, hprev]
  rw [exec_edge_data_of_invalid h hp h1 h0, invalidBit, hbits]
  rfl

/-- Settles O37: the end boundary is `padEnd`, the record is the packing of the completed code word. -/
theorem lastBitCompletesTheWord : Obligations.LastBitCompletesTheWord := by
  unfold Obligations.LastBitCompletesTheWord
  intro sub p smp s b h hp hcount hb
  have ⟨_, hprev, _⟩ := h
  obtain ⟨henc, hser, hbtn, hlowbat, hrpt, hhigh⟩ :=
    record_fields { s.cw with rpt := b, popRpt := true }
  refine ⟨padEnd s.cfg.sampleW smp s.lastBitPad, _, fun hw => padEnd_toNat _ hw smp s.lastBitPad,
    henc, hser, hbtn, hlowbat, hrpt, hhigh, ?_⟩
  rw [exec_edge_data_of_halfBit h hp hb, if_pos hcount, lastBit,
    bitComplete_of_last b _ _ ((openBlock_bitCount s).trans hcount), openBlock_eq s p hprev]
  simp [State.prevBits, State.blockStartBits, hprev]

/-- Settles O42: with the end samples left out, the two edges complete the bit to the same state, and the records
are those of `kindsOfBit`, of which none is INVALID_BIT. -/
theorem secondHalfIsNotChecked : Obligations.SecondHalfIsNotChecked := by
  unfold Obligations.SecondHalfIsNotChecked
  intro sub1 sub2 p smp1 smp2 s h1 h2 hp hcount
  obtain ⟨outs1, hout1, hkinds1⟩ :=
    bitComplete_outs (s := { s with phase := .data }) hcount s.pendBit s.bitStart smp1
  obtain ⟨outs2, hout2, -⟩ :=
    bitComplete_outs (s := { s with phase := .data }) hcount s.pendBit s.bitStart smp2
  have hends := (bitComplete_eraseEnds s.pendBit s.bitStart smp1 { s with phase := .data }).trans
    (bitComplete_eraseEnds s.pendBit s.bitStart smp2 { s with phase := .data }).symm
  refine ⟨_, _, outs1, outs2, exec_edge_dataEnd sub1 p smp1 s h1 hp,
    exec_edge_dataEnd sub2 p smp2 s h2 hp, hout1, hout2, assemble_phase hcount .., ?_, ?_, ?_⟩
  · rw [hkinds1]
    simpa using invalidBit_notMem_kindsOfBit s.bitCount.toNat
  · have hpending := congrArg State.pending hends
    simpa [State.eraseEnds, hout1, hout2] using hpending
  · exact congrArg (fun t : State => { t with prev := none, pending := [] }) hends

end Sys2Proof.Machine
end

section
/-! The field assembler (43_field_assembler.md): which field's step the end boundary of a bit runs (R160, R161), and
what the steps of the fields before bit 65 come to (R162 to R168). -/

namespace Sys2Proof.Machine

/-- An end boundary emits LOGICAL_BIT and runs the router (42_bit_resolver.md R146, R147). -/
theorem exec_edge_dataEnd_assembles {sub : BitVec 4} {p smp : Sample} {s : State}
    (h : edgeTimed s sub p smp) (hp : s.phase = .dataEnd) :
    exec (.edge sub smp) s =
      .next
        { assemble s.bitCount.toNat s.pendBit s.bitStart smp
            ({ s with phase := .data }.emit .logicalBit s.bitStart smp (valueOfBit s.pendBit)) with
          prev := some smp } := by
  rw [exec_edge_dataEnd sub p smp s h hp, bitComplete, bitValue_eq]

/-! The router: the step of the field that the position belongs to, and the next position
(43_field_assembler.md R160, R161). -/

theorem assemble_of_enc {p : Nat} (hp : p ≤ 31) (b : Bool) (sb e : Sample) (s : State) :
    assemble p b sb e s = { encBit p b e s with bitCount := BitVec.ofNat 7 (p + 1) } := by
  rw [assemble, if_pos (by omega), if_pos hp]

theorem assemble_of_ser {p : Nat} (hlo : 32 ≤ p) (hhi : p ≤ 59) (b : Bool) (sb e : Sample)
    (s : State) :
    assemble p b sb e s = { serBit p b e s with bitCount := BitVec.ofNat 7 (p + 1) } := by
  rw [assemble, if_pos (by omega), if_neg (by omega), if_pos hhi]

theorem assemble_of_btn {k : Nat} (hk : k ≤ 3) (b : Bool) (sb e : Sample) (s : State) :
    assemble (60 + k) b sb e s =
      { btnBit (60 + k) b sb e s with bitCount := BitVec.ofNat 7 (61 + k) } := by
  rw [assemble, if_pos (by omega), if_neg (by omega), if_neg (by omega), if_pos (by omega),
    Nat.add_right_comm]

theorem assemble_of_vlow (b : Bool) (sb e : Sample) (s : State) :
    assemble 64 b sb e s = { vlowBit b sb e s with bitCount := 65#7 } := rfl

/-! The step of each field as one update of the state. -/

theorem encBit_of_lt {p : Nat} (hp : p < 31) (b : Bool) (e : Sample) (s : State) :
    encBit p b e s = { s with acc := setBit s.acc p b } :=
  if_neg (by omega)

theorem serBit_of_lt {p : Nat} (hp : p < 59) (b : Bool) (e : Sample) (s : State) :
    serBit p b e s = { s with acc := setBit s.acc (p - 32) b } :=
  if_neg (by omega)

/-- The value of BUTTON_BIT as a number (30_encoding.md R77). -/
theorem buttonValue_eq {k : Nat} (hk : k ≤ 3) (b : Bool) :
    buttonValue k b = BitVec.ofNat 32 (2 * k + b.toNat) := by
  have hb := b.toNat_lt
  apply BitVec.eq_of_toNat_eq
  rw [buttonValue, BitVec.toNat_setWidth, append_toNat, BitVec.toNat_ofNat, BitVec.toNat_ofNat,
    BitVec.toNat_ofBool]
  omega

/-- Button `k`'s populated flag is the only one that is set (43_field_assembler.md R166). -/
theorem setPopBtn_eq (c : CodeWord) {k : Nat} (hk : k ≤ 3) :
    c.setPopBtn k =
      { c with
        popS3 := c.popS3 || k == 0
        popS0 := c.popS0 || k == 1
        popS1 := c.popS1 || k == 2
        popS2 := c.popS2 || k == 3 } := by
  unfold CodeWord.setPopBtn
  interval_cases k <;> simp

/-- `acc[27:0]`, as `cw_ser` holds it and as SER_VALUE carries it (43_field_assembler.md R165). -/
theorem serialField_eq (a : Word32) :
    a.extractLsb' 0 28 = BitVec.ofNat 28 a.toNat ∧
      (a.extractLsb' 0 28).setWidth 32 = BitVec.ofNat 32 (a.toNat % 2 ^ 28) := by
  have hlow : a.extractLsb' 0 28 = BitVec.ofNat 28 a.toNat := by
    apply BitVec.eq_of_toNat_eq
    rw [field_toNat, BitVec.toNat_ofNat, Nat.pow_zero, Nat.div_one]
  exact ⟨hlow, by rw [hlow, ← BitVec.ofNat_toNat, BitVec.toNat_ofNat]⟩

/-- Bit 31 closes the Encrypted field (43_field_assembler.md R163). -/
theorem encBit_last (b : Bool) (e : Sample) (s : State) :
    encBit 31 b e s =
      { s with
        acc := 0#32, cw := { s.cw with enc := setBit s.acc 31 b, popEnc := true }
        blockStart := none
        pending := s.pending ++
          [.ann ⟨.encBlock, s.blockStartBits, e, 0#32⟩,
           .ann ⟨.encValue, s.blockStartBits, e, setBit s.acc 31 b⟩] } := by
  simp [encBit, encClose, State.emit, State.closeBlock, State.blockStartBits]

/-- Bit 59 closes the SerialNumber field (43_field_assembler.md R165). -/
theorem serBit_last (b : Bool) (e : Sample) (s : State) :
    serBit 59 b e s =
      { s with
        acc := 0#32
        cw := { s.cw with ser := BitVec.ofNat 28 (setBit s.acc 27 b).toNat, popSer := true }
        blockStart := none
        pending := s.pending ++
          [.ann ⟨.serBlock, s.blockStartBits, e, 0#32⟩,
           .ann ⟨.serValue, s.blockStartBits, e,
             BitVec.ofNat 32 ((setBit s.acc 27 b).toNat % 2 ^ 28)⟩] } := by
  obtain ⟨hser, hvalue⟩ := serialField_eq (setBit s.acc 27 b)
  rw [← hvalue, ← hser]
  simp [serBit, serClose, State.emit, State.closeBlock, State.blockStartBits]

/-- A button's bit and, at bit 63, the close of the group (43_field_assembler.md R166, R167). -/
theorem btnBit_eq (k : Nat) (b : Bool) (sb e : Sample) (s : State) :
    btnBit (60 + k) b sb e s =
      { s with
        cw := { s.cw with btn := setBit s.cw.btn k b }.setPopBtn k
        blockStart := if k = 3 then none else s.blockStart
        pending := s.pending ++
          (.ann ⟨.buttonBit, sb, e, buttonValue k b⟩ ::
            if k = 3 then
              [.ann ⟨.buttonCode, s.blockStartBits, e, (setBit s.cw.btn k b).setWidth 32⟩]
            else []) } := by
  have hclose : 60 + k = 63 ↔ k = 3 := by omega
  simp only [btnBit, hclose, Nat.add_sub_cancel_left]
  split
  · next hlast =>
    simp [btnClose, State.emit, State.closeBlock, State.blockStartBits, hlast, setPopBtn_eq]
  · simp [State.emit]

/-- Bit 64 and its block (43_field_assembler.md R168). -/
theorem vlowBit_eq (b : Bool) (sb e : Sample) (s : State) :
    vlowBit b sb e s =
      { s with
        cw := { s.cw with lowbat := b, popLowbat := true }, blockStart := none
        pending := s.pending ++
          [.ann ⟨.vlowBlock, s.blockStartBits, e, 0#32⟩, .ann ⟨.vlowValue, sb, e, valueOfBit b⟩] } := by
  simp [vlowBit, State.emit, State.closeBlock, State.blockStartBits, bitValue_eq]

/-- Settles O38: the new accumulator is `setBit`'s, written back below bit 31 and moved to `cw_enc` at it. -/
theorem encryptedBitsAccumulate : Obligations.EncryptedBitsAccumulate := by
  unfold Obligations.EncryptedBitsAccumulate
  intro sub p smp bs s h hp hcount hbs
  rw [exec_edge_dataEnd_assembles h hp, assemble_of_enc hcount]
  refine ⟨setBit s.acc s.bitCount.toNat s.pendBit, setBit_getLsbD _ _ _, fun hlt => ?_,
    fun hlast => ?_⟩
  · rw [encBit_of_lt hlt]
    rfl
  · rw [hlast, encBit_last]
    simp [State.blockStartBits, hbs]

/-- Settles O39: as for O38, from weight 0 again; `cw_ser` takes the low 28 bits. -/
theorem serialBitsAccumulate : Obligations.SerialBitsAccumulate := by
  unfold Obligations.SerialBitsAccumulate
  intro sub p smp bs s h hp hlo hhi hbs
  rw [exec_edge_dataEnd_assembles h hp, assemble_of_ser hlo hhi]
  refine ⟨setBit s.acc (s.bitCount.toNat - 32) s.pendBit, setBit_getLsbD _ _ _, fun hlt => ?_,
    fun hlast => ?_⟩
  · rw [serBit_of_lt hlt]
    rfl
  · rw [hlast, serBit_last]
    simp [State.blockStartBits, hbs]

/-- Settles O40: `btnBit` writes bit `k` of `cw_btn`, and of the four only `k = 3` closes the group. -/
theorem buttonBitsInOrder : Obligations.ButtonBitsInOrder := by
  unfold Obligations.ButtonBitsInOrder
  intro sub p smp bs s k h hp hk hcount hbs
  refine ⟨setBit s.cw.btn k s.pendBit, setBit_getLsbD _ _ _, ?_⟩
  rw [exec_edge_dataEnd_assembles h hp, hcount, assemble_of_btn hk, btnBit_eq,
    buttonValue_eq hk, setPopBtn_eq _ hk]
  simp [State.blockStartBits, hbs]

/-- Settles O41: `vlowBit`, run at the end boundary. -/
theorem lowBatteryBitAtOnce : Obligations.LowBatteryBitAtOnce := by
  unfold Obligations.LowBatteryBitAtOnce
  intro sub p smp bs s h hp hcount hbs
  have hposition : s.bitCount.toNat = 64 := congrArg BitVec.toNat hcount
  rw [exec_edge_dataEnd_assembles h hp, hposition, assemble_of_vlow, vlowBit_eq]
  simp [State.blockStartBits, hbs]

end Sys2Proof.Machine
end

section
/-! The text HEX7 of a value (43_field_assembler.md R169), by way of Mathlib's lists of the digits of a number. -/

namespace Sys2Proof.Machine

/-- The text of hexadecimal digits that are given least significant first. -/
def hexText (ds : List Nat) : List Char := ds.reverse.map digitChar

/-- With fuel enough, `digits` spells Mathlib's digits. -/
theorem digits_eq_hexText (fuel v : Nat) (h : v < 16 ^ fuel) :
    digits 16 fuel v = hexText (Nat.digits 16 v) := by
  induction fuel generalizing v with
  | zero =>
    obtain rfl : v = 0 := by omega
    rfl
  | succ fuel ih =>
    by_cases hv : v = 0
    · simp [digits, hexText, hv]
    · have hq : v / 16 < 16 ^ fuel := Nat.div_lt_of_lt_mul (by rwa [← Nat.pow_succ'])
      rw [digits, if_neg hv, ih _ hq, Nat.digits_def' (by decide) (Nat.pos_of_ne_zero hv)]
      simp [hexText]

/-- HEX7 spells the digits with the zeros above them that make them seven (43_field_assembler.md R169). -/
theorem hex7_eq_hexText (v : Word32) :
    hex7 v = '0' :: 'x' :: hexText (Nat.digitsAppend 16 7 v.toNat) := by
  rw [hex7, digits_eq_hexText 8 v.toNat v.isLt]
  simp [padZeros, hexText, Nat.digitsAppend, digitChar]

/-- Seven digits spell the numbers below 2^28, and every other 32-bit number has eight. -/
theorem digitsAppend_length (v : Word32) :
    (Nat.digitsAppend 16 7 v.toNat).length = if v.toNat < 2 ^ 28 then 7 else 8 := by
  split
  · next hv => exact Nat.length_digitsAppend (by decide) 7 hv
  · next hv =>
    have hgt : ¬ (Nat.digits 16 v.toNat).length ≤ 7 :=
      fun hle => hv ((Nat.digits_length_le_iff (b := 16) (by decide) _).mp hle)
    have hle : (Nat.digits 16 v.toNat).length ≤ 8 :=
      (Nat.digits_length_le_iff (by decide) _).mpr v.isLt
    rw [Nat.digitsAppend, List.length_append, List.length_replicate]
    omega

/-- A hexadecimal digit's character is `0` to `9` or `A` to `F`. -/
theorem digitChar_range : ∀ d < 16,
    (48 ≤ (digitChar d).toNat ∧ (digitChar d).toNat ≤ 57) ∨
      (65 ≤ (digitChar d).toNat ∧ (digitChar d).toNat ≤ 70) := by decide

theorem hexDigit_digitChar : ∀ d < 16, hexDigit (digitChar d) = some d := by decide

theorem parseDigits_append (digit : Char → Option Nat) (base acc : Nat) (cs ds : List Char) :
    parseDigits digit base acc (cs ++ ds) =
      (parseDigits digit base acc cs).bind fun n => parseDigits digit base n ds := by
  induction cs generalizing acc with
  | nil => rfl
  | cons c cs ih =>
    rw [List.cons_append, parseDigits, parseDigits]
    cases digit c with
    | none => rfl
    | some d => exact ih _

/-- Reading a text of digits gives the number the digits are of. -/
theorem parseDigits_hexText (ds : List Nat) (h : ∀ d ∈ ds, d < 16) :
    parseDigits hexDigit 16 0 (hexText ds) = some (Nat.ofDigits 16 ds) := by
  induction ds with
  | nil => rfl
  | cons d ds ih =>
    obtain ⟨hd, hds⟩ := List.forall_mem_cons.mp h
    have hsplit : hexText (d :: ds) = hexText ds ++ [digitChar d] := by simp [hexText]
    rw [hsplit, parseDigits_append, ih hds, Nat.ofDigits_cons]
    simp [parseDigits, hexDigit_digitChar d hd, Nat.add_comm]

/-- Settles O59: HEX7 spells `Nat.digitsAppend 16 7`; the zeros above the digits change neither the number nor the
kind of character. -/
theorem hexTextIsExact : Obligations.HexTextIsExact := by
  unfold Obligations.HexTextIsExact
  intro v
  have hdigits : ∀ d ∈ Nat.digitsAppend 16 7 v.toNat, d < 16 :=
    Nat.lt_of_mem_digitsAppend (by decide) 7
  refine ⟨_, hex7_eq_hexText v, ?length, ?characters, ?value⟩
  case length => simpa [hexText] using digitsAppend_length v
  case characters =>
    intro c hc
    obtain ⟨d, hd, rfl⟩ := List.mem_map.mp hc
    exact digitChar_range d (hdigits d (List.mem_reverse.mp hd))
  case value =>
    rw [parseDigits_hexText _ hdigits, Nat.digitsAppend, Nat.ofDigits_append_replicate_zero,
      Nat.ofDigits_digits]

end Sys2Proof.Machine
end

section
/-! The commands one at a time (44_commands.md): past the prologue, each legal command has an effect of its own,
said here for NOP, CFGW, START, END and the anchor's EDGE. -/

namespace Sys2Proof.Machine

/-- A halted block ignores every command but RESET (44_commands.md R192). -/
theorem exec_of_faulted {i : Instr} {s : State} (hi : i.op ≠ 0x1#4) (h : s.faulted) :
    exec i s = .next s := by
  obtain ⟨body, hexec⟩ := exec_eq_prologue hi
  rw [hexec, prologue_of_faulted i body s h]

/-- The NOP with zero fields, halted or not (44_commands.md R190). -/
theorem exec_nop_zero (s : State) : exec (.nop 0#4 0#64) s = .next s := by
  by_cases hf : s.faultCode = .noFault
  · have hlegal : ¬ (Instr.nop 0#4 0#64).illegal s.cfg.sampleW := by simp [Instr.illegal]
    exact congrArg Host.Outcome.next (prologue_of_legal _ id s hf hlegal)
  · exact exec_of_faulted (by decide) hf

/-- A legal END in a block that is not halted (44_commands.md R199). -/
theorem exec_endSession_zero {s : State} (hf : s.faultCode = .noFault) :
    exec (.endSession 0#4 0#64) s = .next { s with phase := .idle } := by
  have hlegal : ¬ (Instr.endSession 0#4 0#64).illegal s.cfg.sampleW := by simp [Instr.illegal]
  exact congrArg Host.Outcome.next (prologue_of_legal _ _ s hf hlegal)

/-- START without a rate in a block that is not halted (44_commands.md R195). -/
theorem exec_start_of_no_rate {s : State} (hf : s.faultCode = .noFault)
    (hr : s.sampleRate = 0#32) :
    exec (.start 0#4 0#64) s = .next { s with faultCode := .noSampleRate, faultInfo := 0x30#8 } := by
  have hlegal : ¬ (Instr.start 0#4 0#64).illegal s.cfg.sampleW := by simp [Instr.illegal]
  simp only [exec, execStart, prologue_of_legal _ _ _ hf hlegal, startSession, if_pos hr,
    raise_of_noFault _ _ _ hf]
  rfl

/-- The addresses R69 leaves to CFGW are those of the two registers (30_encoding.md R70). -/
theorem cfgw_illegal_iff (sampleW : Nat) (sub : BitVec 4) (payload : BitVec 64) :
    (Instr.cfgw sub payload).illegal sampleW ↔
      (sub ≠ 0#4 ∧ sub ≠ 1#4) ∨ 2 ^ 32 ≤ payload.toNat := by
  rw [← not_or, ← sub_lt_two_iff, Nat.not_lt]

/-- A legal CFGW in a block that is not halted is its write alone (44_commands.md R193). -/
theorem exec_cfgw_of_legal {sub : BitVec 4} {payload : BitVec 64} {s : State}
    (hf : s.faultCode = .noFault) (hsub : sub = 0#4 ∨ sub = 1#4) (hdata : payload.toNat < 2 ^ 32) :
    exec (.cfgw sub payload) s = .next (cfgWrite sub payload s) := by
  have hlegal : ¬ (Instr.cfgw sub payload).illegal s.cfg.sampleW := by
    rw [cfgw_illegal_iff]
    rintro (⟨hrate, hpad⟩ | hwide)
    · exact hsub.elim hrate hpad
    · omega
  exact congrArg Host.Outcome.next (prologue_of_legal _ _ s hf hlegal)

theorem cfgWrite_sampleRate (payload : BitVec 64) {s : State} (hp : s.phase = .idle) :
    cfgWrite 0x0#4 payload s = { s with sampleRate := BitVec.ofNat 32 payload.toNat } := if_pos hp

theorem cfgWrite_lastBitPad (payload : BitVec 64) {s : State} (hp : s.phase = .idle) :
    cfgWrite 0x1#4 payload s = { s with lastBitPad := BitVec.ofNat 32 payload.toNat } := if_pos hp

theorem cfgWrite_busy (sub : BitVec 4) (payload : BitVec 64) {s : State}
    (hf : s.faultCode = .noFault) (hp : s.phase ≠ .idle) :
    cfgWrite sub payload s = { s with faultCode := .cfgBusy, faultInfo := 0x2#4 ++ sub } :=
  (if_neg hp).trans (raise_of_noFault _ _ _ hf)

/-- A legal EDGE in ANCHOR is the anchor step at the sample it carries (44_commands.md R197). -/
theorem exec_edge_anchor {sub : BitVec 4} {smp : Sample} {s : State} (h : edgeLegal s sub smp)
    (hp : s.phase = .anchor) :
    exec (.edge sub smp) s = .next (anchorEdge (polOf sub) smp s) := by
  obtain ⟨hf, hsub, hsmp⟩ := h
  have hlegal : ¬ (Instr.edge sub smp).illegal s.cfg.sampleW := by
    simp only [Instr.illegal]; omega
  simp only [exec, execEdge, prologue_of_legal _ _ _ hf hlegal, edgeEffect, hp,
    sampleOf_eq _ _ hsmp]

/-- Settles O13: the effect of NOP is the identity, so only the prologue can write. -/
theorem nopLeavesTheState : Obligations.NopLeavesTheState := by
  unfold Obligations.NopLeavesTheState
  intro s
  exact ⟨exec_nop_zero s, fun sub payload =>
    ⟨fun hi hf => exec_of_illegal hf hi, exec_of_faulted (by simp [Instr.op])⟩⟩

/-- Settles O14: RESET has no prologue, and the soft reset reads neither operand nor fault. -/
theorem resetCommandClears : Obligations.ResetCommandClears := by
  unfold Obligations.ResetCommandClears
  exact exec_reset

/-- Settles O15, by the case of the write: either register in IDLE, busy in any other phase. -/
theorem cfgwWritesOneRegister : Obligations.CfgwWritesOneRegister := by
  unfold Obligations.CfgwWritesOneRegister
  intro sub payload s
  refine ⟨fun hf hdata hp => ⟨?rate, ?pad⟩, fun hf hsub hdata hp => ?busy, fun hf hi => ?illegal,
    exec_of_faulted (by simp [Instr.op])⟩
  case rate => rw [exec_cfgw_of_legal hf (.inl rfl) hdata, cfgWrite_sampleRate payload hp]
  case pad => rw [exec_cfgw_of_legal hf (.inr rfl) hdata, cfgWrite_lastBitPad payload hp]
  case busy => rw [exec_cfgw_of_legal hf hsub hdata, cfgWrite_busy sub payload hf hp]
  case illegal => exact exec_of_illegal hf ((cfgw_illegal_iff _ sub payload).mpr hi)

/-- Settles O16: a legal START depends on the rate alone. -/
theorem startBeginsASession : Obligations.StartBeginsASession := by
  unfold Obligations.StartBeginsASession
  intro sub payload s
  exact ⟨exec_start_of_rate, exec_start_of_no_rate, fun hf hi => exec_of_illegal hf hi,
    exec_of_faulted (by simp [Instr.op])⟩

/-- Settles O20: the anchor step at either polarity. -/
theorem firstRisingEdgeAnchors : Obligations.FirstRisingEdgeAnchors := by
  unfold Obligations.FirstRisingEdgeAnchors
  intro smp s hp
  exact ⟨fun h => exec_edge_anchor h hp, fun h => exec_edge_anchor h hp⟩

/-- Settles O22: a legal END writes the phase alone, and the prologue answers for the rest. -/
theorem endClosesTheSession : Obligations.EndClosesTheSession := by
  unfold Obligations.EndClosesTheSession
  intro sub payload s
  exact ⟨exec_endSession_zero, fun hf hi => exec_of_illegal hf hi,
    exec_of_faulted (by simp [Instr.op])⟩

end Sys2Proof.Machine
end

section
/-! The faults (60_exceptions.md): what raises each of them (R220, R223), how precisely the block enters one
(R221), what it ignores in one (R222), and the two ways out (R224). -/

namespace Sys2Proof.Machine

theorem faultLevel_iff (s : State) : s.faultLevel = true ↔ s.faulted := by
  cases hc : s.faultCode <;> simp [State.faultLevel, FaultCode.code, State.faulted, hc]

theorem op_ne_reset_of_forall_ne {i : Instr} (h : ∀ sub payload, i ≠ .reset sub payload) :
    i.op ≠ 0x1#4 := by
  rw [Ne, op_eq_reset_iff]
  exact fun ⟨sub, payload, hi⟩ => h sub payload hi

/-- Settles O24: the level is the code compared with 0, and only RESET has no prologue to stop it. -/
theorem haltedBlockIgnoresCommands : Obligations.HaltedBlockIgnoresCommands := by
  unfold Obligations.HaltedBlockIgnoresCommands
  intro i s
  refine ⟨fun hf => ?_, fun hf => ⟨(faultLevel_iff s).mpr hf, fun hi => ?_⟩⟩
  · rw [Bool.eq_false_iff, Ne, faultLevel_iff]
    exact not_not_intro hf
  · exact exec_of_faulted (op_ne_reset_of_forall_ne hi) hf

/-- The cause of each fault in the table of 60_exceptions.md R220, for a command started in `s`. A cause other
than ILLEGAL_CMD's asks for a legal command, which is the order of the checks (R223). -/
def FaultCode.causedBy (i : Instr) (s : State) : FaultCode → Prop
  | .noFault => False
  | .noSampleRate => i = .start 0#4 0#64 ∧ s.sampleRate = 0#32
  | .illegalCmd => i.illegal s.cfg.sampleW
  | .order => ∃ sub smp, i = .edge sub smp ∧ ¬ i.illegal s.cfg.sampleW ∧ s.phase.timed ∧
      smp.toNat ≤ s.prevBits.toNat
  | .cfgBusy => ∃ sub payload, i = .cfgw sub payload ∧ ¬ i.illegal s.cfg.sampleW ∧ s.phase ≠ .idle

/-- A CFGW outside IDLE in a block that is not halted (44_commands.md R193). -/
theorem exec_cfgw_busy {sub : BitVec 4} {payload : BitVec 64} {s : State}
    (hf : s.faultCode = .noFault) (hi : ¬ (Instr.cfgw sub payload).illegal s.cfg.sampleW)
    (hp : s.phase ≠ .idle) :
    exec (.cfgw sub payload) s =
      .next { s with faultCode := .cfgBusy, faultInfo := opSub (.cfgw sub payload) } := by
  simp only [exec, execCfgw, prologue_of_legal _ _ _ hf hi, cfgWrite_busy sub payload hf hp]
  rfl

/-- An EDGE whose sample is not above `prev` in a block that is not halted (44_commands.md R198). -/
theorem exec_edge_out_of_order {sub : BitVec 4} {smp : Sample} {s : State}
    (hf : s.faultCode = .noFault) (hi : ¬ (Instr.edge sub smp).illegal s.cfg.sampleW)
    (hp : s.phase.timed) (hle : smp.toNat ≤ s.prevBits.toNat) :
    exec (.edge sub smp) s =
      .next { s with faultCode := .order, faultInfo := opSub (.edge sub smp) } := by
  have hsmp : sampleOf s.cfg.sampleW smp = smp :=
    sampleOf_eq _ _ (by simp only [Instr.illegal] at hi; omega)
  simp only [exec, execEdge, prologue_of_legal _ _ _ hf hi, edgeEffect, hsmp, timedEdge, if_pos hle,
    raise_of_noFault _ _ _ hf]
  rcases hp with hp | hp | hp | hp <;> simp only [hp]

/-- A cause is enough for its fault, and the fault record is then all that changes (60_exceptions.md R221). -/
theorem exec_of_causedBy {i : Instr} {s : State} {c : FaultCode} (hf : s.faultCode = .noFault)
    (hc : c.causedBy i s) :
    exec i s = .next { s with faultCode := c, faultInfo := opSub i } := by
  cases c with
  | noFault => exact hc.elim
  | noSampleRate =>
    obtain ⟨rfl, hrate⟩ := hc
    exact exec_start_of_no_rate hf hrate
  | illegalCmd => exact exec_of_illegal hf hc
  | order =>
    obtain ⟨sub, smp, rfl, hi, hp, hle⟩ := hc
    exact exec_edge_out_of_order hf hi hp hle
  | cfgBusy =>
    obtain ⟨sub, payload, rfl, hi, hp⟩ := hc
    exact exec_cfgw_busy hf hi hp

theorem phaseStep_faultCode (m : MatchVec) (smp : Sample) (s : State) :
    (phaseStep m smp s).faultCode = s.faultCode := by
  have hc := phaseStep_control m smp s
  simp only [State.control, Prod.mk.injEq] at hc
  obtain ⟨-, -, -, -, hcode, -⟩ := hc
  exact hcode

/-- No command raises a fault without its cause (60_exceptions.md R220): the cases of a command that end in a
fault carry the cause, and the others keep the code of `s`. -/
theorem causedBy_of_exec_faulted {i : Instr} {s t : State} (hf : s.faultCode = .noFault)
    (h : exec i s = .next t) (ht : t.faulted) : t.faultCode.causedBy i s := by
  obtain rfl : effect i s = t := (exec_next_iff i s t).mp h
  have hchanged : (effect i s).faultCode ≠ s.faultCode := hf ▸ ht
  rcases effect_cases i s with ⟨-, -, -, he⟩ | ⟨-, hs, -⟩ | ⟨-, hill, he⟩ | ⟨-, -, he⟩ | ⟨-, -, he⟩ |
    ⟨-, hi, ⟨hrate, he⟩ | ⟨-, he⟩⟩ | ⟨sub, payload, -, hi, hleg, ⟨hp, he⟩ | ⟨-, _, _, he⟩⟩ |
    ⟨sub, smp, -, hi, hleg, ⟨-, he⟩ | ⟨-, he | he⟩ | ⟨hp, hle, he⟩ | ⟨-, -, he⟩⟩
  · exact absurd (he ▸ softReset_faultCode s) ht
  · exact absurd hf hs
  · rw [he]; exact hill
  · exact absurd (congrArg State.faultCode he) hchanged
  · exact absurd (congrArg State.faultCode he) hchanged
  · rw [he]; exact ⟨hi, hrate⟩
  · exact absurd (congrArg State.faultCode he) hchanged
  · rw [he]; exact ⟨sub, payload, hi, hleg, hp⟩
  · exact absurd (congrArg State.faultCode he) hchanged
  · exact absurd (congrArg State.faultCode he) hchanged
  · exact absurd (congrArg State.faultCode he) hchanged
  · exact absurd (congrArg State.faultCode he) hchanged
  · rw [he]; exact ⟨sub, smp, hi, hleg, hp, hle⟩
  · exact absurd (by rw [he]; exact phaseStep_faultCode _ smp s) hchanged

/-- A command started without a fault leaves one exactly when it has the cause (60_exceptions.md R220). -/
theorem exec_faultCode_iff {i : Instr} {s t : State} {c : FaultCode} (hf : s.faultCode = .noFault)
    (h : exec i s = .next t) (hc : c ≠ .noFault) : t.faultCode = c ↔ c.causedBy i s := by
  constructor
  · rintro rfl
    exact causedBy_of_exec_faulted hf h hc
  · intro hcause
    cases h.symm.trans (exec_of_causedBy hf hcause)
    rfl

/-- Settles O25: the fault left has its cause, and `exec_of_causedBy` says what a caused fault changes. -/
theorem faultEntryIsPrecise : Obligations.FaultEntryIsPrecise := by
  unfold Obligations.FaultEntryIsPrecise
  intro i s t hf h ht
  exact Host.Outcome.next.inj
    (h.symm.trans (exec_of_causedBy hf (causedBy_of_exec_faulted hf h ht)))

/-- Settles O26: `exec_faultCode_iff` at each of the four faults, and O25 for `{op, sub}`. -/
theorem faultsHaveTheirCauses : Obligations.FaultsHaveTheirCauses := by
  unfold Obligations.FaultsHaveTheirCauses
  refine ⟨rfl, fun i s t h => ⟨fun hf hi => ?_, fun hf => ⟨?_, ?_, ?_, ?_, fun ht => ?_⟩⟩⟩
  · cases h.symm.trans (exec_of_faulted (op_ne_reset_of_forall_ne hi) hf)
    exact ⟨rfl, rfl⟩
  · exact exec_faultCode_iff (c := .illegalCmd) hf h (by decide)
  · exact exec_faultCode_iff (c := .noSampleRate) hf h (by decide)
  · exact exec_faultCode_iff (c := .cfgBusy) hf h (by decide)
  · exact exec_faultCode_iff (c := .order) hf h (by decide)
  · rw [faultEntryIsPrecise i s t hf h ht]

/-- Under `rst` the step is the reset and the host's next levels (70_reset_and_hazards.md R250). -/
theorem step_of_rst {s : State} (h : s.pins.rst = true) : step s = .next s.hardReset.tick := if_pos h

/-- A block that is ready takes the word that `cmd` offers (70_reset_and_hazards.md R262). -/
theorem step_of_ready {s : State} {w : CmdWord} {ws : List CmdWord}
    (hpins : s.pins = ⟨false, true, true⟩) (hpending : s.pending = []) (hcmd : s.cmdIn = w :: ws) :
    step s = exec (decodeWord w) (s.accept ws).tick := by
  have hready : s.cmdReady = true := (cmdReady_iff s).mpr ⟨hpins, hpending⟩
  simp [step, hpins, hpending, hcmd, hready]

/-- Delivery, waiting and every command but RESET keep a recorded fault (60_exceptions.md R222). -/
theorem step_keeps_fault {s t : State} (h : step s = .next t) (hs : s.faulted)
    (hrst : s.pins.rst = false)
    (hcmd : ∀ w ws, s.pending = [] → s.cmdIn = w :: ws → (decodeWord w).op ≠ 0x1#4) :
    t.faultCode = s.faultCode := by
  rcases step_cases s with ⟨hr, -⟩ | ⟨-, o, os, -, ⟨-, he⟩ | ⟨-, he⟩⟩ | ⟨-, -, -, he⟩ |
    ⟨hready, w, ws, hw, he⟩
  · exact absurd hr (by simp [hrst])
  on_goal 4 =>
    have htaken : (s.accept ws).tick.faulted := by simpa [State.faulted] using hs
    obtain ⟨-, hpending⟩ := (cmdReady_iff s).mp hready
    replace he := he.trans (exec_of_faulted (hcmd w ws hpending hw) htaken)
  all_goals
    cases h.symm.trans he
    simp

/-- Settles O27: `step_keeps_fault` shuts out any other way, and either way ends in a reset of the record. -/
theorem onlyResetLeavesTheFault : Obligations.OnlyResetLeavesTheFault := by
  unfold Obligations.OnlyResetLeavesTheFault
  refine fun s t h => ⟨fun hs ht => ?_, fun hrst => ?_, fun w ws sub payload hpins hpending hw hd => ?_⟩
  · by_contra! hno
    obtain ⟨hrst, hcmd⟩ := hno
    have hkept := step_keeps_fault h hs (by simpa using hrst) fun w ws hpending hw =>
      op_ne_reset_of_forall_ne fun sub payload => hcmd w ws sub payload hpending hw
    exact hs (hkept.symm.trans ht)
  · cases h.symm.trans (step_of_rst hrst)
    simp
  · have hstep := step_of_ready hpins hpending hw
    rw [hd, exec_reset] at hstep
    cases h.symm.trans hstep
    simp

end Sys2Proof.Machine
end

section
/-! The output queue (70_reset_and_hazards.md R262): records leave in the order in which they were emitted, a low
ready level holds all of them, and no command runs while one waits. -/

namespace Sys2Proof.Machine

/-- What takes ready on `cmd` away outside `rst` (70_reset_and_hazards.md R262). -/
theorem cmdReady_eq_false_iff {s : State} (hrst : s.pins.rst = false) :
    s.cmdReady = false ↔
      s.pending ≠ [] ∨ s.pins.annReady = false ∨ s.pins.cwoReady = false := by
  rw [← draining_eq_false_iff]
  simp [State.cmdReady, hrst, imp_iff_not_or]

/-- The host's levels are all that a tick writes (log 9). -/
theorem tick_eq (s : State) : s.tick = { s with pins := s.tick.pins, pinsAhead := s.tick.pinsAhead } := by
  unfold State.tick; split <;> rfl

/-- No command delivers a record (10_state.md R37). -/
theorem exec_delivered {i : Instr} {s t : State} (h : exec i s = .next t) :
    t.delivered = s.delivered := by
  obtain ⟨-, -, -, -, -, -, -, -, -, hhost, -⟩ := registersHaveTheirWriters i s t h
  simp only [Prod.mk.injEq] at hhost
  obtain ⟨-, -, -, -, hdelivered⟩ := hhost
  exact hdelivered

/-- A block that is not ready on `cmd` waits or delivers its oldest record. -/
theorem step_of_not_cmdReady {s : State} (hrst : s.pins.rst = false) (hready : s.cmdReady = false) :
    step s = .next s.tick ∨
      s.pins.draining = true ∧ ∃ o os, s.pending = o :: os ∧ step s = .next (s.deliver o os).tick := by
  rcases step_cases s with ⟨hr, -⟩ | ⟨-, o, os, hp, ⟨hd, he⟩ | ⟨-, he⟩⟩ | ⟨-, -, -, he⟩ | ⟨hr, -⟩
  · simp [hrst] at hr
  · exact .inr ⟨hd, o, os, hp, he⟩
  · exact .inl he
  · exact .inl he
  · simp [hready] at hr

/-- A block that is ready on `cmd` adds the records of the command it takes, if it takes one. -/
theorem step_outputs_of_cmdReady {s t : State} (hready : s.cmdReady = true) (h : step s = .next t) :
    t.delivered = s.delivered ∧ s.pending <+: t.pending := by
  obtain ⟨hpins, hpending⟩ := (cmdReady_iff s).mp hready
  refine ⟨?_, hpending ▸ List.nil_prefix⟩
  rcases step_cases s with ⟨hr, -⟩ | ⟨-, o, os, hp, -⟩ | ⟨-, -, -, he⟩ | ⟨-, w, ws, -, he⟩
  · simp [hpins] at hr
  · simp [hpending] at hp
  · cases h.symm.trans he
    exact tick_delivered s
  · simpa using exec_delivered (he.symm.trans h)

/-- A block that is not ready on `cmd` moves records from one list to the other and writes no register. -/
theorem step_frame_of_not_cmdReady {s t : State} (hrst : s.pins.rst = false)
    (hready : s.cmdReady = false) (h : step s = .next t) :
    t = { s with pins := t.pins, pinsAhead := t.pinsAhead,
                 pending := t.pending, delivered := t.delivered } ∧
      t.delivered ++ t.pending = s.delivered ++ s.pending := by
  rcases step_of_not_cmdReady hrst hready with he | ⟨-, o, os, hp, he⟩
  · cases h.symm.trans he
    refine ⟨?_, by simp⟩
    simpa using tick_eq s
  · cases h.symm.trans he
    refine ⟨?_, by simp [hp]⟩
    simpa using tick_eq (s.deliver o os)

/-- A low ready level holds every record, for whichever port (70_reset_and_hazards.md R262). -/
theorem step_of_not_draining {s : State} (hrst : s.pins.rst = false)
    (hd : s.pins.draining = false) : step s = .next s.tick := by
  have hready : s.cmdReady = false := by simp [State.cmdReady, hd]
  rcases step_of_not_cmdReady hrst hready with he | ⟨ht, -⟩
  · exact he
  · simp [hd] at ht

/-- Settles O10: the cases are ready on `cmd` or not; a low ready level is one way of not being ready. -/
theorem outputsAreKeptInOrder : Obligations.OutputsAreKeptInOrder := by
  unfold Obligations.OutputsAreKeptInOrder
  refine fun s t hrst h => ⟨?grows, fun hwait => ?waits, fun hp ha hc => ?ready, fun hlow => ?held⟩
  case grows =>
    cases hready : s.cmdReady with
    | true =>
      obtain ⟨hdel, hpre⟩ := step_outputs_of_cmdReady hready h
      rw [hdel]
      exact (List.prefix_append_right_inj _).mpr hpre
    | false =>
      obtain ⟨-, hsame⟩ := step_frame_of_not_cmdReady hrst hready h
      exact hsame ▸ List.prefix_rfl
  case waits =>
    have hready := (cmdReady_eq_false_iff hrst).mpr hwait
    exact ⟨hready, step_frame_of_not_cmdReady hrst hready h⟩
  case ready =>
    exact Bool.of_not_eq_false fun hready => by
      simpa [hp, ha, hc] using (cmdReady_eq_false_iff hrst).mp hready
  case held =>
    cases h.symm.trans (step_of_not_draining hrst ((draining_eq_false_iff _).mpr hlow))
    exact ⟨tick_pending s, tick_delivered s⟩

end Sys2Proof.Machine
end

section
/-! The encoding of commands (30_encoding.md R61 to R72): decoding and encoding undo each other, and the illegal
words are those outside the six command rows (R69). -/

namespace Sys2Proof

theorem decodeWord_encodeWord (i : Instr) : decodeWord (encodeWord i) = i := by
  cases i with
  | nop sub payload => exact Laws.WordRoundTrip.nop sub payload
  | reset sub payload => exact Laws.WordRoundTrip.reset sub payload
  | cfgw sub payload => exact Laws.WordRoundTrip.cfgw sub payload
  | start sub payload => exact Laws.WordRoundTrip.start sub payload
  | edge sub payload => exact Laws.WordRoundTrip.edge sub payload
  | endSession sub payload => exact Laws.WordRoundTrip.endSession sub payload
  | reserved67 op0 sub payload => exact Laws.WordRoundTrip.reserved67 op0 sub payload
  | reserved8F op20 sub payload => exact Laws.WordRoundTrip.reserved8F op20 sub payload

/-- The decoder reads the nine bytes of a word and leaves the bytes after them (20_memory.md R51). -/
theorem decode_bytesLE_append (w : CmdWord) (rest : List Byte) :
    decode (bytesLE 9 w ++ rest) = .ok (decodeWord w, rest) := by
  have hlen : (bytesLE 9 w).length = 9 := bytesLE_length 9 w
  have hnum : BitVec.ofNat 72 (natOfBytesLE (bytesLE 9 w)) = w := by
    rw [natOfBytesLE_bytesLE, Nat.mod_eq_of_lt w.isLt, BitVec.ofNat_toNat, BitVec.setWidth_eq]
  rw [decode, if_pos (by simp [hlen]), List.take_left' hlen, List.drop_left' hlen, hnum]

/-- Settles O2: the nine bytes carry the whole word, and the word the whole command. -/
theorem decodeInvertsEncode : Obligations.DecodeInvertsEncode := by
  unfold Obligations.DecodeInvertsEncode
  intro i rest
  rw [encode, decode_bytesLE_append, decodeWord_encodeWord]

/-! The fields of a decoded command are those of the word. -/

theorem decodeWord_op (w : CmdWord) : (decodeWord w).op = w.extractLsb' 68 4 := by
  simp only [decodeWord, apply_ite Instr.op]
  simp only [Instr.op]
  generalize w.extractLsb' 68 4 = op
  revert op
  decide

theorem decodeWord_sub (w : CmdWord) : (decodeWord w).sub = w.extractLsb' 64 4 := by
  simp only [decodeWord, apply_ite Instr.sub]
  simp only [Instr.sub, ite_self]

theorem decodeWord_payload (w : CmdWord) : (decodeWord w).payload = w.extractLsb' 0 64 := by
  simp only [decodeWord, apply_ite Instr.payload]
  simp only [Instr.payload, ite_self]

theorem encodeWord_decodeWord (w : CmdWord) : encodeWord (decodeWord w) = w :=
  cmdWord_ext ((encodeWord_op _).trans (decodeWord_op w))
    ((encodeWord_sub _).trans (decodeWord_sub w))
    ((encodeWord_payload _).trans (decodeWord_payload w))

/-- Byte `k` of the number that bytes make up is their `k`-th (20_memory.md R51). -/
theorem natOfBytesLE_getElem (bs : List Byte) (k : Nat) (hk : k < bs.length) :
    natOfBytesLE bs / 2 ^ (8 * k) % 256 = bs[k].toNat := by
  induction bs generalizing k with
  | nil => simp at hk
  | cons b bs ih =>
    have hb : b.toNat < 256 := b.isLt
    cases k with
    | zero =>
      simp only [natOfBytesLE, List.getElem_cons_zero]
      omega
    | succ k =>
      have hdiv : (b.toNat + 256 * natOfBytesLE bs) / 256 = natOfBytesLE bs := by omega
      rw [natOfBytesLE, Nat.mul_succ, Nat.add_comm (8 * k), Nat.pow_add, ← Nat.div_div_eq_div_mul,
        hdiv]
      exact ih k (by simpa using hk)

theorem natOfBytesLE_lt (bs : List Byte) : natOfBytesLE bs < 2 ^ (8 * bs.length) := by
  induction bs with
  | nil => simp [natOfBytesLE]
  | cons b bs ih =>
    have hb : b.toNat < 256 := b.isLt
    rw [natOfBytesLE, List.length_cons, Nat.mul_succ, Nat.pow_add]
    omega

/-- Reading nine bytes as a word and serialising it gives the bytes again (20_memory.md R51). -/
theorem bytesLE_ofNat_natOfBytesLE {bs : List Byte} (h : bs.length = 9) :
    bytesLE 9 (BitVec.ofNat 72 (natOfBytesLE bs)) = bs := by
  have hlt : natOfBytesLE bs < 2 ^ 72 := by simpa [h] using natOfBytesLE_lt bs
  refine List.ext_getElem (by simp [h]) fun k _ hk => BitVec.eq_of_toNat_eq ?_
  simp only [bytesLE, List.getElem_map, List.getElem_range]
  rw [byteOf_toNat, BitVec.toNat_ofNat, Nat.mod_eq_of_lt hlt, natOfBytesLE_getElem bs k hk]

/-- Settles O3: the command is that of the word the bytes make up. -/
theorem encodeInvertsDecode : Obligations.EncodeInvertsDecode := by
  unfold Obligations.EncodeInvertsDecode
  intro bs hlen
  have hbytes := bytesLE_ofNat_natOfBytesLE hlen
  refine ⟨decodeWord (BitVec.ofNat 72 (natOfBytesLE bs)), ?_, ?_⟩
  · simpa [hbytes] using decode_bytesLE_append (BitVec.ofNat 72 (natOfBytesLE bs)) []
  · rw [encode, encodeWord_decodeWord, hbytes]

/-- Settles O4: the decoder asks for nine bytes first. -/
theorem decodeRefusesTruncatedWords : Obligations.DecodeRefusesTruncatedWords := by
  unfold Obligations.DecodeRefusesTruncatedWords
  intro bs hlen
  exact if_neg (by omega)

/-- Settles O1: each word is closed. -/
theorem decodesTheSpecsWords : Obligations.DecodesTheSpecsWords := by
  unfold Obligations.DecodesTheSpecsWords
  decide

/-- The legal words by their fields (30_encoding.md R63 to R69). -/
theorem decodeWord_illegal_iff (w : CmdWord) (sampleW : Nat) :
    (decodeWord w).illegal sampleW ↔
      ¬ (w.extractLsb' 68 4 = 0x0#4 ∧ w.extractLsb' 64 4 = 0#4 ∧ w.extractLsb' 0 64 = 0#64 ∨
         w.extractLsb' 68 4 = 0x1#4 ∨
         w.extractLsb' 68 4 = 0x2#4 ∧ (w.extractLsb' 64 4).toNat < 2 ∧
           (w.extractLsb' 0 64).toNat < 2 ^ 32 ∨
         w.extractLsb' 68 4 = 0x3#4 ∧ w.extractLsb' 64 4 = 0#4 ∧ w.extractLsb' 0 64 = 0#64 ∨
         w.extractLsb' 68 4 = 0x4#4 ∧ (w.extractLsb' 64 4).toNat < 2 ∧
           (w.extractLsb' 0 64).toNat < 2 ^ sampleW ∨
         w.extractLsb' 68 4 = 0x5#4 ∧ w.extractLsb' 64 4 = 0#4 ∧ w.extractLsb' 0 64 = 0#64) := by
  unfold decodeWord
  dsimp only
  generalize w.extractLsb' 68 4 = op, w.extractLsb' 64 4 = sub, w.extractLsb' 0 64 = payload
  split_ifs
  all_goals simp_all [Instr.illegal, Decidable.imp_iff_not_or]
  all_goals rfl

/-- A masked comparison of command words is one of each field (30_encoding.md R61). -/
theorem masked_eq_iff (w mask v : CmdWord) :
    w &&& mask = v ↔
      w.extractLsb' 68 4 &&& mask.extractLsb' 68 4 = v.extractLsb' 68 4 ∧
      w.extractLsb' 64 4 &&& mask.extractLsb' 64 4 = v.extractLsb' 64 4 ∧
      w.extractLsb' 0 64 &&& mask.extractLsb' 0 64 = v.extractLsb' 0 64 := by
  simp only [← BitVec.extractLsb'_and]
  exact ⟨fun h => by simp [h], fun ⟨hop, hsub, hpayload⟩ => cmdWord_ext hop hsub hpayload⟩

theorem op_masked (op : BitVec 4) : op &&& 0xF#4 = op := BitVec.and_allOnes

/-- A mask that leaves out bit 0 of `sub` (30_encoding.md R65, R67). -/
theorem sub_masked_iff (sub : BitVec 4) : sub &&& 0xE#4 = 0#4 ↔ sub.toNat < 2 := by
  revert sub; decide

/-- A mask of the upper half of the payload (30_encoding.md R65). -/
theorem payload_masked_iff (payload : BitVec 64) :
    payload &&& 0xFFFFFFFF00000000#64 = 0#64 ↔ payload.toNat < 2 ^ 32 := by
  have hhalves : ∀ v : BitVec 64,
      v = 0#64 ↔ v.extractLsb' 0 32 = 0#32 ∧ v.extractLsb' 32 32 = 0#32 := by
    intro v
    simp only [← BitVec.toNat_inj, field_toNat, BitVec.toNat_ofNat]
    omega
  have hlow : (0xFFFFFFFF00000000#64).extractLsb' 0 32 = 0#32 := rfl
  have hhigh : (0xFFFFFFFF00000000#64).extractLsb' 32 32 = BitVec.allOnes 32 := rfl
  rw [hhalves, BitVec.extractLsb'_and, BitVec.extractLsb'_and, hlow, hhigh, BitVec.and_allOnes,
    Machine.payloadHigh_iff]
  simp

/-- The row of a command whose fields must be zero: the mask is the whole word (30_encoding.md R63, R66, R68). -/
theorem fixedWord_iff (w v : CmdWord) :
    w &&& 0xFFFFFFFFFFFFFFFFFF#72 = v ↔
      w.extractLsb' 68 4 = v.extractLsb' 68 4 ∧ w.extractLsb' 64 4 = v.extractLsb' 64 4 ∧
        w.extractLsb' 0 64 = v.extractLsb' 0 64 := by
  have hmask : 0xFFFFFFFFFFFFFFFFFF#72 = BitVec.allOnes 72 := rfl
  rw [hmask, BitVec.and_allOnes]
  exact ⟨fun h => by simp [h], fun ⟨hop, hsub, hpayload⟩ => cmdWord_ext hop hsub hpayload⟩

/-- The row of RESET: `op` alone (30_encoding.md R64). -/
theorem resetRow_iff (w : CmdWord) :
    w &&& 0xF00000000000000000#72 = 0x100000000000000000#72 ↔ w.extractLsb' 68 4 = 0x1#4 := by
  simp [masked_eq_iff, op_masked]

/-- The row of CFGW: `op`, an address below 2 and 32 bits of data (30_encoding.md R65). -/
theorem cfgwRow_iff (w : CmdWord) :
    w &&& 0xFEFFFFFFFF00000000#72 = 0x200000000000000000#72 ↔
      w.extractLsb' 68 4 = 0x2#4 ∧ (w.extractLsb' 64 4).toNat < 2 ∧
        (w.extractLsb' 0 64).toNat < 2 ^ 32 := by
  rw [← sub_masked_iff, ← payload_masked_iff]
  simp [masked_eq_iff, op_masked]

/-- The row of EDGE: `op` and one bit of `sub`; its payload is not masked (30_encoding.md R67). -/
theorem edgeRow_iff (w : CmdWord) :
    w &&& 0xFE0000000000000000#72 = 0x400000000000000000#72 ↔
      w.extractLsb' 68 4 = 0x4#4 ∧ (w.extractLsb' 64 4).toNat < 2 := by
  rw [← sub_masked_iff]
  simp [masked_eq_iff, op_masked]

/-- Settles O5: ILLEGAL_CMD is raised exactly by the illegal commands (O26), and their fields are those that no row
has. -/
theorem illegalExactlyOutsideTheRows : Obligations.IllegalExactlyOutsideTheRows := by
  unfold Obligations.IllegalExactlyOutsideTheRows
  intro s w hf _
  have hcode : (∃ t, Machine.exec (decodeWord w) s = .next t ∧ t.faultCode = .illegalCmd) ↔
      (decodeWord w).illegal s.cfg.sampleW := by
    simp only [Machine.exec_next_iff, exists_eq_left']
    exact Machine.exec_faultCode_iff hf (Machine.exec_eq_effect _ s) (by decide)
  rw [hcode, decodeWord_illegal_iff, fixedWord_iff, resetRow_iff, cfgwRow_iff, fixedWord_iff,
    edgeRow_iff, fixedWord_iff]
  simp [and_assoc]

end Sys2Proof
end

section
/-! The output ports: the packed records and what reads them back (30_encoding.md R75 to R79), and the status port
(R81). -/

namespace Sys2Proof.Machine

theorem kind_code_le (k : Kind) : k.code.toNat ≤ 14 ∧ k.cat.toNat ≤ 4 := by
  cases k <;> decide

theorem kind_ofCode_code (k : Kind) : Kind.ofCode k.code = some k := by cases k <;> rfl

/-- The codes without a kind are refused, so a code that reads is the kind's own (30_encoding.md R76). -/
theorem kind_code_of_ofCode {c : BitVec 5} {k : Kind} (h : Kind.ofCode c = some k) : k.code = c := by
  revert c
  cases k <;> decide

/-- The annotation record as a number (30_encoding.md R75). -/
theorem annotation_record_toNat (a : Annotation) :
    a.record.toNat =
      (((a.kind.cat.toNat * 2 ^ 5 + a.kind.code.toNat) * 2 ^ 32 + a.value.toNat) * 2 ^ 64 +
        a.last.toNat) * 2 ^ 64 + a.first.toNat := by
  simp only [Annotation.record, append_toNat]

/-- The fields of an annotation record stand where 30_encoding.md R75 puts them. -/
theorem annotation_record_fields (a : Annotation) :
    a.record.extractLsb' 0 64 = a.first ∧ a.record.extractLsb' 64 64 = a.last ∧
      a.record.extractLsb' 128 32 = a.value ∧ a.record.extractLsb' 160 5 = a.kind.code ∧
      a.record.extractLsb' 165 3 = a.kind.cat := by
  have hcat := a.kind.cat.isLt
  have hcode := a.kind.code.isLt
  have hvalue := a.value.isLt
  have hlast := a.last.isLt
  have hfirst := a.first.isLt
  refine ⟨?_, ?_, ?_, ?_, ?_⟩
  all_goals
    apply BitVec.eq_of_toNat_eq
    rw [field_toNat, annotation_record_toNat]
    omega

/-- The five fields of an annotation record are all of it (30_encoding.md R75). -/
theorem annRecord_ext {r q : BitVec 168} (hfirst : r.extractLsb' 0 64 = q.extractLsb' 0 64)
    (hlast : r.extractLsb' 64 64 = q.extractLsb' 64 64)
    (hvalue : r.extractLsb' 128 32 = q.extractLsb' 128 32)
    (hcode : r.extractLsb' 160 5 = q.extractLsb' 160 5)
    (hcat : r.extractLsb' 165 3 = q.extractLsb' 165 3) : r = q := by
  simp only [← BitVec.toNat_inj, field_toNat] at *
  have hr := r.isLt
  have hq := q.isLt
  omega

theorem ofRecord_record (a : Annotation) : Annotation.ofRecord a.record = some a := by
  obtain ⟨hfirst, hlast, hvalue, hcode, hcat⟩ := annotation_record_fields a
  simp only [Annotation.ofRecord, hcode, kind_ofCode_code, hfirst, hlast, hvalue, hcat, if_true]

theorem record_of_ofRecord {r : BitVec 168} {a : Annotation} (h : Annotation.ofRecord r = some a) :
    r = a.record := by
  unfold Annotation.ofRecord at h
  split at h
  · cases h
  · next k hk =>
    split at h
    · next hcat =>
      cases h
      obtain ⟨hfirst', hlast', hvalue', hcode', hcat'⟩ := annotation_record_fields
        ⟨k, r.extractLsb' 0 64, r.extractLsb' 64 64, r.extractLsb' 128 32⟩
      exact annRecord_ext hfirst'.symm hlast'.symm hvalue'.symm
        ((kind_code_of_ofCode hk).symm.trans hcode'.symm) (hcat.trans hcat'.symm)
    · cases h

/-- An annotation waiting first is on `ann` and `cwo` is empty (20_memory.md R53; log 21). -/
theorem ports_of_ann {s : State} {a : Annotation} {os : List OutRecord}
    (h : s.pending = .ann a :: os) :
    s.annPort = (if s.pins.rst = false ∧ s.pins.cwoReady = true then some a.record else none) ∧
      s.cwoPort = none := by
  cases hr : s.pins.rst <;> cases hc : s.pins.cwoReady <;>
    simp [State.annPort, State.cwoPort, h, hr, hc]

/-- A code word waiting first is on `cwo` and `ann` is empty (20_memory.md R53; log 21). -/
theorem ports_of_cw {s : State} {r : BitVec 72} {os : List OutRecord} (h : s.pending = .cw r :: os) :
    s.cwoPort = (if s.pins.rst = false ∧ s.pins.annReady = true then some r else none) ∧
      s.annPort = none := by
  cases hr : s.pins.rst <;> cases ha : s.pins.annReady <;>
    simp [State.annPort, State.cwoPort, h, hr, ha]

theorem ports_of_nil {s : State} (h : s.pending = []) : s.annPort = none ∧ s.cwoPort = none := by
  simp [State.annPort, State.cwoPort, h]

/-- The buttons' bits of a code-word record stand in the order S3, S0, S1, S2 (30_encoding.md R79). -/
theorem record_buttons (c : CodeWord) {k : Nat} (hk : k < 4) :
    c.record.getLsbD (60 + k) = c.btn.getLsbD k := by
  obtain ⟨-, -, hbtn, -⟩ := record_fields c
  rw [← hbtn]
  simp [hk]

/-- Settles O57: the layouts by the fields of each record, the reading back by those fields, and the ports by the
record that waits first. -/
theorem annotationRecordLayout : Obligations.AnnotationRecordLayout := by
  unfold Obligations.AnnotationRecordLayout
  refine ⟨rfl, kind_code_le, fun a => ?_, fun c => ?_, fun _ _ _ => ports_of_cw,
    fun _ => ports_of_nil⟩
  · obtain ⟨hfirst, hlast, hvalue, hcode, hcat⟩ := annotation_record_fields a
    exact ⟨hfirst, hlast, hvalue, hcode, hcat, ofRecord_record a, fun _ => record_of_ofRecord,
      fun _ _ => ports_of_ann⟩
  · obtain ⟨henc, hser, -, hlowbat, hrpt, hunused⟩ := record_fields c
    exact ⟨henc, hser, record_buttons c (k := 0) (by decide), record_buttons c (k := 1) (by decide),
      record_buttons c (k := 2) (by decide), record_buttons c (k := 3) (by decide), hlowbat, hrpt,
      hunused⟩

/-- The lower 21 bits of `st_word` (30_encoding.md R81). -/
theorem stWord_fields (s : State) :
    s.stWord.extractLsb' 0 3 = s.phase.code ∧ s.stWord.extractLsb' 4 6 = s.teCount ∧
      s.stWord.extractLsb' 10 7 = s.bitCount ∧ s.stWord.extractLsb' 17 4 = s.faultCode.code := by
  have hphase := s.phase.code.isLt
  have hvariant := s.variant.code.isLt
  have hte := s.teCount.isLt
  have hbit := s.bitCount.isLt
  have hfault := s.faultCode.code.isLt
  refine ⟨?_, ?_, ?_, ?_⟩
  all_goals
    apply BitVec.eq_of_toNat_eq
    rw [field_toNat]
    simp only [State.stWord, append_toNat]
    omega

/-- The single bits of `st_word` (30_encoding.md R81). -/
theorem stWord_flags (s : State) :
    s.stWord.getLsbD 3 = (s.variant == .short) ∧
    s.stWord.getLsbD 21 = s.blockStart.isSome ∧ s.stWord.getLsbD 22 = s.prev.isSome ∧
    s.stWord.getLsbD 23 = s.pendBit ∧ s.stWord.getLsbD 24 = s.cw.popEnc ∧
    s.stWord.getLsbD 25 = s.cw.popSer ∧ s.stWord.getLsbD 26 = s.cw.popS3 ∧
    s.stWord.getLsbD 27 = s.cw.popS0 ∧ s.stWord.getLsbD 28 = s.cw.popS1 ∧
    s.stWord.getLsbD 29 = s.cw.popS2 ∧ s.stWord.getLsbD 30 = s.cw.popLowbat ∧
    s.stWord.getLsbD 31 = s.cw.popRpt := by
  have hvariant : s.variant.code[0] = (s.variant == .short) := by cases s.variant <;> rfl
  simp only [State.stWord, BitVec.getLsbD_append, State.prevV, State.blockStartV]
  simp [hvariant]

/-- Settles O56: the codes are closed, and `st_word` is read off field by field. -/
theorem statusWordShowsTheState : Obligations.StatusWordShowsTheState := by
  unfold Obligations.StatusWordShowsTheState
  refine ⟨rfl, rfl, fun s => ?_⟩
  obtain ⟨hphase, hte, hbit, hfault⟩ := stWord_fields s
  obtain ⟨hvariant, hflags⟩ := stWord_flags s
  exact ⟨rfl, rfl, rfl, hphase, hvariant, hte, hbit, hfault, hflags⟩

end Sys2Proof.Machine
end

section
/-! What an edge can do to the registers and the output, said once: the outcomes of completing a bit
(43_field_assembler.md R160 to R170) and of the step of a phase (44_commands.md R198). -/

namespace Sys2Proof.Machine

/-- Opening a block sets its start to `prev` when it has none, whatever `prev` holds (10_state.md R25). -/
theorem openBlock_eq_getD (s : State) :
    s.openBlock = { s with blockStart := some (s.blockStart.getD s.prevBits) } := by
  obtain ⟨_, _, _, _, _, blockStart⟩ := s
  cases blockStart <;> rfl

@[simp] theorem openBlock_blockStartBits (s : State) :
    s.openBlock.blockStartBits = s.blockStart.getD s.prevBits := by simp [State.blockStartBits]

/-- The outcomes of completing the bit `b`, by its position (43_field_assembler.md R160). -/
inductive BitOutcome (b : Bool) (sb e : Sample) (s t : State) : Prop
  | accumulates (hpos : s.bitCount.toNat < 31 ∨ 32 ≤ s.bitCount.toNat ∧ s.bitCount.toNat < 59)
      (ht : t = { s with
        acc := setBit s.acc (accWidth s.bitCount.toNat) b
        bitCount := BitVec.ofNat 7 (s.bitCount.toNat + 1)
        pending := s.pending ++ [.ann ⟨.logicalBit, sb, e, valueOfBit b⟩] })
  | closesEnc (hpos : s.bitCount.toNat = 31)
      (ht : t = { s with
        acc := 0#32, cw := { s.cw with enc := setBit s.acc 31 b, popEnc := true }
        blockStart := none, bitCount := 32#7
        pending := s.pending ++
          [.ann ⟨.logicalBit, sb, e, valueOfBit b⟩, .ann ⟨.encBlock, s.blockStartBits, e, 0#32⟩,
           .ann ⟨.encValue, s.blockStartBits, e, setBit s.acc 31 b⟩] })
  | closesSer (hpos : s.bitCount.toNat = 59)
      (ht : t = { s with
        acc := 0#32
        cw := { s.cw with ser := BitVec.ofNat 28 (setBit s.acc 27 b).toNat, popSer := true }
        blockStart := none, bitCount := 60#7
        pending := s.pending ++
          [.ann ⟨.logicalBit, sb, e, valueOfBit b⟩, .ann ⟨.serBlock, s.blockStartBits, e, 0#32⟩,
           .ann ⟨.serValue, s.blockStartBits, e,
             BitVec.ofNat 32 ((setBit s.acc 27 b).toNat % 2 ^ 28)⟩] })
  | button (k : Nat) (hk : k ≤ 3) (hpos : s.bitCount.toNat = 60 + k)
      (ht : t = { s with
        cw := { s.cw with btn := setBit s.cw.btn k b }.setPopBtn k
        blockStart := if k = 3 then none else s.blockStart
        bitCount := BitVec.ofNat 7 (61 + k)
        pending := s.pending ++
          (.ann ⟨.logicalBit, sb, e, valueOfBit b⟩ ::
           .ann ⟨.buttonBit, sb, e, buttonValue k b⟩ ::
            if k = 3 then
              [.ann ⟨.buttonCode, s.blockStartBits, e, (setBit s.cw.btn k b).setWidth 32⟩]
            else []) })
  | lowBattery (hpos : s.bitCount.toNat = 64)
      (ht : t = { s with
        cw := { s.cw with lowbat := b, popLowbat := true }, blockStart := none, bitCount := 65#7
        pending := s.pending ++
          [.ann ⟨.logicalBit, sb, e, valueOfBit b⟩, .ann ⟨.vlowBlock, s.blockStartBits, e, 0#32⟩,
           .ann ⟨.vlowValue, sb, e, valueOfBit b⟩] })
  | completes (hpos : 65 ≤ s.bitCount.toNat)
      (ht : t = { s with
        cw := { s.cw with rpt := b, popRpt := true }
        blockStart := none, bitCount := 0#7, teCount := 0#6, phase := .preamble
        pending := s.pending ++
          [.ann ⟨.logicalBit, sb, e, valueOfBit b⟩, .ann ⟨.rptBlock, s.blockStartBits, e, 0#32⟩,
           .ann ⟨.rptValue, sb, e, valueOfBit b⟩,
           .cw (CodeWord.record { s.cw with rpt := b, popRpt := true })] })

/-- Every position from 65 on is treated as 65 (43_field_assembler.md R161; log 7). -/
theorem bitComplete_of_ge {s : State} (b : Bool) (sb e : Sample) (h : 65 ≤ s.bitCount.toNat) :
    bitComplete b sb e s = bitComplete b sb e { s with bitCount := 65#7 } := by
  have hrpt : ∀ t : State, assemble s.bitCount.toNat b sb e t = rptBit b sb e t := by
    intro t
    rw [assemble, if_neg (by omega), if_neg (by omega), if_neg (by omega), if_neg (by omega),
      if_neg (by omega)]
  rw [bitComplete, hrpt]
  rfl

theorem bitComplete_outcome (b : Bool) (sb e : Sample) (s : State) :
    BitOutcome b sb e s (bitComplete b sb e s) := by
  by_cases hlast : 65 ≤ s.bitCount.toNat
  · refine .completes hlast ?_
    rw [bitComplete_of_ge b sb e hlast, bitComplete_of_last b sb e rfl]
    rfl
  by_cases henc : s.bitCount.toNat ≤ 31
  · by_cases hclose : s.bitCount.toNat = 31
    · refine .closesEnc hclose ?_
      rw [bitComplete, assemble_of_enc henc, hclose, encBit_last, bitValue_eq]
      simp [State.blockStartBits]
    · refine .accumulates (by omega) ?_
      rw [bitComplete, assemble_of_enc henc, encBit_of_lt (by omega), bitValue_eq, accWidth,
        if_pos henc]
      rfl
  by_cases hser : s.bitCount.toNat ≤ 59
  · by_cases hclose : s.bitCount.toNat = 59
    · refine .closesSer hclose ?_
      rw [bitComplete, assemble_of_ser (by omega) hser, hclose, serBit_last, bitValue_eq]
      simp [State.blockStartBits]
    · refine .accumulates (by omega) ?_
      rw [bitComplete, assemble_of_ser (by omega) hser, serBit_of_lt (by omega), bitValue_eq,
        accWidth, if_neg henc, if_pos hser]
      rfl
  by_cases hbtn : s.bitCount.toNat ≤ 63
  · obtain ⟨k, hpos⟩ := Nat.exists_eq_add_of_le (show 60 ≤ s.bitCount.toNat by omega)
    have hk : k ≤ 3 := by omega
    refine .button k hk hpos ?_
    rw [bitComplete, hpos, assemble_of_btn hk, btnBit_eq, bitValue_eq]
    simp [State.blockStartBits]
  · have hpos : s.bitCount.toNat = 64 := by omega
    refine .lowBattery hpos ?_
    rw [bitComplete, hpos, assemble_of_vlow, vlowBit_eq, bitValue_eq]
    simp [State.blockStartBits]

/-- The outcomes of the step of a phase for an edge at `smp`; the edge has not become `prev` yet
(44_commands.md R198). -/
inductive PhaseOutcome (m : MatchVec) (smp : Sample) (s t : State) : Prop
  | restarts (hp : s.phase = .preamble ∨ s.phase = .header)
      (ht : t = { s with teCount := 0#6, blockStart := none, phase := .preamble })
  | counts (hp : s.phase = .preamble) (hte : s.teCount.toNat < max s.cfg.nStd s.cfg.nShort)
      (ht : t = { s with
        blockStart := some (s.blockStart.getD s.prevBits)
        teCount := BitVec.ofNat 6 (s.teCount.toNat + 1)
        pending := s.pending ++
          [.ann ⟨.teIndex, s.prevBits, smp, BitVec.ofNat 32 s.teCount.toNat⟩] })
  | completes (v : Variant) (hp : s.phase = .preamble)
      (hte : s.teCount.toNat + 1 = threshold s.cfg v)
      (ht : t = { s with
        blockStart := some (s.blockStart.getD s.prevBits)
        teCount := BitVec.ofNat 6 (threshold s.cfg v + 1), variant := v, phase := .header
        pending := s.pending ++
          [.ann ⟨.teIndex, s.prevBits, smp, BitVec.ofNat 32 s.teCount.toNat⟩,
           .ann ⟨.preamble, s.blockStart.getD s.prevBits, smp, v.code.setWidth 32⟩] })
  | gap (hp : s.phase = .header)
      (ht : t = { s with
        teCount := 0#6, blockStart := none, phase := .data, bitCount := 0#7, acc := 0#32
        cw := .empty
        pending := s.pending ++ [.ann ⟨.header, s.prevBits, smp, 0#32⟩] })
  | invalid (hp : s.phase = .data) (hm : resolveBit m = none)
      (ht : t = { s with
        acc := 0#32, cw := .empty, blockStart := none, bitCount := 0#7, teCount := 0#6
        phase := .preamble
        pending := s.pending ++ [.ann ⟨.invalidBit, s.prevBits, smp, 0#32⟩] })
  | waits (b : Bool) (hp : s.phase = .data) (hpos : s.bitCount ≠ 65#7)
      (ht : t = { s with
        blockStart := some (s.blockStart.getD s.prevBits), bitStart := s.prevBits, pendBit := b
        phase := .dataEnd })
  | last (b : Bool) (hp : s.phase = .data) (hpos : s.bitCount = 65#7) (hm : resolveBit m = some b)
      (ht : BitOutcome b s.prevBits (padEnd s.cfg.sampleW smp s.lastBitPad) s.openBlock t)
  | ends (hp : s.phase = .dataEnd)
      (ht : BitOutcome s.pendBit s.bitStart smp { s with phase := .data } t)

/-- A pulse, qualifying or not (41_preamble_header.md R120 to R123). -/
theorem preStep_outcome (m : MatchVec) (smp : Sample) {s : State} (hp : s.phase = .preamble) :
    PhaseOutcome m smp s (preStep m smp s) := by
  have hcount : pulseCount smp s = { s with
      blockStart := some (s.blockStart.getD s.prevBits)
      teCount := BitVec.ofNat 6 (s.teCount.toNat + 1)
      pending := s.pending ++
        [.ann ⟨.teIndex, s.prevBits, smp, BitVec.ofNat 32 s.teCount.toNat⟩] } := by
    rw [pulseCount, openBlock_eq_getD]
    rfl
  unfold preStep
  generalize overlap s.cfg.overlap m = matched
  obtain ⟨ms, md⟩ := matched
  dsimp only
  split
  · next hq =>
    rw [qualifies_iff] at hq
    by_cases hshort : ms ∧ s.teCount.toNat + 1 = s.cfg.nShort
    · refine .completes .short hp hshort.2 ?_
      rw [pulse_of_short_threshold md smp hshort, hcount, hshort.2]
      simp [pulseComplete, State.emit, State.blockStartBits, threshold]
    · by_cases hstd : md ∧ s.teCount.toNat + 1 = s.cfg.nStd
      · refine .completes .std hp hstd.2 ?_
        rw [pulse_of_std_threshold smp hshort hstd, hcount, hstd.2]
        simp [pulseComplete, State.emit, State.blockStartBits, threshold]
      · refine .counts hp ?_ ((pulse_of_no_threshold smp hshort hstd).trans hcount)
        obtain ⟨-, hlt⟩ | ⟨-, hlt⟩ := hq <;> omega
  · exact .restarts (.inl hp) rfl

theorem hdrStep_outcome (m : MatchVec) (smp : Sample) {s : State} (hp : s.phase = .header) :
    PhaseOutcome m smp s (hdrStep m smp s) := by
  unfold hdrStep
  split
  · exact .gap hp rfl
  · exact .restarts (.inr hp) rfl

theorem bitMeasure_outcome (m : MatchVec) (smp : Sample) {s : State} (hp : s.phase = .data) :
    PhaseOutcome m smp s (bitMeasure m smp s) := by
  unfold bitMeasure
  split
  · next hm => exact .invalid hp hm rfl
  · next b hm =>
    dsimp only
    split
    · next hpos =>
      refine .last b hp hpos hm ?_
      have hlast := bitComplete_outcome b s.prevBits (padEnd s.cfg.sampleW smp s.lastBitPad) s.openBlock
      simpa [lastBit, State.prevBits] using hlast
    · next hpos =>
      refine .waits b hp hpos ?_
      rw [openBlock_eq_getD]
      rfl

/-- Everything the step of a phase can do. -/
theorem phaseStep_outcome (m : MatchVec) (smp : Sample) {s : State} (h : s.phase.timed) :
    PhaseOutcome m smp s (phaseStep m smp s) := by
  rcases h with hp | hp | hp | hp
  all_goals simp only [phaseStep, hp]
  · exact preStep_outcome m smp hp
  · exact hdrStep_outcome m smp hp
  · exact bitMeasure_outcome m smp hp
  · exact .ends hp (bitComplete_outcome _ _ _ _)

end Sys2Proof.Machine
end

section
/-! The invariants of the registers: what it takes for every step to keep one, and the three of the decoder. -/

namespace Sys2Proof.Machine

/-- The registers alone: the host's side, the waiting records and the delivered ones as in the reset state. -/
def State.registers (s : State) : State :=
  { s with pins := State.reset.pins, pinsAhead := [], cmdIn := [], pending := [], delivered := [] }

@[simp] theorem tick_registers (s : State) : s.tick.registers = s.registers := by
  rw [tick_eq]; rfl

/-- A statement about the registers is kept by every step when the reset pin and every command keep it: what
else a step does is on the host's side. -/
theorem step_keeps {I : State → Prop} (hreads : ∀ s, I s ↔ I s.registers)
    (hreset : ∀ s, I s → I s.hardReset)
    (hexec : ∀ i s t, I s → exec i s = .next t → I t) {s t : State} (hs : I s)
    (h : step s = .next t) : I t := by
  have hkeep : ∀ u v : State, v.registers = u.registers → I u → I v := fun u v huv hu => by
    rw [hreads, huv, ← hreads]
    exact hu
  have htick : ∀ u : State, I u → I u.tick := fun u => hkeep u u.tick (tick_registers u)
  rcases step_cases s with ⟨-, he⟩ | ⟨-, o, os, -, ⟨-, he⟩ | ⟨-, he⟩⟩ | ⟨-, -, -, he⟩ |
    ⟨-, w, ws, -, he⟩
  · cases h.symm.trans he
    exact htick _ (hreset s hs)
  · cases h.symm.trans he
    exact htick _ (hkeep s (s.deliver o os) rfl hs)
  · cases h.symm.trans he
    exact htick s hs
  · cases h.symm.trans he
    exact htick s hs
  · exact hexec _ _ _ (htick _ (hkeep s (s.accept ws) rfl hs)) (he.symm.trans h)

/-- The registers of the decoder (10_state.md R21 to R29) with the parameters, all else as in the reset state. -/
def State.decoder (s : State) : State :=
  { State.reset with
    cfg := s.cfg, phase := s.phase, teCount := s.teCount, variant := s.variant
    bitCount := s.bitCount, blockStart := s.blockStart, prev := s.prev, bitStart := s.bitStart
    pendBit := s.pendBit, acc := s.acc, cw := s.cw }

/-- What a statement about the decoder's registers must be kept by: the two commands that clear them, END, the
anchor, and the step of a phase. -/
structure DecoderInvariant (I : State → Prop) : Prop where
  reads (s : State) : I s ↔ I s.decoder
  clear {s : State} : I s → I s.clearDecoder
  start {s : State} : I s → I { s.clearDecoder with phase := .anchor }
  idle {s : State} : I s → I { s with phase := .idle }
  anchor {s : State} {smp : Sample} : I s → s.phase = .anchor → smp.toNat < 2 ^ s.cfg.sampleW →
    I { s with prev := some smp, phase := .preamble }
  edge {s t : State} {m : MatchVec} {smp : Sample} : I s → s.phase.timed →
    smp.toNat < 2 ^ s.cfg.sampleW → s.prevBits.toNat < smp.toNat → PhaseOutcome m smp s t →
    I { t with prev := some smp }

theorem DecoderInvariant.of_decoder_eq {I : State → Prop} (hI : DecoderInvariant I) {s t : State}
    (h : t.decoder = s.decoder) (hs : I s) : I t := by
  rw [hI.reads, h, ← hI.reads]
  exact hs

/-- Every command keeps a decoder invariant: the other ones, and those that fault, leave the decoder alone. -/
theorem DecoderInvariant.exec {I : State → Prop} (hI : DecoderInvariant I) {i : Instr} {s t : State}
    (hs : I s) (h : exec i s = .next t) : I t := by
  obtain rfl : effect i s = t := (exec_next_iff i s t).mp h
  have hsame : ∀ u : State, u.decoder = s.decoder → I u := fun _ hu => hI.of_decoder_eq hu hs
  rcases effect_cases i s with ⟨-, -, -, he⟩ | ⟨-, -, he⟩ | ⟨-, -, he⟩ | ⟨-, -, he⟩ | ⟨-, -, he⟩ |
    ⟨-, -, ⟨-, he⟩ | ⟨-, he⟩⟩ | ⟨-, -, -, -, -, ⟨-, he⟩ | ⟨-, _, _, he⟩⟩ |
    ⟨sub, smp, -, rfl, hlegal, hedge⟩
  · exact hI.of_decoder_eq (by rw [he]; rfl) (hI.clear hs)
  · exact hsame _ (by rw [he])
  · exact hsame _ (by rw [he]; rfl)
  · exact hsame _ (by rw [he])
  · rw [he]; exact hI.idle hs
  · exact hsame _ (by rw [he]; rfl)
  · exact hI.of_decoder_eq (by simp [he, State.decoder]) (hI.start hs)
  · exact hsame _ (by rw [he]; rfl)
  · exact hsame _ (by rw [he]; rfl)
  · have hsmp : smp.toNat < 2 ^ s.cfg.sampleW := by
      simp only [Instr.illegal] at hlegal
      omega
    rcases hedge with ⟨-, he⟩ | ⟨hp, he | he⟩ | ⟨-, -, he⟩ | ⟨hp, hlt, he⟩
    · exact hsame _ (by rw [he])
    · exact hsame _ (by rw [he])
    · rw [he]; exact hI.anchor hs hp hsmp
    · exact hsame _ (by rw [he]; rfl)
    · rw [he]; exact hI.edge hs hp hsmp hlt (phaseStep_outcome _ smp hp)

theorem DecoderInvariant.step {I : State → Prop} (hI : DecoderInvariant I) {s t : State}
    (hs : I s) (h : step s = .next t) : I t :=
  step_keeps (fun s => (hI.reads s).trans (hI.reads s.registers).symm)
    (fun s hs => hI.of_decoder_eq (s := s.clearDecoder) rfl (hI.clear hs)) (fun _ _ _ => hI.exec) hs h

/-! ### The invariant of the phases (10_state.md R21 to R26), phase by phase. -/

theorem PhaseInv.wf {s : State} (h : PhaseInv s) : s.cfg.wf := by
  obtain ⟨⟨hwf, -⟩, -⟩ := h
  exact hwf

theorem phaseInv_idle_iff {s : State} (hp : s.phase = .idle) :
    PhaseInv s ↔ s.cfg.wf ∧ s.bitCount.toNat ≤ 65 ∧
      s.teCount.toNat ≤ max s.cfg.nStd s.cfg.nShort + 1 := by
  simp [PhaseInv, CounterInv, BlockInv, hp]

theorem phaseInv_anchor_iff {s : State} (hp : s.phase = .anchor) :
    PhaseInv s ↔ s.cfg.wf ∧ s.teCount = 0#6 ∧ s.bitCount = 0#7 ∧ s.prev = none ∧
      s.blockStart = none := by
  simp only [PhaseInv, CounterInv, BlockInv, hp]
  grind

theorem phaseInv_preamble_iff {s : State} (hp : s.phase = .preamble) :
    PhaseInv s ↔ s.cfg.wf ∧ s.teCount.toNat ≤ max s.cfg.nStd s.cfg.nShort ∧ s.bitCount = 0#7 ∧
      s.prev ≠ none ∧ (s.blockStart = none ↔ s.teCount = 0#6) := by
  simp only [PhaseInv, CounterInv, BlockInv, hp]
  grind

theorem threshold_le_max (c : Params) (v : Variant) : threshold c v ≤ max c.nStd c.nShort := by
  cases v
  · exact Nat.le_max_left _ _
  · exact Nat.le_max_right _ _

theorem phaseInv_header_iff {s : State} (hp : s.phase = .header) :
    PhaseInv s ↔ s.cfg.wf ∧ s.teCount.toNat = threshold s.cfg s.variant + 1 ∧ s.bitCount = 0#7 ∧
      s.prev ≠ none ∧ s.blockStart ≠ none := by
  have hmax := threshold_le_max s.cfg s.variant
  simp only [PhaseInv, CounterInv, BlockInv, hp]
  grind

theorem phaseInv_data_iff {s : State} (hp : s.phase = .data) :
    PhaseInv s ↔ s.cfg.wf ∧ s.teCount = 0#6 ∧ s.bitCount.toNat ≤ 65 ∧ s.prev ≠ none ∧
      (s.blockStart = none ↔ fieldStart s.bitCount.toNat) := by
  simp only [PhaseInv, CounterInv, BlockInv, hp]
  grind

theorem phaseInv_dataEnd_iff {s : State} (hp : s.phase = .dataEnd) :
    PhaseInv s ↔ s.cfg.wf ∧ s.teCount = 0#6 ∧ s.bitCount.toNat < 65 ∧ s.prev ≠ none ∧
      s.blockStart ≠ none := by
  simp only [PhaseInv, CounterInv, BlockInv, hp]
  grind

theorem threshold_le_of_wf {c : Params} (hwf : c.wf) (v : Variant) : threshold c v ≤ 62 := by
  obtain ⟨-, -, -, -, -, hstd, hshort, -⟩ := hwf
  exact (threshold_le_max c v).trans (max_le hstd hshort)

/-- Completing a bit moves to the next position with the block open exactly inside a field, or to PREAMBLE. -/
theorem BitOutcome.phaseInv {b : Bool} {sb e smp : Sample} {s t : State} (h : BitOutcome b sb e s t)
    (hp : s.phase = .data) (hwf : s.cfg.wf) (hte : s.teCount = 0#6)
    (hblock : s.blockStart ≠ none) : PhaseInv { t with prev := some smp } := by
  cases h with
  | accumulates hpos ht =>
    subst ht
    refine Iff.mpr (phaseInv_data_iff hp) ?_
    have hnext : (BitVec.ofNat 7 (s.bitCount.toNat + 1)).toNat = s.bitCount.toNat + 1 :=
      Nat.mod_eq_of_lt (by omega)
    refine ⟨hwf, hte, ?_, by simp, ?_⟩
    · dsimp only
      omega
    · simp only [hnext, hblock, false_iff, fieldStart]
      omega
  | closesEnc hpos ht | closesSer hpos ht | lowBattery hpos ht =>
    subst ht
    refine Iff.mpr (phaseInv_data_iff hp) ?_
    exact ⟨hwf, hte, by simp, by simp, by simp [fieldStart]⟩
  | button k hk hpos ht =>
    subst ht
    refine Iff.mpr (phaseInv_data_iff hp) ?_
    have hnext : (BitVec.ofNat 7 (61 + k)).toNat = 61 + k := Nat.mod_eq_of_lt (by omega)
    refine ⟨hwf, hte, ?_, by simp, ?_⟩
    · dsimp only
      omega
    · by_cases hlast : k = 3
      · simp [hlast, fieldStart]
      · simp only [hnext, fieldStart, if_neg hlast, hblock, false_iff]
        omega
  | completes hpos ht =>
    subst ht
    refine Iff.mpr (phaseInv_preamble_iff rfl) ?_
    exact ⟨hwf, Nat.zero_le _, rfl, by simp, by simp⟩

theorem phaseInv_edge {m : MatchVec} {smp : Sample} {s t : State} (hs : PhaseInv s)
    (h : PhaseOutcome m smp s t) : PhaseInv { t with prev := some smp } := by
  have hwf := hs.wf
  have ⟨_, _, _, _, _, hstd, hshort, _⟩ := hwf
  cases h with
  | restarts hp ht =>
    subst ht
    refine Iff.mpr (phaseInv_preamble_iff rfl) ?_
    have hbit : s.bitCount = 0#7 := by
      rcases hp with hp | hp
      · obtain ⟨-, -, hbit, -⟩ := (phaseInv_preamble_iff hp).mp hs
        exact hbit
      · obtain ⟨-, -, hbit, -⟩ := (phaseInv_header_iff hp).mp hs
        exact hbit
    exact ⟨hwf, Nat.zero_le _, hbit, by simp, by simp⟩
  | counts hp hte ht =>
    subst ht
    obtain ⟨-, -, hbit, -, -⟩ := (phaseInv_preamble_iff hp).mp hs
    have hnext : (BitVec.ofNat 6 (s.teCount.toNat + 1)).toNat = s.teCount.toNat + 1 :=
      Nat.mod_eq_of_lt (by omega)
    refine Iff.mpr (phaseInv_preamble_iff hp) ?_
    refine ⟨hwf, by dsimp only; omega, hbit, by simp, ?_⟩
    simp [← BitVec.toNat_inj, hnext]
  | completes v hp hte ht =>
    subst ht
    obtain ⟨-, -, hbit, -, -⟩ := (phaseInv_preamble_iff hp).mp hs
    have hle := threshold_le_of_wf hwf v
    refine Iff.mpr (phaseInv_header_iff rfl) ?_
    exact ⟨hwf, Nat.mod_eq_of_lt (by omega), hbit, by simp, by simp⟩
  | gap hp ht =>
    subst ht
    refine Iff.mpr (phaseInv_data_iff rfl) ?_
    exact ⟨hwf, rfl, Nat.zero_le _, by simp, by simp [fieldStart]⟩
  | invalid hp hm ht =>
    subst ht
    refine Iff.mpr (phaseInv_preamble_iff rfl) ?_
    exact ⟨hwf, Nat.zero_le _, rfl, by simp, by simp⟩
  | waits b hp hpos ht =>
    subst ht
    obtain ⟨-, hte, hbit, -, -⟩ := (phaseInv_data_iff hp).mp hs
    have hlt : s.bitCount.toNat < 65 :=
      lt_of_le_of_ne hbit fun heq => hpos (BitVec.eq_of_toNat_eq heq)
    refine Iff.mpr (phaseInv_dataEnd_iff rfl) ?_
    exact ⟨hwf, hte, hlt, by simp, by simp⟩
  | last b hp hpos hm ht =>
    obtain ⟨-, hte, -⟩ := (phaseInv_data_iff hp).mp hs
    exact ht.phaseInv (by simpa) (by simpa) (by simpa) (by simp)
  | ends hp ht =>
    obtain ⟨-, hte, -, -, hblock⟩ := (phaseInv_dataEnd_iff hp).mp hs
    exact ht.phaseInv rfl hwf hte hblock

theorem phaseInv_decoderInvariant : DecoderInvariant PhaseInv where
  reads _ := Iff.rfl
  clear {s} hs := Iff.mpr (phaseInv_idle_iff rfl) ⟨hs.wf, by simp, by simp⟩
  start {s} hs := Iff.mpr (phaseInv_anchor_iff rfl) ⟨hs.wf, rfl, rfl, rfl, rfl⟩
  idle {s} hs := by
    obtain ⟨⟨hwf, hbit, hte, -⟩, -⟩ := hs
    exact Iff.mpr (phaseInv_idle_iff rfl) ⟨hwf, hbit, hte⟩
  anchor {s smp} hs hp _ := by
    obtain ⟨hwf, hte, hbit, -, hblock⟩ := (phaseInv_anchor_iff hp).mp hs
    exact Iff.mpr (phaseInv_preamble_iff rfl) ⟨hwf, by simp [hte], hbit, by simp, by simp [hte, hblock]⟩
  edge hs _ _ _ h := phaseInv_edge hs h

/-- Settles O50, by the outcomes of an edge; nothing else moves the decoder but for clearing it, the anchor and
END. -/
theorem phaseInvariantIsKept : Obligations.PhaseInvariantIsKept := by
  unfold Obligations.PhaseInvariantIsKept
  intro s t
  exact phaseInv_decoderInvariant.step

end Sys2Proof.Machine
end

section
/-! The invariants of the sample registers, of the code word, and of the session: what an edge, which is all that
moves them, leaves them at. -/

namespace Sys2Proof.Machine

/-! ### The sample registers (10_state.md R25 to R27) -/

/-- Completing a bit closes the block or leaves it, and writes no other sample register. -/
theorem BitOutcome.sampleRegisters {b : Bool} {sb e : Sample} {s t : State}
    (h : BitOutcome b sb e s t) :
    t.cfg = s.cfg ∧ t.bitStart = s.bitStart ∧ (t.blockStart = s.blockStart ∨ t.blockStart = none) ∧
      (t.phase = s.phase ∨ t.phase = .preamble) := by
  cases h with
  | accumulates hpos ht | closesEnc hpos ht | closesSer hpos ht | lowBattery hpos ht
  | completes hpos ht => simp [ht]
  | button k hk hpos ht =>
    subst ht
    exact ⟨rfl, rfl, (ite_eq_or_eq _ _ _).symm, .inl rfl⟩

/-- The starts held are not after the last edge, whether or not a block is open. -/
theorem SpanInv.starts_le {s : State} (h : SpanInv s) :
    s.bitStart.toNat ≤ s.prevBits.toNat ∧ s.blockStartBits.toNat ≤ s.prevBits.toNat ∧
      (s.blockStart.getD s.prevBits).toNat ≤ s.prevBits.toNat := by
  obtain ⟨-, -, -, -, -, hbit, hblock, -, -⟩ := h
  cases hb : s.blockStart with
  | none => simp [State.blockStartBits, hb, hbit]
  | some bs =>
    have hlt := hblock (by simp [hb])
    simp only [State.blockStartBits, hb, Option.getD_some] at hlt ⊢
    omega

/-- An edge that is after the starts held becomes `prev`. -/
theorem spanInv_after_edge {t : State} {smp : Sample} (hw : t.cfg.sampleW ≤ 64)
    (hsmp : smp.toNat < 2 ^ t.cfg.sampleW) (hblock : t.blockStartBits.toNat < smp.toNat)
    (hbit : t.bitStart.toNat < smp.toNat) (hanchor : t.phase ≠ .anchor)
    (hend : t.phase = .dataEnd → t.blockStartBits.toNat ≤ t.bitStart.toNat) :
    SpanInv { t with prev := some smp } :=
  ⟨hw, hsmp, hblock.trans hsmp, hbit.trans hsmp, nofun, hbit.le,
    fun _ => hblock, fun h => absurd h hanchor, hend⟩

/-- A bit completed at an edge after the starts held leaves them before it. -/
theorem BitOutcome.spanInv {b : Bool} {sb e smp : Sample} {s t : State} (h : BitOutcome b sb e s t)
    (hp : s.phase = .data) (hw : s.cfg.sampleW ≤ 64) (hsmp : smp.toNat < 2 ^ s.cfg.sampleW)
    (hblock : s.blockStartBits.toNat < smp.toNat) (hbit : s.bitStart.toNat < smp.toNat) :
    SpanInv { t with prev := some smp } := by
  obtain ⟨hcfg, hstart, hopen, hphase⟩ := h.sampleRegisters
  rw [hp] at hphase
  refine spanInv_after_edge (hcfg ▸ hw) (hcfg ▸ hsmp) ?_ (hstart ▸ hbit) ?_ ?_
  · rcases hopen with hopen | hopen
    · rwa [State.blockStartBits, hopen]
    · rw [State.blockStartBits, hopen]
      exact Nat.zero_lt_of_lt hblock
  · rcases hphase with hphase | hphase <;> simp [hphase]
  · rcases hphase with hphase | hphase <;> simp [hphase]

theorem spanInv_edge {m : MatchVec} {smp : Sample} {s t : State} (hs : SpanInv s)
    (hsmp : smp.toNat < 2 ^ s.cfg.sampleW) (hlt : s.prevBits.toNat < smp.toNat)
    (h : PhaseOutcome m smp s t) : SpanInv { t with prev := some smp } := by
  obtain ⟨hbit, hblock, hopen⟩ := hs.starts_le
  have hw : s.cfg.sampleW ≤ 64 := hs.1
  cases h with
  | restarts hp ht | gap hp ht | invalid hp hm ht =>
    subst ht
    exact spanInv_after_edge hw hsmp (Nat.zero_lt_of_lt hlt) (hbit.trans_lt hlt) nofun nofun
  | counts hp hte ht =>
    subst ht
    exact spanInv_after_edge hw hsmp (hopen.trans_lt hlt) (hbit.trans_lt hlt) (by simp [hp])
      (by simp [hp])
  | completes v hp hte ht =>
    subst ht
    exact spanInv_after_edge hw hsmp (hopen.trans_lt hlt) (hbit.trans_lt hlt) nofun nofun
  | waits b hp hpos ht =>
    subst ht
    exact spanInv_after_edge hw hsmp (hopen.trans_lt hlt) hlt nofun fun _ => hopen
  | last b hp hpos hm ht =>
    exact ht.spanInv (by simpa) (by simpa) (by simpa) (by simpa using hopen.trans_lt hlt)
      (by simpa using hbit.trans_lt hlt)
  | ends hp ht => exact ht.spanInv rfl hw hsmp (hblock.trans_lt hlt) (hbit.trans_lt hlt)

theorem spanInv_decoderInvariant : DecoderInvariant SpanInv where
  reads _ := Iff.rfl
  clear {s} hs := ⟨hs.1, by simp [State.prevBits], by simp [State.blockStartBits], by simp, by simp,
    by simp, by simp, by simp, by simp⟩
  start {s} hs := ⟨hs.1, by simp [State.prevBits], by simp [State.blockStartBits], by simp, by simp,
    by simp, by simp, by simp, nofun⟩
  idle {s} hs := by
    obtain ⟨hw, hprev, hblock, hbit, hnone, hle, hlt, -, -⟩ := hs
    exact ⟨hw, hprev, hblock, hbit, hnone, hle, hlt, nofun, nofun⟩
  anchor {s smp} hs hp hsmp := by
    obtain ⟨hw, -, hblock, hbit, hnone, -, -, hanchor, -⟩ := hs
    obtain ⟨hb, hst⟩ := hnone (hanchor hp)
    exact ⟨hw, hsmp, hblock, hbit, nofun, by simp [hst], by simp [hb], nofun, nofun⟩
  edge hs _ hsmp hlt h := spanInv_edge hs hsmp hlt h

/-- Settles O51, by the outcomes of an edge: a start they set is the edge before, and the edge itself becomes
`prev`. -/
theorem spanInvariantIsKept : Obligations.SpanInvariantIsKept := by
  unfold Obligations.SpanInvariantIsKept
  intro s t
  exact spanInv_decoderInvariant.step

/-! ### The code word under way (10_state.md R28, R29) -/

theorem wordInv_anchor_iff {s : State} (hp : s.phase = .anchor) :
    WordInv s ↔ s.acc = 0#32 ∧ s.cw = .empty := by
  simp [WordInv, hp]

theorem wordInv_search_iff {s : State} (hp : s.phase = .preamble ∨ s.phase = .header) :
    WordInv s ↔ s.acc = 0#32 ∧ (s.cw = .empty ∨ s.cw.popAll true = true) := by
  rcases hp with hp | hp <;> simp [WordInv, hp]

theorem wordInv_portion_iff {s : State} (hp : s.phase = .data ∨ s.phase = .dataEnd) :
    WordInv s ↔ s.acc.toNat < 2 ^ accWidth s.bitCount.toNat ∧ popsBelow s.cw s.bitCount.toNat := by
  rcases hp with hp | hp <;> simp [WordInv, hp]

/-- The populated flags do not change between two positions with no position of a flag between them. -/
theorem popsBelow_succ {c : CodeWord} {p : Nat} (hp : p < 31 ∨ 32 ≤ p ∧ p < 59)
    (h : popsBelow c p) : popsBelow c (p + 1) := by
  obtain ⟨henc, hser, hs3, hs0, hs1, hs2, hlow, hrpt⟩ := h
  refine ⟨henc.trans ?_, hser.trans ?_, hs3.trans ?_, hs0.trans ?_, hs1.trans ?_, hs2.trans ?_,
    hlow.trans ?_, hrpt⟩
  all_goals
    rw [decide_eq_decide]
    omega

theorem accWidth_succ {p : Nat} (hp : p < 31 ∨ 32 ≤ p ∧ p < 59) :
    accWidth (p + 1) = accWidth p + 1 := by
  unfold accWidth
  grind

/-- Outside the two multi-bit fields the accumulator is empty. -/
theorem acc_eq_zero_of_lt {a : Word32} {p : Nat} (hp : 60 ≤ p) (h : a.toNat < 2 ^ accWidth p) :
    a = 0#32 := by
  have hwidth : accWidth p = 0 := by grind
  rw [hwidth] at h
  exact BitVec.eq_of_toNat_eq (Nat.lt_one_iff.mp h)

/-- Completing a bit keeps the accumulator to the field under way, and sets the flag of a field it closes. -/
theorem BitOutcome.wordInv {b : Bool} {sb e smp : Sample} {s t : State} (h : BitOutcome b sb e s t)
    (hp : s.phase = .data) (hpos : s.bitCount.toNat ≤ 65)
    (hacc : s.acc.toNat < 2 ^ accWidth s.bitCount.toNat) (hpops : popsBelow s.cw s.bitCount.toNat) :
    WordInv { t with prev := some smp } := by
  cases h with
  | accumulates hfield ht =>
    subst ht
    have hnext : (BitVec.ofNat 7 (s.bitCount.toNat + 1)).toNat = s.bitCount.toNat + 1 :=
      Nat.mod_eq_of_lt (by omega)
    refine Iff.mpr (wordInv_portion_iff (.inl hp)) ⟨?_, ?_⟩
    · simp only [hnext, accWidth_succ hfield]
      exact setBit_toNat_lt _ _ _ hacc
    · simp only [hnext]
      exact popsBelow_succ hfield hpops
  | closesEnc hlast ht | closesSer hlast ht =>
    subst ht
    rw [hlast] at hpops
    refine Iff.mpr (wordInv_portion_iff (.inl hp)) ⟨Nat.two_pow_pos _, ?_⟩
    simp_all [popsBelow]
  | button k hk hbit ht =>
    subst ht
    have hzero := acc_eq_zero_of_lt (by omega) hacc
    rw [hbit] at hpops
    refine Iff.mpr (wordInv_portion_iff (.inl hp)) ⟨hzero ▸ Nat.two_pow_pos _, ?_⟩
    simp only [setPopBtn_eq _ hk]
    interval_cases k <;> simp_all [popsBelow]
  | lowBattery hbit ht =>
    subst ht
    have hzero := acc_eq_zero_of_lt (by omega) hacc
    rw [hbit] at hpops
    refine Iff.mpr (wordInv_portion_iff (.inl hp)) ⟨by simp [hzero], ?_⟩
    simp_all [popsBelow]
  | completes hlast ht =>
    subst ht
    have hzero := acc_eq_zero_of_lt (by omega) hacc
    have hbit : s.bitCount.toNat = 65 := by omega
    rw [hbit] at hpops
    refine Iff.mpr (wordInv_search_iff (.inl rfl)) ⟨hzero, .inr ?_⟩
    simp_all [popsBelow, CodeWord.popAll]

theorem wordInv_edge {m : MatchVec} {smp : Sample} {s t : State} (hphase : PhaseInv s)
    (hs : WordInv s) (h : PhaseOutcome m smp s t) : WordInv { t with prev := some smp } := by
  cases h with
  | restarts hp ht =>
    subst ht
    exact Iff.mpr (wordInv_search_iff (.inl rfl)) ((wordInv_search_iff hp).mp hs)
  | counts hp hte ht =>
    subst ht
    exact Iff.mpr (wordInv_search_iff (.inl hp)) ((wordInv_search_iff (.inl hp)).mp hs)
  | completes v hp hte ht =>
    subst ht
    exact Iff.mpr (wordInv_search_iff (.inr rfl)) ((wordInv_search_iff (.inl hp)).mp hs)
  | gap hp ht =>
    subst ht
    exact Iff.mpr (wordInv_portion_iff (.inl rfl)) (by simp [popsBelow, CodeWord.empty])
  | invalid hp hm ht =>
    subst ht
    exact Iff.mpr (wordInv_search_iff (.inl rfl)) ⟨rfl, .inl rfl⟩
  | waits b hp hpos ht =>
    subst ht
    exact Iff.mpr (wordInv_portion_iff (.inr rfl)) ((wordInv_portion_iff (.inl hp)).mp hs)
  | last b hp hpos hm ht =>
    obtain ⟨-, -, hle, -, -⟩ := (phaseInv_data_iff hp).mp hphase
    obtain ⟨hacc, hpops⟩ := (wordInv_portion_iff (.inl hp)).mp hs
    exact ht.wordInv (by simpa) (by simpa) (by simpa only [openBlock_acc, openBlock_bitCount])
      (by simpa only [openBlock_cw, openBlock_bitCount])
  | ends hp ht =>
    obtain ⟨-, -, hlt, -, -⟩ := (phaseInv_dataEnd_iff hp).mp hphase
    obtain ⟨hacc, hpops⟩ := (wordInv_portion_iff (.inr hp)).mp hs
    exact ht.wordInv rfl hlt.le hacc hpops

/-- The invariant of the code word rests on that of the phases. -/
theorem wordInv_decoderInvariant : DecoderInvariant fun s => PhaseInv s ∧ WordInv s where
  reads _ := Iff.rfl
  clear {s} hs := ⟨phaseInv_decoderInvariant.clear hs.1, by simp [WordInv]⟩
  start {s} hs := ⟨phaseInv_decoderInvariant.start hs.1, Iff.mpr (wordInv_anchor_iff rfl) ⟨rfl, rfl⟩⟩
  idle {s} hs := ⟨phaseInv_decoderInvariant.idle hs.1, by simp [WordInv]⟩
  anchor {s smp} hs hp hsmp := by
    obtain ⟨hacc, hcw⟩ := (wordInv_anchor_iff hp).mp hs.2
    exact ⟨phaseInv_decoderInvariant.anchor hs.1 hp hsmp,
      Iff.mpr (wordInv_search_iff (.inl rfl)) ⟨hacc, .inl hcw⟩⟩
  edge hs _ _ _ h := ⟨phaseInv_edge hs.1 h, wordInv_edge hs.1 hs.2 h⟩

/-- Settles O52, by the outcomes of an edge, at the positions that the invariant of the phases allows. -/
theorem wordInvariantIsKept : Obligations.WordInvariantIsKept := by
  unfold Obligations.WordInvariantIsKept
  intro s t hphase hword h
  exact (wordInv_decoderInvariant.step ⟨hphase, hword⟩ h).2

end Sys2Proof.Machine
end

section
/-! The invariants of the session and of the fault record (10_state.md R32, R33). -/

namespace Sys2Proof.Machine

/-- The upper half of a fault's information is the opcode (10_state.md R33). -/
theorem opSub_op (i : Instr) : (opSub i).extractLsb' 4 4 = i.op := by
  apply BitVec.eq_of_toNat_eq
  have hop := i.op.isLt
  have hsub := i.sub.isLt
  rw [field_toNat, opSub, append_toNat]
  omega

theorem opSub_of_sub_lt_two {i : Instr} (h : i.sub.toNat < 2) :
    opSub i = i.op ++ 0#4 ∨ opSub i = i.op ++ 1#4 := by
  rcases (sub_lt_two_iff i.sub).mp h with hsub | hsub <;> simp [opSub, hsub]

theorem phaseStep_faultInfo (m : MatchVec) (smp : Sample) (s : State) :
    (phaseStep m smp s).faultInfo = s.faultInfo := by
  have hc := phaseStep_control m smp s
  simp only [State.control, Prod.mk.injEq] at hc
  obtain ⟨-, -, -, -, -, hinfo, -⟩ := hc
  exact hinfo

/-- What a command can leave in the fault record: the record before, an empty one, or that of a fault with its
cause (60_exceptions.md R220 to R224). -/
theorem exec_fault_cases {i : Instr} {s t : State} (h : exec i s = .next t) :
    t.faultCode = s.faultCode ∧ t.faultInfo = s.faultInfo ∨
      t.faultCode = .noFault ∧ t.faultInfo = 0#8 ∨
      t.faultCode.causedBy i s ∧ t.faultInfo = opSub i := by
  obtain rfl : effect i s = t := (exec_next_iff i s t).mp h
  rcases effect_cases i s with ⟨-, -, -, he⟩ | ⟨-, -, he⟩ | ⟨-, hill, he⟩ | ⟨-, -, he⟩ | ⟨-, -, he⟩ |
    ⟨-, hi, ⟨hrate, he⟩ | ⟨-, he⟩⟩ | ⟨sub, payload, -, hi, hleg, ⟨hp, he⟩ | ⟨-, _, _, he⟩⟩ |
    ⟨sub, smp, -, hi, hleg, ⟨-, he⟩ | ⟨-, he | he⟩ | ⟨hp, hle, he⟩ | ⟨-, -, he⟩⟩
  all_goals rw [he]
  · exact .inr (.inl ⟨rfl, rfl⟩)
  · exact .inl ⟨rfl, rfl⟩
  · exact .inr (.inr ⟨hill, rfl⟩)
  · exact .inl ⟨rfl, rfl⟩
  · exact .inl ⟨rfl, rfl⟩
  · exact .inr (.inr ⟨⟨hi, hrate⟩, rfl⟩)
  · exact .inl ⟨rfl, rfl⟩
  · exact .inr (.inr ⟨⟨sub, payload, hi, hleg, hp⟩, rfl⟩)
  · exact .inl ⟨rfl, rfl⟩
  · exact .inl ⟨rfl, rfl⟩
  · exact .inl ⟨rfl, rfl⟩
  · exact .inl ⟨rfl, rfl⟩
  · exact .inr (.inr ⟨⟨sub, smp, hi, hleg, hp, hle⟩, rfl⟩)
  · exact .inl ⟨phaseStep_faultCode _ smp s, phaseStep_faultInfo _ smp s⟩

/-- The information of a fault with its cause is what the table of 60_exceptions.md R220 allows. -/
theorem faultInv_of_causedBy {i : Instr} {s t : State} (hcause : t.faultCode.causedBy i s)
    (hinfo : t.faultInfo = opSub i) : FaultInv t := by
  cases hc : t.faultCode with
  | noFault => exact (hc ▸ hcause).elim
  | noSampleRate =>
    rw [hc] at hcause
    obtain ⟨rfl, -⟩ := hcause
    simp [FaultInv, hc, hinfo, opSub, Instr.op, Instr.sub]
  | illegalCmd =>
    rw [hc] at hcause
    have hop : i.op ≠ 0x1#4 := op_ne_reset_of_illegal hcause
    simpa only [FaultInv, hc, hinfo, opSub_op, reduceCtorEq, false_implies, true_and, and_true,
      true_implies]
  | order =>
    rw [hc] at hcause
    obtain ⟨sub, smp, rfl, hlegal, -⟩ := hcause
    have hsub : sub.toNat < 2 := by simp only [Instr.illegal] at hlegal; omega
    simpa [FaultInv, hc, hinfo, Instr.op] using opSub_of_sub_lt_two (i := .edge sub smp) hsub
  | cfgBusy =>
    rw [hc] at hcause
    obtain ⟨sub, payload, rfl, hlegal, -⟩ := hcause
    have hsub : sub.toNat < 2 := by simp only [Instr.illegal] at hlegal; omega
    simpa [FaultInv, hc, hinfo, Instr.op] using opSub_of_sub_lt_two (i := .cfgw sub payload) hsub

theorem faultInv_of_exec {i : Instr} {s t : State} (hs : FaultInv s) (h : exec i s = .next t) :
    FaultInv t := by
  rcases exec_fault_cases h with ⟨hcode, hinfo⟩ | ⟨hcode, hinfo⟩ | ⟨hcause, hinfo⟩
  · rwa [FaultInv, hcode, hinfo]
  · simp [FaultInv, hcode, hinfo]
  · exact faultInv_of_causedBy hcause hinfo

/-- START, which alone enters a session, scales the LUT by the rate; in a session no command writes either
(10_state.md R30, R32). -/
theorem lutInv_of_exec {i : Instr} {s t : State} (hs : LutInv s) (h : exec i s = .next t) :
    LutInv t := by
  obtain rfl : effect i s = t := (exec_next_iff i s t).mp h
  rcases effect_cases i s with ⟨-, -, -, he⟩ | ⟨-, -, he⟩ | ⟨-, -, he⟩ | ⟨-, -, he⟩ | ⟨-, -, he⟩ |
    ⟨-, -, ⟨-, he⟩ | ⟨hrate, he⟩⟩ | ⟨-, -, -, -, -, ⟨-, he⟩ | ⟨hp, _, _, he⟩⟩ |
    ⟨-, smp, -, -, -, ⟨-, he⟩ | ⟨hp, he | he⟩ | ⟨-, -, he⟩ | ⟨hp, -, he⟩⟩
  all_goals rw [he]
  · exact fun hidle => absurd rfl hidle
  · exact hs
  · exact hs
  · exact hs
  · exact fun hidle => absurd rfl hidle
  · exact hs
  · exact fun _ => ⟨hrate, rfl⟩
  · exact hs
  · exact fun hsession => absurd hp hsession
  · exact hs
  · exact hs
  · exact fun _ => hs (by simp [hp])
  · exact hs
  · intro _
    have hcontrol := phaseStep_control (classify s.lut (interval s.prevBits smp)) smp s
    simp only [State.control, Prod.mk.injEq] at hcontrol
    obtain ⟨hcfg, hrate, -, hlut, -⟩ := hcontrol
    have hsession : s.phase ≠ .idle := by rcases hp with hp | hp | hp | hp <;> simp [hp]
    simpa only [hcfg, hrate, hlut] using hs hsession

/-- Settles O53: every command keeps both, and the reset pin leaves IDLE and an empty record. -/
theorem sessionInvariantIsKept : Obligations.SessionInvariantIsKept := by
  unfold Obligations.SessionInvariantIsKept
  intro s t hlut hfault
  exact step_keeps (I := fun s => LutInv s ∧ FaultInv s) (fun _ => Iff.rfl)
    (fun u _ => ⟨fun hidle => absurd rfl hidle, by simp [FaultInv]⟩)
    (fun i u v hu h => ⟨lutInv_of_exec hu.1 h, faultInv_of_exec hu.2 h⟩) ⟨hlut, hfault⟩

/-- Settles O55: the reset state is in IDLE, with every register the invariants compare at 0 or NONE. -/
theorem invariantsHoldAtReset : Obligations.InvariantsHoldAtReset := by
  unfold Obligations.InvariantsHoldAtReset
  have hwf : State.reset.cfg.wf := by decide
  exact ⟨Iff.mpr (phaseInv_idle_iff rfl) ⟨hwf, by decide, by decide⟩, by decide, by decide,
    fun hidle => absurd rfl hidle, by decide, by decide⟩

end Sys2Proof.Machine
end

section
/-! The records a command adds to the output (70_reset_and_hazards.md R261): how many, over which spans, and what the
code word among them holds. -/

namespace Sys2Proof.Machine

/-- To the records `before`, the step to `t` adds the annotations `as` and then the code words `rs`; a code word
only from position `pos` 65 on, after three annotations, as the register that RPT has just completed. -/
structure Emits (before : List OutRecord) (pos : Nat) (t : State) (as : List Annotation)
    (rs : List (BitVec 72)) : Prop where
  pending : t.pending = before ++ (as.map .ann ++ rs.map .cw)
  anns_le : as.length ≤ 3
  words_le : rs.length ≤ 1
  word : rs ≠ [] → as.length = 3 ∧ 65 ≤ pos ∧ rs = [t.cw.record] ∧ t.cw.popRpt = true ∧
    t.phase = .preamble

/-- Annotations alone. -/
theorem Emits.of_anns {before : List OutRecord} {pos : Nat} {t : State} {as : List Annotation}
    (h : t.pending = before ++ as.map .ann) (hle : as.length ≤ 3) : Emits before pos t as [] :=
  ⟨by simpa using h, hle, by simp, by simp⟩

/-- The records of a bit end at its end boundary and start with its symbol or its block. -/
theorem BitOutcome.emits {b : Bool} {sb e : Sample} {s t : State} (h : BitOutcome b sb e s t) :
    ∃ as rs, Emits s.pending s.bitCount.toNat t as rs ∧
      ∀ a ∈ as, (a.first = sb ∨ a.first = s.blockStartBits) ∧ a.last = e := by
  cases h with
  | accumulates hpos ht =>
    subst ht
    exact ⟨[_], [], .of_anns rfl (by simp), by simp⟩
  | closesEnc hpos ht | closesSer hpos ht | lowBattery hpos ht =>
    subst ht
    exact ⟨[_, _, _], [], .of_anns rfl (by simp), by simp⟩
  | button k hk hpos ht =>
    subst ht
    by_cases hlast : k = 3
    · exact ⟨[_, _, _], [], .of_anns (by simp only [if_pos hlast]; rfl) (by simp), by simp⟩
    · exact ⟨[_, _], [], .of_anns (by simp only [if_neg hlast]; rfl) (by simp), by simp⟩
  | completes hpos ht =>
    subst ht
    exact ⟨[_, _, _], [_], ⟨rfl, by simp, by simp, fun _ => ⟨rfl, hpos, rfl, rfl, rfl⟩⟩, by simp⟩

/-- The end boundary of the records of an edge: the edge, but for a valid bit 65 (20_memory.md section 3). -/
def endBoundary (m : MatchVec) (smp : Sample) (s : State) : Sample :=
  if s.phase = .data ∧ s.bitCount = 65#7 ∧ resolveBit m ≠ none then
    padEnd s.cfg.sampleW smp s.lastBitPad
  else smp

/-- The records of an edge end at its end boundary and start at a sample that was held when it came. -/
theorem PhaseOutcome.emits {m : MatchVec} {smp : Sample} {s t : State} (h : PhaseOutcome m smp s t) :
    ∃ as rs, Emits s.pending s.bitCount.toNat t as rs ∧
      (rs ≠ [] → s.phase = .data ∨ s.phase = .dataEnd) ∧
      ∀ a ∈ as, a.first ∈ [s.prevBits, s.bitStart, s.blockStartBits, s.blockStart.getD s.prevBits] ∧
        a.last = endBoundary m smp s := by
  cases h with
  | restarts hp ht =>
    subst ht
    exact ⟨[], [], .of_anns (by simp) (by simp), by simp, by simp⟩
  | counts hp hte ht =>
    subst ht
    exact ⟨[_], [], .of_anns rfl (by simp), by simp, by simp [endBoundary, hp]⟩
  | completes v hp hte ht =>
    subst ht
    exact ⟨[_, _], [], .of_anns rfl (by simp), by simp, by simp [endBoundary, hp]⟩
  | gap hp ht =>
    subst ht
    exact ⟨[_], [], .of_anns rfl (by simp), by simp, by simp [endBoundary, hp]⟩
  | invalid hp hm ht =>
    subst ht
    exact ⟨[_], [], .of_anns rfl (by simp), by simp, by simp [endBoundary, hm]⟩
  | waits b hp hpos ht =>
    subst ht
    exact ⟨[], [], .of_anns (by simp) (by simp), by simp, by simp⟩
  | last b hp hpos hm ht =>
    obtain ⟨as, rs, hemits, hspans⟩ := ht.emits
    rw [openBlock_pending, openBlock_bitCount] at hemits
    refine ⟨as, rs, hemits, fun _ => .inl hp, fun a ha => ?_⟩
    obtain ⟨hfirst, hlast⟩ := hspans a ha
    rw [openBlock_blockStartBits] at hfirst
    exact ⟨by rcases hfirst with hfirst | hfirst <;> simp [hfirst],
      by simp [hlast, endBoundary, hp, hpos, hm]⟩
  | ends hp ht =>
    obtain ⟨as, rs, hemits, hspans⟩ := ht.emits
    refine ⟨as, rs, hemits, fun _ => .inr hp, fun a ha => ?_⟩
    obtain ⟨hfirst, hlast⟩ := hspans a ha
    exact ⟨by rcases hfirst with hfirst | hfirst <;> simp [hfirst, State.blockStartBits],
      by simp [hlast, endBoundary, hp]⟩

/-- What a command can do to the output: nothing, or what the step of a phase does for an EDGE. -/
theorem exec_pending_cases {i : Instr} {s t : State} (h : exec i s = .next t) :
    t.pending = s.pending ∨
      ∃ sub smp u, i = .edge sub smp ∧ t = { u with prev := some smp } ∧
        PhaseOutcome (classify s.lut (interval s.prevBits smp)) smp s u := by
  obtain rfl : effect i s = t := (exec_next_iff i s t).mp h
  rcases effect_cases i s with ⟨-, -, -, he⟩ | ⟨-, -, he⟩ | ⟨-, -, he⟩ | ⟨-, -, he⟩ | ⟨-, -, he⟩ |
    ⟨-, -, ⟨-, he⟩ | ⟨-, he⟩⟩ | ⟨-, -, -, -, -, ⟨-, he⟩ | ⟨-, _, _, he⟩⟩ |
    ⟨sub, smp, -, hi, -, ⟨-, he⟩ | ⟨-, he | he⟩ | ⟨-, -, he⟩ | ⟨hp, -, he⟩⟩
  all_goals rw [he]
  on_goal -1 => exact .inr ⟨sub, smp, _, hi, rfl, phaseStep_outcome _ smp hp⟩
  all_goals exact .inl rfl

/-- The records of a command, whichever it is. -/
theorem exec_emits {i : Instr} {s t : State} (h : exec i s = .next t) :
    ∃ as rs, Emits s.pending s.bitCount.toNat t as rs ∧
      (rs ≠ [] → s.phase = .data ∨ s.phase = .dataEnd) ∧ (i.op ≠ 0x4#4 → as = [] ∧ rs = []) := by
  rcases exec_pending_cases h with hsame | ⟨sub, smp, u, rfl, rfl, hu⟩
  · exact ⟨[], [], .of_anns (by simpa using hsame) (by simp), by simp, by simp⟩
  · obtain ⟨as, rs, ⟨hpending, has, hrs, hword⟩, hphase, -⟩ := hu.emits
    exact ⟨as, rs, ⟨hpending, has, hrs, hword⟩, hphase, fun hop => absurd rfl hop⟩

/-- Settles O47: the records of a command, as `exec_emits` lists them. -/
theorem outputsPerCommandAreBounded : Obligations.OutputsPerCommandAreBounded := by
  unfold Obligations.OutputsPerCommandAreBounded
  intro i s t h
  obtain ⟨as, rs, ⟨hpending, has, hrs, hword⟩, hphase, hop⟩ := exec_emits h
  refine ⟨as.map .ann, rs.map .cw, by simpa using hpending, by simp, by simp, by simpa, by simpa,
    by simpa using hop, fun hne => ?_⟩
  have hrs' : rs ≠ [] := by simpa using hne
  obtain ⟨hthree, hpos, -⟩ := hword hrs'
  exact ⟨by simpa using hthree, hpos, hphase hrs'⟩

theorem fitsBuffer_of_emitted {as : List Annotation} {rs : List (BitVec 72)} (has : as.length ≤ 3)
    (hrs : rs.length ≤ 1) : fitsBuffer (as.map .ann ++ rs.map .cw) := by
  have hdrop : (as.map OutRecord.ann ++ rs.map OutRecord.cw).dropWhile OutRecord.isAnn = rs.map .cw := by
    rw [List.dropWhile_append_of_pos (by simp)]
    cases rs <;> simp
  have hfilter : (as.map OutRecord.ann ++ rs.map OutRecord.cw).filter OutRecord.isAnn = as.map .ann := by
    have hanns : (as.map OutRecord.ann).filter OutRecord.isAnn = as.map .ann :=
      List.filter_eq_self.mpr (by simp)
    have hwords : (rs.map OutRecord.cw).filter OutRecord.isAnn = [] :=
      List.filter_eq_nil_iff.mpr (by simp)
    rw [List.filter_append, hanns, hwords, List.append_nil]
  rw [fitsBuffer, hdrop, hfilter]
  simpa using ⟨has, hrs⟩

/-- Delivering the oldest record leaves a buffer that fits. -/
theorem fitsBuffer_tail {o : OutRecord} {os : List OutRecord} (h : fitsBuffer (o :: os)) :
    fitsBuffer os := by
  obtain ⟨hanns, hwords⟩ := h
  cases o with
  | ann a => exact ⟨Nat.le_of_succ_le (by simpa using hanns), by simpa using hwords⟩
  | cw r =>
    obtain rfl : os = [] := by simpa using hwords
    simp [fitsBuffer]

/-- Settles O54: a command runs on an empty buffer, and its records fit one. -/
theorem outputBufferSuffices : Obligations.OutputBufferSuffices := by
  unfold Obligations.OutputBufferSuffices
  intro s t hs h
  rcases step_cases s with ⟨-, he⟩ | ⟨-, o, os, hp, ⟨-, he⟩ | ⟨-, he⟩⟩ | ⟨-, -, -, he⟩ |
    ⟨hready, w, ws, -, he⟩
  · cases h.symm.trans he
    simp [fitsBuffer]
  · cases h.symm.trans he
    rw [tick_pending]
    exact fitsBuffer_tail (hp ▸ hs)
  · cases h.symm.trans he
    rwa [tick_pending]
  · cases h.symm.trans he
    rwa [tick_pending]
  · obtain ⟨as, rs, ⟨hpending, has, hrs, -⟩, -⟩ := exec_emits (he.symm.trans h)
    obtain ⟨-, hempty⟩ := (cmdReady_iff s).mp hready
    have hnone : (s.accept ws).tick.pending = [] := by simpa using hempty
    rw [hpending, hnone, List.nil_append]
    exact fitsBuffer_of_emitted has hrs

/-- A half-bit resolves exactly when its interval lies in one of the two windows (42_bit_resolver.md R142). -/
theorem resolveBit_ne_none_iff (s : State) (d : Sample) :
    resolveBit (classify s.lut d) ≠ none ↔ s.lut.bit1.has d.toNat ∨ s.lut.bit0.has d.toNat := by
  by_cases h : s.lut.bit1.has d.toNat ∨ s.lut.bit0.has d.toNat
  · rcases resolveBit_cases s d with ⟨b, -, hres⟩ | ⟨h1, h0, -⟩
    · simp [hres, h]
    · exact absurd h (not_or_intro h1 h0)
  · rw [not_or] at h
    simp [resolveBit_eq_none s d h.1 h.2, h.1, h.2]

/-- Settles O48: the starts held lie before the edge by the invariant, and the end boundary is the edge or the
padded one. -/
theorem endSamplesFollowTheEdge : Obligations.EndSamplesFollowTheEdge := by
  unfold Obligations.EndSamplesFollowTheEdge
  intro sub p smp s h hp hspan
  have ⟨_, hprev, hlt⟩ := h
  have hbits : s.prevBits = p := by simp [State.prevBits, hprev]
  obtain ⟨hbit, hblock, hopen⟩ := hspan.starts_le
  rw [hbits] at hbit hblock hopen
  have hw : s.cfg.sampleW ≤ 64 := hspan.1
  obtain ⟨as, rs, ⟨hpending, -⟩, -, hspans⟩ :=
    (phaseStep_outcome (classify s.lut (interval p smp)) smp hp).emits
  refine ⟨_, _, exec_edge_timed sub p smp s h hp, hpending, fun a ha => ?_⟩
  obtain ⟨hfirst, hlast⟩ := hspans a (by simpa using ha)
  refine ⟨?_, ?_⟩
  · simp only [hbits, List.mem_cons, List.not_mem_nil, or_false] at hfirst
    rcases hfirst with hf | hf | hf | hf <;> rw [hf] <;> omega
  · simp only [endBoundary, resolveBit_ne_none_iff, interval_toNat p smp hlt] at hlast
    split at hlast
    · next hlastBit => rw [if_pos hlastBit, hlast, padEnd_toNat _ hw]
    · next hlastBit => rw [if_neg hlastBit, hlast]

/-- Settles O49: the record is that of the register, in a state that the invariant of the code word holds in and
whose register is not the empty one, because RPT has been populated. -/
theorem codeWordIsFullyPopulated : Obligations.CodeWordIsFullyPopulated := by
  unfold Obligations.CodeWordIsFullyPopulated
  intro i s t outs r hphase hword h hout hr
  obtain ⟨-, hinv⟩ := wordInv_decoderInvariant.exec ⟨hphase, hword⟩ h
  obtain ⟨as, rs, ⟨hpending, -, -, hemit⟩, -⟩ := exec_emits h
  obtain rfl : outs = as.map .ann ++ rs.map .cw := List.append_cancel_left (hout.symm.trans hpending)
  have hmem : r ∈ rs := by simpa using hr
  obtain ⟨-, -, hrecord, hrpt, hp⟩ := hemit (List.ne_nil_of_mem hmem)
  obtain rfl : r = t.cw.record := by simpa [hrecord] using hmem
  obtain ⟨henc, hser, hbtn, hlowbat, hrptBit, -⟩ := record_fields t.cw
  refine ⟨?_, henc, hser, hbtn, hlowbat, hrptBit⟩
  rcases (wordInv_search_iff (.inl hp)).mp hinv with ⟨-, hempty | hall⟩
  · simp [hempty, CodeWord.empty] at hrpt
  · exact hall

end Sys2Proof.Machine
end

section
/-! The step and the host's levels (70_reset_and_hazards.md R250 to R262), the default windows
(40_timing_classifier.md R105), and the commands that do nothing but fault or wait. -/

namespace Sys2Proof.Machine

/-- Settles O7: the block is ready, and its tick is the host's next levels. -/
theorem stepRunsTheDecodedCommand : Obligations.StepRunsTheDecodedCommand := by
  unfold Obligations.StepRunsTheDecodedCommand
  intro s w ws i hpins hpending hcmd hdecode
  have hi : decodeWord w = i := by
    have hread := decode_bytesLE_append w []
    rw [List.append_nil, hdecode] at hread
    simpa using (Except.ok.inj hread).symm
  rw [step_of_ready hpins hpending hcmd, hi]
  refine ⟨fun hnil => ?_, fun p ps hcons => ?_⟩
  · rw [tick_nil (s.accept ws) hnil]
    rfl
  · rw [tick_cons (s.accept ws) p ps hcons]
    rfl

/-- With nothing to deliver and no word on `cmd` a step is a tick (44_commands.md R200). -/
theorem step_of_idle {s : State} (hrst : s.pins.rst = false) (hpending : s.pending = [])
    (hcmd : s.cmdIn = []) : step s = .next s.tick := by
  simp [step, hrst, hpending, hcmd]

/-- `rst` stays inactive when the host has planned it so (log 9). -/
theorem tick_keeps_rst_inactive {s : State} (hrst : s.pins.rst = false)
    (hahead : ∀ p ∈ s.pinsAhead, p.rst = false) :
    s.tick.pins.rst = false ∧ ∀ p ∈ s.tick.pinsAhead, p.rst = false := by
  cases h : s.pinsAhead with
  | nil => rw [tick_nil s h]; exact ⟨hrst, hahead⟩
  | cons p ps =>
    rw [h] at hahead
    rw [tick_cons s p ps h]
    exact List.forall_mem_cons.mp hahead

/-- Settles O8, by induction on the number of steps: each is a tick. -/
theorem noCommandMeansNoChange : Obligations.NoCommandMeansNoChange := by
  unfold Obligations.NoCommandMeansNoChange
  intro n
  induction n with
  | zero => exact fun s _ _ _ _ => ⟨s, rfl, rfl, fun _ => rfl⟩
  | succ n ih =>
    intro s hrst hpending hcmd hahead
    obtain ⟨hrst', hahead'⟩ := tick_keeps_rst_inactive hrst hahead
    obtain ⟨t, hrun, hframe, hsame⟩ := ih s.tick hrst' (by simpa) (by simpa) hahead'
    refine ⟨t, ?_, ?_, fun hnil => ?_⟩
    · rw [core_run_succ n s _ (step_of_idle hrst hpending hcmd), hrun]
    · rw [tick_eq s] at hframe
      exact hframe
    · have htick := tick_nil s hnil
      rw [← htick]
      exact hsame (htick.symm ▸ hnil)

/-- Settles O9: with a record waiting a step delivers it or is a tick, and the levels hold. -/
theorem stepDeliversTheOldestRecord : Obligations.StepDeliversTheOldestRecord := by
  unfold Obligations.StepDeliversTheOldestRecord
  intro s o os hrst hnil hpending
  refine ⟨fun hann hcwo => ?_, fun hlow => ?_⟩
  · have hstep : step s = .next (s.deliver o os).tick := by
      simp [step, hrst, hpending, Pins.draining, hann, hcwo]
    rw [hstep, tick_nil (s.deliver o os) hnil]
    rfl
  · rw [step_of_not_draining hrst ((draining_eq_false_iff _).mpr hlow), tick_nil s hnil]

/-- Settles O11: under `rst` the step is the reset and a tick. -/
theorem resetPinResetsEverything : Obligations.ResetPinResetsEverything := by
  unfold Obligations.ResetPinResetsEverything
  intro s hrst
  refine ⟨_, step_of_rst hrst, by simp, by simp [State.halted], fun hdefault => ?_, ?_,
    fun hnil => ?_, fun p ps hcons => ?_⟩
  · simp [hdefault, Params.default]
  · rw [tick_eq s.hardReset]
    rfl
  · rw [tick_nil s.hardReset hnil]
    exact ⟨rfl, hnil⟩
  · rw [tick_cons s.hardReset p ps hcons]
    exact ⟨rfl, rfl⟩

theorem edge_legal_of_edgeLegal {s : State} {sub : BitVec 4} {smp : Sample}
    (h : edgeLegal s sub smp) : ¬ (Instr.edge sub smp).illegal s.cfg.sampleW := by
  obtain ⟨-, hsub, hsmp⟩ := h
  simp only [Instr.illegal]
  omega

/-- A legal EDGE is its effect (44_commands.md R196). -/
theorem exec_edge_of_legal {s : State} {sub : BitVec 4} {smp : Sample} (h : edgeLegal s sub smp) :
    exec (.edge sub smp) s = .next (edgeEffect sub smp s) :=
  congrArg Host.Outcome.next (prologue_of_legal _ _ s h.1 (edge_legal_of_edgeLegal h))

/-- Settles O19: the effect of EDGE in IDLE is nothing. -/
theorem edgeIgnoredWithoutSession : Obligations.EdgeIgnoredWithoutSession := by
  unfold Obligations.EdgeIgnoredWithoutSession
  intro sub smp s h hp
  rw [exec_edge_of_legal h]
  simp only [edgeEffect, hp]

/-- Settles O21: the fault of an EDGE out of order, with `{op, sub}`. -/
theorem edgeOutOfOrderFaults : Obligations.EdgeOutOfOrderFaults := by
  unfold Obligations.EdgeOutOfOrderFaults
  intro sub smp p s h hp hprev hle
  have hbits : s.prevBits = p := by simp [State.prevBits, hprev]
  exact exec_edge_out_of_order h.1 (edge_legal_of_edgeLegal h) hp (hbits ▸ hle)

/-- Settles O23: a reserved opcode is illegal whatever its other bits. -/
theorem reservedOpcodesFault : Obligations.ReservedOpcodesFault := by
  unfold Obligations.ReservedOpcodesFault
  intro op0 op20 sub payload s
  have h67 : (Instr.reserved67 op0 sub payload).illegal s.cfg.sampleW := trivial
  have h8F : (Instr.reserved8F op20 sub payload).illegal s.cfg.sampleW := trivial
  exact ⟨fun hf => ⟨exec_of_illegal hf h67, exec_of_illegal hf h8F⟩,
    fun hf => ⟨exec_of_faulted (op_ne_reset_of_illegal h67) hf,
      exec_of_faulted (op_ne_reset_of_illegal h8F) hf⟩⟩

/-- An EDGE after the anchor at a greater sample runs the step of its phase, whatever `prev` holds
(44_commands.md R198). -/
theorem exec_edge_of_gt {s : State} {sub : BitVec 4} {smp : Sample} (h : edgeLegal s sub smp)
    (hp : s.phase.timed) (hgt : s.prevBits.toNat < smp.toNat) :
    exec (.edge sub smp) s =
      .next { phaseStep (classify s.lut (interval s.prevBits smp)) smp s with prev := some smp } := by
  have ⟨_, _, hsmp⟩ := h
  rw [exec_edge_of_legal h]
  simp only [edgeEffect, sampleOf_eq _ _ hsmp, timedEdge, if_neg (Nat.not_le.mpr hgt)]
  rcases hp with hp | hp | hp | hp <;> simp only [hp]

/-- Settles O43: in IDLE both edges do nothing; after the anchor they compare the same samples, and `sub` is read
only for the information of ORDER. -/
theorem polarityIgnoredAfterTheAnchor : Obligations.PolarityIgnoredAfterTheAnchor := by
  unfold Obligations.PolarityIgnoredAfterTheAnchor
  intro smp s hfalling hp
  have ⟨hf, _, hsmp⟩ := hfalling
  have hrising : edgeLegal s 1#4 smp := ⟨hf, by decide, hsmp⟩
  by_cases hidle : s.phase = .idle
  · exact ⟨s, s, edgeIgnoredWithoutSession _ _ s hrising hidle,
      edgeIgnoredWithoutSession _ _ s hfalling hidle, fun _ => rfl, fun hne => absurd hf hne⟩
  have htimed : s.phase.timed := by
    cases hs : s.phase <;> simp_all [Phase.timed]
  by_cases hle : smp.toNat ≤ s.prevBits.toNat
  · exact ⟨_, _, exec_edge_out_of_order hf (edge_legal_of_edgeLegal hrising) htimed hle,
      exec_edge_out_of_order hf (edge_legal_of_edgeLegal hfalling) htimed hle, nofun,
      fun _ => by simp [State.faulted, opSub, Instr.op, Instr.sub]⟩
  · have hgt : s.prevBits.toNat < smp.toNat := Nat.lt_of_not_le hle
    exact ⟨_, _, exec_edge_of_gt hrising htimed hgt, exec_edge_of_gt hfalling htimed hgt,
      fun _ => rfl, fun hne => absurd ((phaseStep_faultCode _ smp s).trans hf) hne⟩

/-- Settles O30: a scaled row compares the products of the bounds and the rate with those of the interval, which
are compared here for any two windows. -/
theorem defaultWindowsOverlapOnlyInPreamble : Obligations.DefaultWindowsOverlapOnlyInPreamble := by
  unfold Obligations.DefaultWindowsOverlapOnlyInPreamble
  intro s hf hr hshort hbit1 hbit0 hheader
  refine ⟨_, exec_start_of_rate hf hr, fun delta => ?_⟩
  have hrate : 0 < s.sampleRate.toNat := Nat.pos_of_ne_zero fun h => hr (BitVec.eq_of_toNat_eq h)
  simp only [buildLut, hshort, hbit1, hbit0, hheader]
  rw [scaleWindow_has_iff ⟨140, 290⟩ _ (by decide), scaleWindow_has_iff ⟨280, 580⟩ _ (by decide),
    scaleWindow_has_iff ⟨700, 1000⟩ _ (by decide), scaleWindow_has_iff ⟨3000, 6000⟩ _ (by decide)]
  dsimp only
  refine ⟨?_, ?_, ?_, ?_, ?_, ?_⟩ <;> omega

end Sys2Proof.Machine
end

section
/-! Runs of edges (70_reset_and_hazards.md R254), and the acquisition of a preamble (41_preamble_header.md
section 4). -/

namespace Sys2Proof.Machine

/-! ### Edges one after another -/

theorem execAll_append {is : List Instr} {s t : State} (h : execAll is s = .next t)
    (js : List Instr) : execAll (is ++ js) s = execAll js t := by
  induction is generalizing s with
  | nil => cases h; rfl
  | cons i is ih =>
    simp only [List.cons_append, execAll, exec_eq_effect] at h ⊢
    exact ih h

theorem edgesAfter_append (x : Nat) (ds es : List (Bool × Nat)) :
    edgesAfter x (ds ++ es) = edgesAfter x ds ++ edgesAfter (lastSample x ds) es := by
  induction ds generalizing x with
  | nil => rfl
  | cons d ds ih => exact congrArg (edgeAt d.1 (x + d.2) :: ·) (ih (x + d.2))

theorem lastSample_append (x : Nat) (ds es : List (Bool × Nat)) :
    lastSample x (ds ++ es) = lastSample (lastSample x ds) es := by
  induction ds generalizing x with
  | nil => rfl
  | cons d ds ih => exact ih (x + d.2)

theorem le_lastSample (x : Nat) (ds : List (Bool × Nat)) : x ≤ lastSample x ds := by
  induction ds generalizing x with
  | nil => exact le_rfl
  | cons d ds ih => exact (Nat.le_add_right x d.2).trans (ih (x + d.2))

theorem hostDuties_append {w x : Nat} {ds es : List (Bool × Nat)} (h : hostDuties w x (ds ++ es)) :
    hostDuties w x ds ∧ hostDuties w (lastSample x ds) es := by
  obtain ⟨hpos, hlt⟩ := h
  rw [lastSample_append] at hlt
  obtain ⟨hds, hes⟩ := List.forall_mem_append.mp hpos
  exact ⟨⟨hds, (le_lastSample _ es).trans_lt hlt⟩, hes, hlt⟩

/-- The duties of the first edge of a list, and of the others after it. -/
theorem hostDuties_cons {w x : Nat} {d : Bool × Nat} {ds : List (Bool × Nat)}
    (h : hostDuties w x (d :: ds)) :
    1 ≤ d.2 ∧ x + d.2 < 2 ^ w ∧ hostDuties w (x + d.2) ds := by
  obtain ⟨⟨hpos, hlt⟩, hrest⟩ := hostDuties_append (ds := [d]) h
  exact ⟨hpos d (List.mem_singleton_self d), hlt, hrest⟩

/-- The edges of `es` after those of `ds`, which lead from `s` to `t`. -/
theorem execAll_edges_append {x : Nat} {ds : List (Bool × Nat)} {s t : State}
    (h : execAll (edgesAfter x ds) s = .next t) (es : List (Bool × Nat)) :
    execAll (edgesAfter x (ds ++ es)) s = execAll (edgesAfter (lastSample x ds) es) t := by
  rw [edgesAfter_append, execAll_append h]

theorem execAll_edges_cons {x : Nat} {d : Bool × Nat} {s t : State}
    (h : exec (edgeAt d.1 (x + d.2)) s = .next t) (es : List (Bool × Nat)) :
    execAll (edgesAfter x (d :: es)) s = execAll (edgesAfter (x + d.2) es) t := by
  have hone : execAll (edgesAfter x [d]) s = .next t := by
    simp only [edgesAfter, execAll, h]
  exact execAll_edges_append hone es

/-- `t` follows `s` without a fault, in the same session, and its last edge was at sample `x`. -/
structure Follows (s : State) (x : Nat) (t : State) : Prop where
  cfg : t.cfg = s.cfg
  lut : t.lut = s.lut
  noFault : t.faultCode = .noFault
  prev : ∃ p : Sample, t.prev = some p ∧ p.toNat = x

theorem Follows.refl {s : State} {p : Sample} (hf : s.faultCode = .noFault) (hp : s.prev = some p) :
    Follows s p.toNat s :=
  ⟨rfl, rfl, hf, p, hp, rfl⟩

/-- The next edge of a host that does its duties is a legal one at a greater sample, and the session goes on. -/
theorem Follows.edge {s t : State} {x : Nat} (h : Follows s x t) (hp : t.phase.timed)
    (hw : s.cfg.sampleW ≤ 64) {d : Bool × Nat} (hpos : 1 ≤ d.2)
    (hlt : x + d.2 < 2 ^ s.cfg.sampleW) :
    ∃ sub p smp u, edgeTimed t sub p smp ∧ smp.toNat - p.toNat = d.2 ∧
      exec (.edge sub smp) t = .next u ∧ exec (edgeAt d.1 (x + d.2)) t = .next u ∧
      Follows s (x + d.2) u := by
  obtain ⟨hcfg, hlut, hf, p, hprev, rfl⟩ := h
  obtain ⟨pol, d⟩ := d
  dsimp only at hpos hlt ⊢
  have hsmp : (BitVec.ofNat 64 (p.toNat + d)).toNat = p.toNat + d :=
    Nat.mod_eq_of_lt (hlt.trans_le (Nat.pow_le_pow_right (by decide) hw))
  have hsub : (if pol then 1#4 else 0#4).toNat < 2 := by cases pol <;> decide
  have htimed : edgeTimed t (if pol then 1#4 else 0#4) p (BitVec.ofNat 64 (p.toNat + d)) :=
    ⟨⟨hf, hsub, by rwa [hsmp, hcfg]⟩, hprev, by omega⟩
  have hexec := exec_edge_timed _ p _ t htimed hp
  have hcontrol := phaseStep_control
    (classify t.lut (interval p (BitVec.ofNat 64 (p.toNat + d)))) (BitVec.ofNat 64 (p.toNat + d)) t
  simp only [State.control, Prod.mk.injEq] at hcontrol
  obtain ⟨hcfg', -, -, hlut', hf', -⟩ := hcontrol
  exact ⟨_, p, _, _, htimed, by omega, hexec, hexec,
    ⟨hcfg'.trans hcfg, hlut'.trans hlut, hf'.trans hf, _, rfl, hsmp⟩⟩

/-! ### The pulses of a preamble -/

/-- In `t` the search for the preamble goes on after `n` pulses. -/
structure Searching (s : State) (n x : Nat) (t : State) : Prop where
  follows : Follows s x t
  phase : t.phase = .preamble
  count : t.teCount.toNat = n

/-- A pulse of `d` samples is counted after `n` others and completes no preamble (41_preamble_header.md R120 to
R123). -/
def CountsOnly (s : State) (n d : Nat) : Prop :=
  pulseQualifies s.cfg n (isShort s d) (isStd s d) ∧ ¬ (isShort s d ∧ n + 1 = s.cfg.nShort) ∧
    ¬ (isStd s d ∧ n + 1 = s.cfg.nStd)

/-- Below both thresholds a pulse in either window is counted. -/
theorem countsOnly_of_lt {s : State} {n d : Nat} (h : isShort s d ∨ isStd s d)
    (hstd : n + 1 < s.cfg.nStd) (hshort : n + 1 < s.cfg.nShort) : CountsOnly s n d :=
  ⟨h.imp (⟨·, by omega⟩) (⟨·, by omega⟩), fun hs => by omega, fun hd => by omega⟩

/-- Below its threshold a short pulse is counted, unless it is standard too at the other threshold. -/
theorem countsOnly_of_short {s : State} {n d : Nat} (h : isShort s d) (hshort : n + 1 < s.cfg.nShort)
    (hstd : isStd s d → n + 1 ≠ s.cfg.nStd) : CountsOnly s n d :=
  ⟨.inl ⟨h, by omega⟩, fun hs => by omega, fun hd => hstd hd.1 hd.2⟩

theorem Searching.counts {s t : State} {n x : Nat} (h : Searching s n x t) (hwf : s.cfg.wf)
    {d : Bool × Nat} (hpos : 1 ≤ d.2) (hlt : x + d.2 < 2 ^ s.cfg.sampleW)
    (hpulse : CountsOnly s n d.2) :
    ∃ u, exec (edgeAt d.1 (x + d.2)) t = .next u ∧ Searching s (n + 1) (x + d.2) u := by
  obtain ⟨hfollows, hp, rfl⟩ := h
  have ⟨hcfg, hlut, _, _⟩ := hfollows
  have ⟨_, hw, _, _, _, hnStd, hnShort, _⟩ := hwf
  obtain ⟨sub, p, smp, u, htimed, hd, hexec, hedge, hnext⟩ := hfollows.edge (.inl hp) hw hpos hlt
  obtain ⟨hq, hshort, hstd⟩ := hpulse
  have hcounted := qualifyingPulseIsCounted sub p smp t htimed hp
  rw [hd, isShort, isStd, hcfg, hlut] at hcounted
  obtain ⟨-, hstep⟩ := hcounted hq
  cases hexec.symm.trans (hstep hshort hstd)
  refine ⟨_, hedge, hnext, hp, Nat.mod_eq_of_lt ?_⟩
  obtain ⟨-, hbelow⟩ | ⟨-, hbelow⟩ := hq <;> omega

theorem Searching.counts_all {s t : State} {n x : Nat} (h : Searching s n x t) (hwf : s.cfg.wf)
    {ds : List (Bool × Nat)} (hduties : hostDuties s.cfg.sampleW x ds)
    (hpulses : ∀ d ∈ ds, ∀ k < ds.length, CountsOnly s (n + k) d.2) :
    ∃ u, execAll (edgesAfter x ds) t = .next u ∧
      Searching s (n + ds.length) (lastSample x ds) u := by
  induction ds generalizing n x t with
  | nil => exact ⟨t, rfl, h⟩
  | cons d ds ih =>
    obtain ⟨hpos, hlt, hrest⟩ := hostDuties_cons hduties
    obtain ⟨u, hedge, hu⟩ := h.counts hwf hpos hlt (hpulses d (by simp) 0 (by simp))
    have hpulses' : ∀ e ∈ ds, ∀ k < ds.length, CountsOnly s (n + 1 + k) e.2 := fun e he k hk => by
      rw [Nat.add_right_comm, Nat.add_assoc]
      exact hpulses e (List.mem_cons_of_mem d he) (k + 1) (by simpa using hk)
    obtain ⟨v, hrun, hv⟩ := ih hu hrest hpulses'
    refine ⟨v, (execAll_edges_cons hedge ds).trans hrun, ?_⟩
    rw [List.length_cons, ← Nat.add_assoc, Nat.add_right_comm]
    exact hv

/-- A pulse is an effective match of the variant `v` (41_preamble_header.md R121). -/
def Variant.matched (v : Variant) (s : State) (d : Nat) : Prop :=
  match v with
  | .std => isStd s d
  | .short => isShort s d

/-- In `t` the preamble of variant `v` is complete and its gap is awaited. -/
structure GapAwaited (s : State) (v : Variant) (x : Nat) (t : State) : Prop where
  follows : Follows s x t
  phase : t.phase = .header
  count : t.teCount.toNat = threshold s.cfg v + 1
  variant : t.variant = v

theorem Searching.completes {s t : State} {n x : Nat} (h : Searching s n x t) (hwf : s.cfg.wf)
    {v : Variant} (hn : n + 1 = threshold s.cfg v) {d : Bool × Nat} (hpos : 1 ≤ d.2)
    (hlt : x + d.2 < 2 ^ s.cfg.sampleW) (hpulse : v.matched s d.2) :
    ∃ u, exec (edgeAt d.1 (x + d.2)) t = .next u ∧ GapAwaited s v (x + d.2) u := by
  obtain ⟨hfollows, hp, rfl⟩ := h
  have ⟨hcfg, hlut, _, _⟩ := hfollows
  have ⟨_, hw, _, _, hne, hnStd, hnShort, _⟩ := hwf
  obtain ⟨sub, p, smp, u, htimed, hd, hexec, hedge, hnext⟩ := hfollows.edge (.inl hp) hw hpos hlt
  have hlast := lastPulseCompletesThePreamble sub p smp t htimed hp
  rw [hd, isShort, isStd, hcfg, hlut] at hlast
  obtain ⟨hshort, hstd⟩ := hlast hne
  cases v with
  | std =>
    cases hexec.symm.trans (hstd hpulse hn)
    exact ⟨_, hedge, hnext, rfl, Nat.mod_eq_of_lt (show s.cfg.nStd + 1 < 64 by omega), rfl⟩
  | short =>
    cases hexec.symm.trans (hshort hpulse hn)
    exact ⟨_, hedge, hnext, rfl, Nat.mod_eq_of_lt (show s.cfg.nShort + 1 < 64 by omega), rfl⟩

theorem GapAwaited.startsData {s t : State} {v : Variant} {x : Nat} (h : GapAwaited s v x t)
    (hwf : s.cfg.wf) {d : Bool × Nat} (hpos : 1 ≤ d.2) (hlt : x + d.2 < 2 ^ s.cfg.sampleW)
    (hgap : s.lut.header.has d.2) :
    ∃ u, exec (edgeAt d.1 (x + d.2)) t = .next u ∧
      u.phase = .data ∧ u.teCount = 0#6 ∧ u.bitCount = 0#7 ∧ u.faultCode = .noFault := by
  obtain ⟨hfollows, hp, hcount, rfl⟩ := h
  have ⟨hcfg, hlut, _, _⟩ := hfollows
  have ⟨_, hw, _⟩ := hwf
  obtain ⟨sub, p, smp, u, htimed, hd, hexec, hedge, hnext⟩ :=
    hfollows.edge (.inr (.inl hp)) hw hpos hlt
  obtain ⟨hdata, -⟩ := headerGapStartsTheData sub p smp t htimed hp
  rw [hd, hlut, hcfg, ← threshold_eq] at hdata
  cases hexec.symm.trans (hdata ⟨hgap, hcount⟩)
  exact ⟨_, hedge, rfl, rfl, rfl, hnext.noFault⟩

/-- The last pulse of a preamble and its gap, after the pulses `ds` that led from `s` to `t`. -/
theorem Searching.acquires {s t : State} {n x : Nat} {ds : List (Bool × Nat)}
    (hrun : execAll (edgesAfter x ds) s = .next t) (h : Searching s n (lastSample x ds) t)
    (hwf : s.cfg.wf) {v : Variant} (hn : n + 1 = threshold s.cfg v) {last gap : Bool × Nat}
    (hduties : hostDuties s.cfg.sampleW x (ds ++ [last, gap])) (hlast : v.matched s last.2)
    (hgap : s.lut.header.has gap.2) :
    ∃ u w,
      execAll (edgesAfter x (ds ++ [last])) s = .next u ∧
      u.phase = .header ∧ u.teCount.toNat = threshold s.cfg v + 1 ∧ u.variant = v ∧
      execAll (edgesAfter x (ds ++ [last, gap])) s = .next w ∧
      w.phase = .data ∧ w.teCount = 0#6 ∧ w.bitCount = 0#7 ∧ w.faultCode = .noFault := by
  obtain ⟨-, htail⟩ := hostDuties_append hduties
  obtain ⟨hpos, hlt, hgapDuties⟩ := hostDuties_cons htail
  obtain ⟨hgapPos, hgapLt, -⟩ := hostDuties_cons hgapDuties
  obtain ⟨u, hedge, hu⟩ := h.completes hwf hn hpos hlt hlast
  obtain ⟨w, hgapEdge, hw⟩ := hu.startsData hwf hgapPos hgapLt hgap
  refine ⟨u, w, ?_, hu.phase, hu.count, hu.variant, ?_, hw⟩
  · rw [execAll_edges_append hrun, execAll_edges_cons hedge]
    rfl
  · rw [execAll_edges_append hrun, execAll_edges_cons hedge, execAll_edges_cons hgapEdge]
    rfl

/-- Under every policy a pulse in one of the two windows matches one of the variants (41_preamble_header.md
R121). -/
theorem matches_of_window {s : State} {d : Nat} (h : s.lut.preShort.has d ∨ s.lut.bit1.has d) :
    isShort s d ∨ isStd s d := by
  simp only [isShort, isStd, shortCounts, stdCounts]
  generalize s.lut.preShort.has d = inShort, s.lut.bit1.has d = inStd at h ⊢
  cases s.cfg.overlap <;> simp <;> tauto

/-- Settles O44: the pulses before the last are below both thresholds, and the last one is standard under each
policy. -/
theorem standardPreambleIsAcquired : Obligations.StandardPreambleIsAcquired := by
  unfold Obligations.StandardPreambleIsAcquired
  intro s p ds last gap hf hp hte hprev hwf hlt hlen hduties hpulses hlast hgap hpolicy
  have hstart : Searching s 0 p.toNat s := ⟨.refl hf hprev, hp, by simp [hte]⟩
  obtain ⟨hdutiesDs, -⟩ := hostDuties_append hduties
  obtain ⟨t, hrun, ht⟩ := hstart.counts_all hwf hdutiesDs fun d hd k hk =>
    countsOnly_of_lt (matches_of_window (.inr (hpulses d hd))) (by omega) (by omega)
  rw [Nat.zero_add] at ht
  exact ht.acquires hrun hwf (v := .std) hlen hduties ⟨hlast, hpolicy⟩ hgap

/-- Settles O45: the pulses up to the N_STD-th are below both thresholds or not standard, and those after it are
short and past the threshold of the standard variant. -/
theorem shortPreambleIsAcquired : Obligations.ShortPreambleIsAcquired := by
  unfold Obligations.ShortPreambleIsAcquired
  intro s p pre post mid gap hf hp hte hprev hwf hlt hpreLen hpostLen hduties hpulses hgap hunion
    hstdFirst
  obtain ⟨post, last, rfl⟩ : ∃ post' last, post = post' ++ [last] := by
    rcases List.eq_nil_or_concat post with rfl | h
    · simp only [List.length_nil] at hpostLen
      omega
    · simpa using h
  have hshort : ∀ d ∈ mid :: (post ++ [last]), isShort s d.2 := fun d hd =>
    ⟨hpulses d (List.mem_append_right pre hd), fun hpol => hstdFirst hpol d hd⟩
  have hmid : ¬ isStd s mid.2 := by
    rintro ⟨hin, hshortFirst⟩
    cases hpol : s.cfg.overlap with
    | union => exact hunion hpol hin
    | shortFirst => exact hshortFirst hpol (hpulses mid (by simp))
    | stdFirst => exact hstdFirst hpol mid (by simp) hin
  simp only [List.length_append, List.length_singleton] at hpostLen
  have hsplit : pre ++ mid :: (post ++ [last]) ++ [gap] = pre ++ [mid] ++ post ++ [last, gap] := by
    simp
  have hsplit' : pre ++ mid :: (post ++ [last]) = pre ++ [mid] ++ post ++ [last] := by simp
  rw [hsplit] at hduties
  rw [hsplit, hsplit']
  obtain ⟨hduties3, -⟩ := hostDuties_append hduties
  obtain ⟨hduties2, hdutiesPost⟩ := hostDuties_append hduties3
  obtain ⟨hdutiesPre, hdutiesMid⟩ := hostDuties_append hduties2
  have hstart : Searching s 0 p.toNat s := ⟨.refl hf hprev, hp, by simp [hte]⟩
  obtain ⟨t1, hrun1, ht1⟩ := hstart.counts_all hwf hdutiesPre fun d hd k hk =>
    countsOnly_of_lt (matches_of_window (.inl (hpulses d (List.mem_append_left _ hd)))) (by omega)
      (by omega)
  obtain ⟨t2, hrun2, ht2⟩ := ht1.counts_all hwf hdutiesMid fun d hd k hk => by
    obtain rfl : d = mid := List.mem_singleton.mp hd
    exact countsOnly_of_short (hshort d (by simp)) (by simp at hk; omega) fun hstd => absurd hstd hmid
  rw [← lastSample_append] at ht2
  obtain ⟨t3, hrun3, ht3⟩ := ht2.counts_all hwf hdutiesPost fun d hd k hk =>
    countsOnly_of_short (hshort d (by simp [hd])) (by simp; omega) fun _ => by simp; omega
  rw [← lastSample_append] at ht3
  have hrun : execAll (edgesAfter p.toNat (pre ++ [mid] ++ post)) s = .next t3 := by
    rw [execAll_edges_append ((execAll_edges_append hrun1 [mid]).trans hrun2), hrun3]
  exact ht3.acquires hrun hwf (v := .short) (by simp [threshold]; omega) hduties
    (hshort last (by simp)) hgap

end Sys2Proof.Machine
end

section
/-! The data portion (43_field_assembler.md section 6): the 131 edges of 66 symbols, bit by bit. -/

namespace Sys2Proof.Machine

/-- Every bit of a code-word record (30_encoding.md R79). -/
theorem record_getLsbD (c : CodeWord) (j : Nat) :
    c.record.getLsbD j =
      if j < 32 then c.enc.getLsbD j
      else if j < 60 then c.ser.getLsbD (j - 32)
      else if j < 64 then c.btn.getLsbD (j - 60)
      else if j = 64 then c.lowbat
      else if j = 65 then c.rpt
      else false := by
  simp only [CodeWord.record, BitVec.getLsbD_append]
  grind

/-- The bit that completes the code word stands at 65 (43_field_assembler.md R170). -/
theorem record_completed_getLsbD (c : CodeWord) (b : Bool) (j : Nat) :
    (CodeWord.record { c with rpt := b, popRpt := true }).getLsbD j =
      if j = 65 then b else c.record.getLsbD j := by
  simp only [record_getLsbD]
  grind

/-- The code word with the bits received so far: those of the field under way are still in `acc`
(43_field_assembler.md R162, R164). -/
def State.wordSoFar (s : State) : CodeWord :=
  if s.bitCount.toNat ≤ 31 then { s.cw with enc := s.acc }
  else if s.bitCount.toNat ≤ 59 then { s.cw with ser := s.acc.extractLsb' 0 28 }
  else s.cw

/-- Completing a bit below 65 moves to the next position in DATA, puts the bit at its position of the code word
and keeps those before it (43_field_assembler.md R160). -/
theorem BitOutcome.wordSoFar {b : Bool} {sb e : Sample} {s t : State} (h : BitOutcome b sb e s t)
    (hpos : s.bitCount.toNat < 65) :
    t.bitCount.toNat = s.bitCount.toNat + 1 ∧ t.phase = s.phase ∧
      ∀ j ≤ s.bitCount.toNat, t.wordSoFar.record.getLsbD j =
        if j = s.bitCount.toNat then b else s.wordSoFar.record.getLsbD j := by
  cases h with
  | accumulates hfield ht =>
    subst ht
    have hnext : (BitVec.ofNat 7 (s.bitCount.toNat + 1)).toNat = s.bitCount.toNat + 1 :=
      Nat.mod_eq_of_lt (by omega)
    refine ⟨hnext, rfl, fun j hj => ?_⟩
    simp only [State.wordSoFar, hnext, record_getLsbD]
    grind [setBit_getLsbD]
  | closesEnc hlast ht =>
    subst ht
    refine ⟨by simp [hlast], rfl, fun j hj => ?_⟩
    simp only [State.wordSoFar, record_getLsbD, hlast]
    grind [setBit_getLsbD]
  | closesSer hlast ht =>
    subst ht
    obtain ⟨hser, -⟩ := serialField_eq (setBit s.acc 27 b)
    refine ⟨by simp [hlast], rfl, fun j hj => ?_⟩
    simp only [State.wordSoFar, record_getLsbD, hlast, ← hser]
    grind [setBit_getLsbD]
  | button k hk hbit ht =>
    subst ht
    have hnext : (BitVec.ofNat 7 (61 + k)).toNat = 61 + k := Nat.mod_eq_of_lt (by omega)
    refine ⟨by simp only [hnext]; omega, rfl, fun j hj => ?_⟩
    simp only [State.wordSoFar, record_getLsbD, hbit, hnext, setPopBtn_eq _ hk]
    grind [setBit_getLsbD]
  | lowBattery hbit ht =>
    subst ht
    refine ⟨by simp [hbit], rfl, fun j hj => ?_⟩
    simp only [State.wordSoFar, record_getLsbD, hbit]
    grind
  | completes hlast ht => omega

/-- Every flag whose position is passed is set, whatever the others hold (10_state.md R29). -/
def popsPassed (c : CodeWord) (p : Nat) : Prop :=
  (32 ≤ p → c.popEnc = true) ∧ (60 ≤ p → c.popSer = true) ∧ (61 ≤ p → c.popS3 = true) ∧
  (62 ≤ p → c.popS0 = true) ∧ (63 ≤ p → c.popS1 = true) ∧ (64 ≤ p → c.popS2 = true) ∧
  (65 ≤ p → c.popLowbat = true)

/-- Completing a bit sets its flag and, with the field, empties the accumulator. -/
theorem BitOutcome.popsPassed {b : Bool} {sb e : Sample} {s t : State} (h : BitOutcome b sb e s t)
    (hpops : popsPassed s.cw s.bitCount.toNat) (hacc : 60 ≤ s.bitCount.toNat → s.acc = 0#32) :
    Machine.popsPassed t.cw (s.bitCount.toNat + 1) ∧ (60 ≤ s.bitCount.toNat + 1 → t.acc = 0#32) := by
  unfold Machine.popsPassed at *
  cases h with
  | accumulates hfield ht | closesEnc hlast ht | closesSer hlast ht | lowBattery hbit ht
  | completes hlast ht => grind
  | button k hk hbit ht =>
    rw [setPopBtn_eq _ hk] at ht
    grind

/-- The registers and the output of `t` hold the bits `b` up to position `q`: their records follow `before`. -/
structure Received (before : List OutRecord) (b : Nat → Bool) (q : Nat) (t : State) : Prop where
  count : t.bitCount.toNat = q
  bits : ∀ j < q, t.wordSoFar.record.getLsbD j = b j
  pops : popsPassed t.cw q
  acc : 60 ≤ q → t.acc = 0#32
  outs : ∃ anns, t.pending = before ++ anns ∧
    anns.map OutRecord.kind? = ((List.range q).flatMap kindsOfBit).map some

/-- The bit at position `q` and its records join those before it. -/
theorem Received.bit {before : List OutRecord} {b : Nat → Bool} {q : Nat} {t : State}
    (h : Received before b q t) (hq : q < 65) (sb e : Sample) :
    Received before b (q + 1) (bitComplete (b q) sb e t) ∧
      (bitComplete (b q) sb e t).phase = t.phase := by
  obtain ⟨rfl, hbits, hpops, hacc, anns, hanns, hkinds⟩ := h
  have houtcome := bitComplete_outcome (b t.bitCount.toNat) sb e t
  obtain ⟨hcount, hphase, hword⟩ := houtcome.wordSoFar hq
  obtain ⟨hpops', hacc'⟩ := houtcome.popsPassed hpops hacc
  obtain ⟨outs, houts, houtKinds⟩ := bitComplete_outs hq (b t.bitCount.toNat) sb e
  refine ⟨⟨hcount, fun j hj => ?_, hpops', hacc', anns ++ outs, ?_, ?_⟩, hphase⟩
  · rw [hword j (by omega)]
    split
    · next heq => rw [heq]
    · exact hbits j (by omega)
  · rw [houts, hanns, List.append_assoc]
  · simp [hkinds, houtKinds, List.range_succ]

/-- In `t` position `q` of a data portion begins, after an edge at `x`. -/
structure Receiving (s : State) (b : Nat → Bool) (q x : Nat) (t : State) : Prop where
  follows : Follows s x t
  phase : t.phase = .data
  received : Received s.pending b q t

/-- The half-bit of `d` resolves alike throughout a session. -/
theorem Follows.halfBit {s t : State} {x d : Nat} {b : Bool} (h : Follows s x t)
    (hb : halfBit s d b) : Machine.halfBit t d b := by
  rw [Machine.halfBit, h.lut]
  exact hb

/-- The two edges of a symbol below position 65: the first resolves the bit, the second completes it
(42_bit_resolver.md section 3). -/
theorem Receiving.symbol {s t : State} {b : Nat → Bool} {q x : Nat} (h : Receiving s b q x t)
    (hw : s.cfg.sampleW ≤ 64) (hq : q < 65) {d e : Bool × Nat} {ds : List (Bool × Nat)}
    (hduties : hostDuties s.cfg.sampleW x (d :: e :: ds)) (hbit : halfBit s d.2 (b q)) :
    ∃ v, execAll (edgesAfter x (d :: e :: ds)) t = execAll (edgesAfter (x + d.2 + e.2) ds) v ∧
      Receiving s b (q + 1) (x + d.2 + e.2) v := by
  obtain ⟨hfollows, hp, hcount, hbits, hpops, hacc, houts⟩ := h
  obtain ⟨hposd, hltd, hduties'⟩ := hostDuties_cons hduties
  obtain ⟨hpose, hlte, -⟩ := hostDuties_cons hduties'
  obtain ⟨sub, p, smp, u, htimed, hd, hexec, hedge, hnext⟩ :=
    hfollows.edge (.inr (.inr (.inl hp))) hw hposd hltd
  have hpos : t.bitCount ≠ 65#7 := fun heq => by simp [heq] at hcount; omega
  cases hexec.symm.trans
    (halfBitWaitsForItsEnd sub p smp t (b q) htimed hp hpos (hd.symm ▸ hfollows.halfBit hbit))
  obtain ⟨sub', p', smp', v, htimed', -, hexec', hedge', hnext'⟩ :=
    hnext.edge (.inr (.inr (.inr rfl))) hw hpose hlte
  cases hexec'.symm.trans (exec_edge_dataEnd sub' p' smp' _ htimed' rfl)
  obtain ⟨⟨hcount', hbits', hpops', hacc', houts'⟩, hphase'⟩ := Received.bit
    (t := { t with
      blockStart := some (t.blockStart.getD p), bitStart := p, pendBit := b q, phase := .data
      prev := some smp })
    ⟨hcount, hbits, hpops, hacc, houts⟩ hq p smp'
  exact ⟨_, (execAll_edges_cons hedge _).trans (execAll_edges_cons hedge' ds), hnext', hphase',
    hcount', hbits', hpops', hacc', houts'⟩

/-- The symbols below position 65, each with its half-bit. -/
theorem Receiving.symbols {s t : State} {b : Nat → Bool} {q x : Nat} (h : Receiving s b q x t)
    (hw : s.cfg.sampleW ≤ 64) {n : Nat} (hn : q + n ≤ 65) {ds : List (Bool × Nat)}
    (hlen : ds.length = 2 * n) (hduties : hostDuties s.cfg.sampleW x ds)
    (hbits : ∀ k < n, ∀ d, ds[2 * k]? = some d → halfBit s d.2 (b (q + k))) :
    ∃ u, execAll (edgesAfter x ds) t = .next u ∧ Receiving s b (q + n) (lastSample x ds) u := by
  induction n generalizing q x t ds with
  | zero =>
    obtain rfl : ds = [] := List.eq_nil_of_length_eq_zero hlen
    exact ⟨t, rfl, h⟩
  | succ n ih =>
    obtain ⟨d, e, ds, rfl⟩ : ∃ d e ds', ds = d :: e :: ds' := by
      match ds, hlen with
      | d :: e :: ds, _ => exact ⟨d, e, ds, rfl⟩
    obtain ⟨-, -, hduties'⟩ := hostDuties_cons hduties
    obtain ⟨-, -, hduties''⟩ := hostDuties_cons hduties'
    obtain ⟨v, hrun, hv⟩ := h.symbol hw (by omega) hduties (hbits 0 (by omega) d rfl)
    obtain ⟨u, hrun', hu⟩ := ih hv (by omega) (by simp only [List.length_cons] at hlen; omega) hduties'' fun k hk d' hd' => by
      rw [Nat.add_assoc, Nat.add_comm 1]
      exact hbits (k + 1) (by omega) d' hd'
    refine ⟨u, hrun.trans hrun', ?_⟩
    rw [Nat.add_right_comm] at hu
    exact hu

/-- The edge that resolves bit 65 completes the code word received, whose bits stand at their positions
(42_bit_resolver.md R145, 43_field_assembler.md R170). -/
theorem Receiving.completes {s t : State} {b : Nat → Bool} {x : Nat} (h : Receiving s b 65 x t)
    (hw : s.cfg.sampleW ≤ 64) {d : Bool × Nat} (hpos : 1 ≤ d.2)
    (hlt : x + d.2 < 2 ^ s.cfg.sampleW) (hbit : halfBit s d.2 (b 65)) :
    ∃ u anns r, exec (edgeAt d.1 (x + d.2)) t = .next u ∧
      u.phase = .preamble ∧ u.bitCount = 0#7 ∧ u.teCount = 0#6 ∧ u.blockStart = none ∧
      u.acc = 0#32 ∧ u.faultCode = .noFault ∧ u.cw.popAll true = true ∧
      u.pending = s.pending ++ anns ++ [.cw r] ∧
      anns.map OutRecord.kind? = ((List.range 66).flatMap kindsOfBit).map some ∧
      ∀ j, r.getLsbD j = if j < 66 then b j else false := by
  obtain ⟨hfollows, hp, hcount, hbits, hpops, hacc, anns, hanns, hkinds⟩ := h
  obtain ⟨sub, p, smp, u, htimed, hd, hexec, hedge, hnext⟩ :=
    hfollows.edge (.inr (.inr (.inl hp))) hw hpos hlt
  have hlast : t.bitCount = 65#7 := BitVec.eq_of_toNat_eq hcount
  have hstep := exec_edge_data_of_halfBit htimed hp (hd.symm ▸ hfollows.halfBit hbit)
  rw [if_pos hlast, lastBit,
    bitComplete_of_last _ _ _ ((openBlock_bitCount t).trans hlast)] at hstep
  generalize padEnd t.openBlock.cfg.sampleW smp t.openBlock.lastBitPad = e at hstep
  cases hexec.symm.trans hstep
  have hword : t.wordSoFar = t.cw := by simp [State.wordSoFar, hcount]
  rw [hword] at hbits
  refine ⟨_, anns ++ [.ann ⟨.logicalBit, t.openBlock.prevBits, e, valueOfBit (b 65)⟩,
      .ann ⟨.rptBlock, t.openBlock.blockStartBits, e, 0#32⟩,
      .ann ⟨.rptValue, t.openBlock.prevBits, e, valueOfBit (b 65)⟩],
    CodeWord.record { t.openBlock.cw with rpt := b 65, popRpt := true },
    hedge, rfl, rfl, rfl, rfl, ?acc, hnext.noFault, ?pops, ?pending, ?kinds, fun j => ?bits⟩
  case acc => simpa using hacc (by decide)
  case pops => simpa [popsPassed, CodeWord.popAll, and_assoc] using hpops
  case pending => simp [hanns, State.prevBits]
  case kinds =>
    rw [List.map_append, hkinds, List.range_succ (n := 65), List.flatMap_append, List.map_append]
    rfl
  case bits =>
    rw [openBlock_cw, record_completed_getLsbD]
    by_cases hj : j < 65
    · rw [if_neg (by omega), if_pos (by omega), hbits j hj]
    · rw [record_getLsbD]
      grind

/-- The number of annotations of a whole data portion (43_field_assembler.md R171). -/
theorem portion_kinds_length : ((List.range 66).flatMap kindsOfBit).length = 79 := by decide

/-- Settles O46: 65 symbols of two edges and the edge that ends bit 65, whose record packs the code word received. -/
theorem dataPortionYieldsTheCodeWord : Obligations.DataPortionYieldsTheCodeWord := by
  unfold Obligations.DataPortionYieldsTheCodeWord
  intro s p ds b hf hp hcount hacc _ hprev hw hlen hduties hbits
  obtain ⟨es, d, rfl⟩ : ∃ es d, ds = es ++ [d] := by
    rcases List.eq_nil_or_concat ds with rfl | h
    · simp at hlen
    · simpa using h
  have hlenEs : es.length = 2 * 65 := by simpa using hlen
  have hstart : Receiving s b 0 p.toNat s :=
    ⟨.refl hf hprev, hp, by simp [hcount], by simp, by simp [popsPassed], by simp, [], by simp⟩
  obtain ⟨hdutiesEs, hdutiesLast⟩ := hostDuties_append hduties
  obtain ⟨hpos, hlt, -⟩ := hostDuties_cons hdutiesLast
  obtain ⟨t, hrun, ht⟩ := hstart.symbols hw (n := 65) (by decide) hlenEs hdutiesEs fun k hk e he => by
    rw [Nat.zero_add]
    exact hbits k (by omega) e (by rw [List.getElem?_append_left (by omega)]; exact he)
  have hlast : halfBit s d.2 (b 65) := hbits 65 (by decide) d (by simp [hlenEs])
  obtain ⟨u, anns, r, hedge, hpre, hbit0, hte0, hblock, hacc0, hf', hpops, hpending, hkinds, hr⟩ :=
    ht.completes hw hpos hlt hlast
  refine ⟨u, anns, r, (execAll_edges_append hrun [d]).trans (execAll_edges_cons hedge []), hpre,
    hbit0, hte0, hblock, hacc0, hf', hpops, hpending, hkinds, ?_, fun j hj => ?_, fun j hj => ?_⟩
  · rw [← List.length_map OutRecord.kind?, hkinds, List.length_map, portion_kinds_length]
  · rw [hr, if_pos hj]
  · rw [hr, if_neg (by omega)]

end Sys2Proof.Machine
end
